-- ==== Sys2Proof/Word.lean ====
section
/-! DEFINITION. The word types of 00_scope.md R7 (a byte is 8 bits, a word is 32 bits) and the one
16-bit type the spec's registers and fields use. -/
namespace Sys2Proof

/-- A byte (R7). -/
abbrev Byte := BitVec 8

/-- A 16-bit field: an immediate, a register number, a result, a command (R81, R82, R34). -/
abbrev Half := BitVec 16

/-- A word (R7). A Q value is a word read as two's complement (R191). -/
abbrev Word := BitVec 32

end Sys2Proof
end

