-- ==== Sys2Proof/Config.lean ====
section
/-! DEFINITION. The implementation parameters of 00_scope.md R6. The fixed ones are constants here.
The others are plain data that a state carries (`Params`, `Settings`), so that a statement about every
state is a statement about every legal choice of parameters: the OPEN ones have no default a claim may
use (assumption log 1). -/
namespace Sys2Proof

namespace Config

/-- `TIME_HZ`, time units per second of the time counter, fixed (R6). -/
def timeHz : Nat := 1000

/-- One in format Q: `2^F` with `F = 16`, fixed (R6, R191). -/
def qOne : Nat := 65536

/-- Bytes of a token buffer (R37). -/
def tokSize : Nat := 11

/-- The largest array a FIFO may have (R6). -/
def maxFifoSize : Nat := 65536

end Config

/-- `PARSE_OVF`: what CODEC does with a decimal value above 2^32-1 (R6, R143). -/
inductive ParseOvf where
  | wrap
  | saturate
deriving DecidableEq, Repr

/-- A tick level (R232); also the value of `CTRL_LEVEL` (R6). -/
inductive TickLevel where
  | millisecond
  | tenMs
  | tenthSecond
  | second
deriving DecidableEq, Repr

/-- The parameters of R6 that are not instance counts or array sizes. -/
structure Settings where
  /-- `CTRL_LEVEL` (OPEN). -/
  ctrlLevel : TickLevel
  /-- `ACT_MAX`; `none` is the spec's `NONE`, no clamp. -/
  actMax : Option Nat
  /-- `OUTER_ROUND`. -/
  outerRound : Bool
  /-- `EOL`. -/
  eol : List Byte
  /-- `PARSE_OVF`. -/
  parseOvf : ParseOvf
deriving DecidableEq, Repr

/-- All parameters of R6 that a model chooses. -/
structure Params where
  /-- One pair per transport `t`: the array sizes `(N[2t], N[2t+1])` (OPEN); `NT` is its length (R25). -/
  fifoSizes : List (Nat × Nat)
  /-- `NENC`. -/
  nenc : Nat
  settings : Settings
deriving DecidableEq, Repr

/-- The parameters of `State.reset`: the defaults of R6 and, for the two OPEN ones, 8 bytes for each
FIFO and the 10 ms level. DESIGN CHOICE, unsafe: the OPEN values are the model's (assumption log 1);
no statement rests on them. -/
def Params.default : Params where
  fifoSizes := [(8, 8)]
  nenc := 4
  settings :=
    { ctrlLevel := .tenMs, actMax := some 127, outerRound := true, eol := [0x0A], parseOvf := .wrap }

end Sys2Proof
end

