-- ==== Sys2Proof/Syntax.lean ====
section
/-! DEFINITION. The sixteen operations of 30_encoding.md R84, one constructor per row of
spec/opcode_table.json, and the packets that carry them (R80). Operands are the fields and words the
row names (R83); nothing is checked here that a fault of 60_exceptions.md checks. -/
namespace Sys2Proof

/-- A command packet: one header word and the operand words that follow it (R80). An empty packet
cannot be expressed on the port (R87), so none can be expressed here. -/
structure Packet where
  header : Word
  operands : List Word
deriving DecidableEq, Repr

/-- A response packet: one header word `S` and the result words (R80, R82). -/
structure Response where
  header : Word
  results : List Word
deriving DecidableEq, Repr

/-- The operations of CCC (R84). An instance operand is the whole 8-bit `inst` field (R83). -/
inductive Instr where
  /-- `CFGRD reg` -/
  | cfgrd (reg : Half)
  /-- `CFGWR reg ; value` -/
  | cfgwr (reg : Half) (value : Word)
  /-- `FPUSH f, byte` -/
  | fpush (f : Byte) (b : Byte)
  /-- `FPOP f` -/
  | fpop (f : Byte)
  /-- `FWRITE f, "bytes"`: the payload words as they came, one byte each when legal (R83, R113) -/
  | fwrite (f : Byte) (payload : List Word)
  /-- `FREAD f, max_len` -/
  | fread (f : Byte) (maxLen : Half)
  /-- `FAVAIL f` -/
  | favail (f : Byte)
  /-- `FFREE f` -/
  | ffree (f : Byte)
  /-- `ESYNC e` -/
  | esync (e : Byte)
  /-- `PUPDATE p ; target, actual, dt` -/
  | pupdate (p : Byte) (target actual dt : Word)
  /-- `CUPDATE ; vactual, lactual, ractual, dt` -/
  | cupdate (vactual lactual ractual dt : Word)
  /-- `TPOLL` -/
  | tpoll
  /-- `TNEXT` -/
  | tnext
  /-- `CRX c, byte` -/
  | crx (c : Byte) (b : Byte)
  /-- `CSEND c, code ; value` -/
  | csend (c : Byte) (code : Byte) (value : Word)
  /-- `CUI c, char` -/
  | cui (c : Byte) (ch : Byte)
deriving DecidableEq, Repr

end Sys2Proof
end

