-- ==== Sys2Proof/Machine/State.lean ====
section
/-! DEFINITION. The architectural state of CCC (10_state.md), as plain data, the inputs its agents give
it, the reasons a step can stop, and the state after reset. -/
namespace Sys2Proof.Machine

/-- The bytes of one array, as the cells that differ from what an unlisted index reads as, indices
rising (assumption log 5). Each FIFO array and each token buffer is an address space of its own,
starting at index 0 (20_memory.md R60). -/
abbrev Memory := List Host.Cell

/-- One FIFO instance (R22, R23). `size` is the parameter `N[f]`, which no operation changes. -/
structure Fifo where
  size : Nat
  buf : Memory
  start : Nat
  /-- the spec's cursor `end` -/
  stop : Nat
deriving DecidableEq, Repr

/-- One CODEC instance: receive side R37, transmit side R38. -/
structure Codec where
  tok : Memory
  len : Nat
  inUi : Bool
  sol : Bool
deriving DecidableEq, Repr

/-- Transport `t`: its receive FIFO (instance `2t`), its transmit FIFO (instance `2t+1`) and its CODEC
instance `t` (R25). -/
structure Transport where
  rx : Fifo
  tx : Fifo
  codec : Codec
deriving DecidableEq, Repr

/-- `ENC[e].sense`: the spec's bit 0 is +1, 1 is -1 (R27). -/
inductive Sense where
  | plus
  | minus
deriving DecidableEq, Repr

/-- One encoder instance (R27, R29, R31) and its register `PPR[e]` (R52). -/
structure Enc where
  count : Word
  lastInterval : Word
  sense : Sense
  tEdge : Word
  tSync : Word
  ppr : Half
deriving DecidableEq, Repr

/-- `PID[p].prev_err` and `PID[p].integ`, Q raw words (R32). -/
structure PidState where
  prevErr : Word
  integ : Word
deriving DecidableEq, Repr

/-- `KP[p]`, `KI[p]`, `KD[p]` (R51). -/
structure Gains where
  kp : Word
  ki : Word
  kd : Word
deriving DecidableEq, Repr

/-- The axes: 0 vehicle, 1 left motor, 2 right motor (43_pid.md, 20_memory.md R67). -/
inductive Axis where
  | vehicle
  | left
  | right
deriving DecidableEq, Repr

/-- One value for each axis. -/
structure PerAxis (α : Type) where
  vehicle : α
  left : α
  right : α
deriving DecidableEq, Repr

/-- `SCHED.phase`: 0 IDLE, 1 SYNC, 2 PID, 3 RXDRAIN, 4 TXDRAIN (R35). -/
inductive Phase where
  | idle
  | sync
  | pid
  | rxdrain
  | txdrain
deriving DecidableEq, Repr

/-- The scheduler (R35). -/
structure Sched where
  lastMs : Word
  d10 : Nat
  d100 : Nat
  d1000 : Nat
  phase : Phase
deriving DecidableEq, Repr

/-- One step of an agent (00_scope.md R9): a command packet of HOST, an edge of an encoder with the levels
of both lines just after it (42_qenc.md R170), the millisecond strobe, the reset line. -/
inductive Input where
  | command (p : Packet)
  | edgeA (e : Nat) (a b : Bool)
  | edgeB (e : Nat) (a b : Bool)
  | mstick
  | reset
deriving DecidableEq, Repr

/-- The registers of the register space CFG (R45). -/
inductive Reg where
  | fault
  | status
  | vtarget
  | slip
  | motorEn
  | ppr (e : Nat)
  | kp (p : Axis)
  | ki (p : Axis)
  | kd (p : Axis)
deriving DecidableEq, Repr

/-- The six faults an operation can raise (60_exceptions.md R261). They are taken, not stops:
`State.raise` gives the next state. -/
inductive FaultCode where
  | illegalOp
  | badInstance
  | badReg
  | badOperand
  | encDiv0
  | pidDt0
deriving DecidableEq, Repr

/-- Why the model stops. None of these is one of the spec's faults (R261), which are taken. -/
inductive Fault where
  /-- Raised by the FIFO and CODEC operations when an access leaves its array: `MemRead` and `MemWrite`
  are defined only inside it (00_scope.md R8). Only a state with a cursor or a token length out of its
  range (R23, R37) can meet it. Safe: no reachable state does (assumption log 7). -/
  | arrayIndex
  /-- Raised by the step for an edge of an encoder `e >= NENC`, whose lines do not exist (R170). Safe:
  no such input can occur (assumption log 8). -/
  | noSuchEncoder
deriving DecidableEq, Repr

/-- Why an instruction has no meaning. -/
inductive Refusal where
  /-- Raised by `exec` for an instruction that is not modelled. Safe. No arm of `exec` uses it. -/
  | notModelled (mnemonic : String)
deriving DecidableEq, Repr

/-- The machine. The last three fields are the model's own: the parameters of R6 that are not instance
counts or sizes (log 1), the steps still to come, the next one first (log 2), and the response of the step
just taken (log 3). -/
structure State where
  /-- `FIFO[f]` and `CODEC[c]`, by transport (R25) -/
  transports : List Transport
  /-- `T` (R26) -/
  time : Word
  /-- `ENC[e]` and `PPR[e]` -/
  encs : List Enc
  /-- `PID[p]` (R32) -/
  pid : PerAxis PidState
  /-- `KP[p]`, `KI[p]`, `KD[p]` (R51) -/
  gains : PerAxis Gains
  /-- `ACT[1]` (R34) -/
  actLeft : Half
  /-- `ACT[2]` (R34) -/
  actRight : Half
  /-- `SCHED` (R35) -/
  sched : Sched
  /-- `FAULT` (R46) -/
  faultReg : Word
  /-- `STATUS` (R47) -/
  statusReg : Word
  /-- `VTARGET` (R48) -/
  vtarget : Word
  /-- `SLIP`: the 31 bits it implements (R45, R49) -/
  slip : BitVec 31
  /-- `MOTOR_EN`: the 2 bits it implements (R45, R50) -/
  motorEn : BitVec 2
  /-- the model's own: parameters of R6 -/
  settings : Settings
  /-- the model's own: the steps still to come -/
  inputs : List Input
  /-- the model's own: the response of the step just taken -/
  response : Option Response
deriving DecidableEq, Repr

/-- A FIFO of `size` bytes after reset (R54): both cursors 0; the array's contents are unspecified
(assumption log 5). -/
def Fifo.init (size : Nat) : Fifo := { size := size, buf := [], start := 0, stop := 0 }

/-- A CODEC instance after reset (R54, R151). -/
def Codec.init : Codec := { tok := [], len := 0, inUi := false, sol := true }

/-- An encoder after reset (R54). -/
def Enc.init : Enc :=
  { count := 0, lastInterval := 0, sense := .plus, tEdge := 0, tSync := 0, ppr := 0 }

/-- The PID state of an axis after reset (R54). -/
def PidState.init : PidState := { prevErr := 0, integ := 0 }

/-- The gains of an axis after reset (R54). -/
def Gains.init : Gains := { kp := 0, ki := 0, kd := 0 }

/-- The scheduler after reset (R54). -/
def Sched.init : Sched := { lastMs := 0, d10 := 0, d100 := 0, d1000 := 0, phase := .idle }

/-- A machine with the parameters `p`, right after reset (10_state.md R54). -/
def State.build (p : Params) : State where
  transports := p.fifoSizes.map fun n =>
    { rx := Fifo.init n.1, tx := Fifo.init n.2, codec := Codec.init }
  time := 0
  encs := List.replicate p.nenc Enc.init
  pid := { vehicle := PidState.init, left := PidState.init, right := PidState.init }
  gains := { vehicle := Gains.init, left := Gains.init, right := Gains.init }
  actLeft := 0
  actRight := 0
  sched := Sched.init
  faultReg := 0
  statusReg := 0
  vtarget := 0
  slip := 0
  motorEn := 0
  settings := p.settings
  inputs := []
  response := none

/-- The machine right after reset (R54), with the parameters of `Params.default`. -/
def State.reset : State := State.build Params.default

/-- The parameters a state carries. -/
def State.params (s : State) : Params where
  fifoSizes := s.transports.map fun t => (t.rx.size, t.tx.size)
  nenc := s.encs.length
  settings := s.settings

end Sys2Proof.Machine
end

