-- ==== Sys2Proof/Machine/Flags.lean ====
section
/-! DEFINITION. Every flag of 10_state.md R40: the derived `empty` and `full` of a FIFO, the sense an edge
records, the sticky bits of FAULT (R46) and STATUS (R47). The stored flags `in_ui` and `sol` are written
by the CODEC operations themselves (Machine/Codec.lean). -/
namespace Sys2Proof.Machine

/-- `used(f) = (end - start) mod N` (R24); both cursors are below `N`, so adding `N` keeps the difference
from going negative and changes nothing modulo `N`. -/
def Fifo.used (q : Fifo) : Nat := (q.stop + q.size - q.start) % q.size

/-- `free(f) = N - 1 - used(f)` (R24). -/
def Fifo.free (q : Fifo) : Nat := q.size - 1 - q.used

/-- `empty(f) = (start == end)` (R24). -/
def Fifo.empty (q : Fifo) : Bool := q.start == q.stop

/-- `full(f) = ((end + 1) mod N == start)` (R24). -/
def Fifo.full (q : Fifo) : Bool := (q.stop + 1) % q.size == q.start

/-- The sense of an edge on channel A: equal levels +1, different levels -1 (R171). -/
def senseA (a b : Bool) : Sense := if a = b then .plus else .minus

/-- The sense of an edge on channel B, mirrored: equal levels -1, different levels +1 (R172). -/
def senseB (a b : Bool) : Sense := if a = b then .minus else .plus

/-- The sign a sense stands for (R27, R173). -/
def Sense.sign : Sense → Int
  | .plus => 1
  | .minus => -1

/-- The code of a fault, which is also its bit in FAULT (R46, R261). -/
def FaultCode.code : FaultCode → Nat
  | .illegalOp => 1
  | .badInstance => 2
  | .badReg => 3
  | .badOperand => 4
  | .encDiv0 => 5
  | .pidDt0 => 6

/-- The word whose only set bit is bit `n`. -/
def bitWord (n : Nat) : Word := BitVec.ofNat 32 (2 ^ n)

/-- Set bit `n` of a sticky register when `c` holds, and leave the others (R46, R47). -/
def setSticky (w : Word) (n : Nat) (c : Bool) : Word := if c then w ||| bitWord n else w

/-- The number of an axis, which is the place of its `PIDSAT` bit in STATUS (R47). -/
def Axis.number : Axis → Nat
  | .vehicle => 0
  | .left => 1
  | .right => 2

/-- The place of `ENCSAT[e]` in STATUS (R47). -/
def encsatBit (e : Nat) : Nat := 8 + e

end Sys2Proof.Machine
end

