-- ==== Sys2Proof/WellFormed.lean ====
section
/-! DEFINITION. Which instructions have an encoding, and which parameters R6 allows. Every operand of
an instruction but one has the width of its field by its type; the exception is the payload of FWRITE,
whose length is the 16-bit `imm` (30_encoding.md R83). -/
namespace Sys2Proof

/-- The instruction has an encoding: an FWRITE payload is at most 65535 words long (R83, R86). -/
def Instr.wf : Instr → Bool
  | .cfgrd _ => true
  | .cfgwr _ _ => true
  | .fpush _ _ => true
  | .fpop _ => true
  | .fwrite _ payload => decide (payload.length < 65536)
  | .fread _ _ => true
  | .favail _ => true
  | .ffree _ => true
  | .esync _ => true
  | .pupdate _ _ _ _ => true
  | .cupdate _ _ _ _ => true
  | .tpoll => true
  | .tnext => true
  | .crx _ _ => true
  | .csend _ _ _ => true
  | .cui _ _ => true

/-- `N[f]` is in 2..65536 (R6). -/
def legalFifoSize (n : Nat) : Bool := decide (2 ≤ n ∧ n ≤ Config.maxFifoSize)

/-- `ACT_MAX` is in 1..32767 or NONE (R6). -/
def legalActMax : Option Nat → Bool
  | none => true
  | some a => decide (1 ≤ a ∧ a ≤ 32767)

/-- `EOL` has 1 to 4 bytes (R6). -/
def legalEol (eol : List Byte) : Bool := decide (1 ≤ eol.length ∧ eol.length ≤ 4)

/-- The legal values of `ACT_MAX` and `EOL` (R6); the other settings are legal by their types. -/
def Settings.wf (g : Settings) : Bool := legalActMax g.actMax && legalEol g.eol

/-- The legal values of every parameter of R6. -/
def Params.wf (p : Params) : Bool :=
  decide (1 ≤ p.fifoSizes.length ∧ p.fifoSizes.length ≤ 8)
    && p.fifoSizes.all (fun n => legalFifoSize n.1 && legalFifoSize n.2)
    && decide (1 ≤ p.nenc ∧ p.nenc ≤ 16)
    && p.settings.wf

end Sys2Proof
end

