-- ==== Sys2Proof/Decode.lean ====
section
/-! DEFINITION. The decoder of 30_encoding.md (R81, R83, R84, R86, R87), total on every packet and
rejecting by name; after it the encoder, written from the same header layout and opcode numbers. -/
namespace Sys2Proof

/-- The names of the rows of R84. -/
inductive Op where
  | cfgrd | cfgwr | fpush | fpop | fwrite | fread | favail | ffree | esync | pupdate | cupdate
  | tpoll | tnext | crx | csend | cui
deriving DecidableEq, Repr

/-- What follows the header (R81): nothing, one value word, three words, four words, `imm` words. -/
inductive Form where
  | h | hv | h3 | h4 | hb
deriving DecidableEq, Repr

/-- A row of R84: a header `H` spells the operation when `H & mask = pat` (the column "match"). -/
structure Row where
  op : Op
  pat : Word
  mask : Word
  form : Form
deriving DecidableEq, Repr

/-- The opcode map (R84); the form is the number of operand words (R86). -/
def rows : List Row := [
  ⟨.cfgrd,   0x01000000, 0xFFFF0000, .h⟩,
  ⟨.cfgwr,   0x02000000, 0xFFFF0000, .hv⟩,
  ⟨.fpush,   0x10000000, 0xFF00FF00, .h⟩,
  ⟨.fpop,    0x11000000, 0xFF00FFFF, .h⟩,
  ⟨.fwrite,  0x12000000, 0xFF000000, .hb⟩,
  ⟨.fread,   0x13000000, 0xFF000000, .h⟩,
  ⟨.favail,  0x14000000, 0xFF00FFFF, .h⟩,
  ⟨.ffree,   0x15000000, 0xFF00FFFF, .h⟩,
  ⟨.esync,   0x20000000, 0xFF00FFFF, .h⟩,
  ⟨.pupdate, 0x30000000, 0xFF00FFFF, .h3⟩,
  ⟨.cupdate, 0x31000000, 0xFFFFFFFF, .h4⟩,
  ⟨.tpoll,   0x40000000, 0xFFFFFFFF, .h⟩,
  ⟨.tnext,   0x41000000, 0xFFFFFFFF, .h⟩,
  ⟨.crx,     0x50000000, 0xFF00FF00, .h⟩,
  ⟨.csend,   0x51000000, 0xFF00FF00, .hv⟩,
  ⟨.cui,     0x52000000, 0xFF00FF00, .h⟩]

/-- Header bits 31:24 (R81). -/
def opField (h : Word) : Byte := h.extractLsb' 24 8

/-- Header bits 23:16 (R81). -/
def instField (h : Word) : Byte := h.extractLsb' 16 8

/-- Header bits 15:0 (R81). -/
def immField (h : Word) : Half := h.extractLsb' 0 16

/-- A byte operand: `imm[7:0]` (R83). -/
def byteField (h : Word) : Byte := h.extractLsb' 0 8

/-- The header spells the row's operation (R84). -/
def Row.spells (r : Row) (h : Word) : Bool := h &&& r.mask == r.pat

/-- The row a header matches, if any; the rows are disjoint (R84). -/
def findRow (h : Word) : Option Row := rows.find? (fun r => r.spells h)

/-- The number of operand words a form requires (R86). -/
def Form.wordCount (form : Form) (h : Word) : Nat :=
  match form with
  | .h => 0
  | .hv => 1
  | .h3 => 3
  | .h4 => 4
  | .hb => (immField h).toNat

/-- The instruction of a row, its operands taken from the header and the operand words (R83); used only
on a list of the required length. -/
def assemble (op : Op) (h : Word) (ws : List Word) : Instr :=
  match op with
  | .cfgrd => .cfgrd (immField h)
  | .cfgwr => .cfgwr (immField h) (ws.getD 0 0)
  | .fpush => .fpush (instField h) (byteField h)
  | .fpop => .fpop (instField h)
  | .fwrite => .fwrite (instField h) ws
  | .fread => .fread (instField h) (immField h)
  | .favail => .favail (instField h)
  | .ffree => .ffree (instField h)
  | .esync => .esync (instField h)
  | .pupdate => .pupdate (instField h) (ws.getD 0 0) (ws.getD 1 0) (ws.getD 2 0)
  | .cupdate => .cupdate (ws.getD 0 0) (ws.getD 1 0) (ws.getD 2 0) (ws.getD 3 0)
  | .tpoll => .tpoll
  | .tnext => .tnext
  | .crx => .crx (instField h) (byteField h)
  | .csend => .csend (instField h) (byteField h) (ws.getD 0 0)
  | .cui => .cui (instField h) (byteField h)

/-- Why a packet is no instruction. -/
inductive Reject where
  /-- the header matches no row (R87) -/
  | illegalOp
  /-- the number of operand words is not the one the row requires (R86) -/
  | wordCount
deriving DecidableEq, Repr

/-- What the decoder answers. -/
inductive Decoded where
  | instr (i : Instr)
  | reject (r : Reject)
deriving DecidableEq, Repr

/-- Decode a command packet (R84, R86, R87): first the header, then the number of operand words
(60_exceptions.md R268). -/
def decode (p : Packet) : Decoded :=
  match findRow p.header with
  | none => .reject .illegalOp
  | some r =>
    if p.operands.length = r.form.wordCount p.header then
      .instr (assemble r.op p.header p.operands)
    else .reject .wordCount

/-- The opcode numbers of R84. -/
def Op.code : Op → Byte
  | .cfgrd => 0x01
  | .cfgwr => 0x02
  | .fpush => 0x10
  | .fpop => 0x11
  | .fwrite => 0x12
  | .fread => 0x13
  | .favail => 0x14
  | .ffree => 0x15
  | .esync => 0x20
  | .pupdate => 0x30
  | .cupdate => 0x31
  | .tpoll => 0x40
  | .tnext => 0x41
  | .crx => 0x50
  | .csend => 0x51
  | .cui => 0x52

/-- The header layout `op ++ inst ++ imm` (R81). -/
def mkHeader (op : Op) (inst : Byte) (imm : Half) : Word := op.code ++ inst ++ imm

/-- A byte operand as an immediate: `imm[15:8] = 0` (R83). -/
def byteImm (b : Byte) : Half := b.setWidth 16

/-- The packet that spells an instruction (R81, R83, R84). -/
def encode : Instr → Packet
  | .cfgrd reg => ⟨mkHeader .cfgrd 0 reg, []⟩
  | .cfgwr reg value => ⟨mkHeader .cfgwr 0 reg, [value]⟩
  | .fpush f b => ⟨mkHeader .fpush f (byteImm b), []⟩
  | .fpop f => ⟨mkHeader .fpop f 0, []⟩
  | .fwrite f payload => ⟨mkHeader .fwrite f (BitVec.ofNat 16 payload.length), payload⟩
  | .fread f maxLen => ⟨mkHeader .fread f maxLen, []⟩
  | .favail f => ⟨mkHeader .favail f 0, []⟩
  | .ffree f => ⟨mkHeader .ffree f 0, []⟩
  | .esync e => ⟨mkHeader .esync e 0, []⟩
  | .pupdate p target actual dt => ⟨mkHeader .pupdate p 0, [target, actual, dt]⟩
  | .cupdate vactual lactual ractual dt => ⟨mkHeader .cupdate 0 0, [vactual, lactual, ractual, dt]⟩
  | .tpoll => ⟨mkHeader .tpoll 0 0, []⟩
  | .tnext => ⟨mkHeader .tnext 0 0, []⟩
  | .crx c b => ⟨mkHeader .crx c (byteImm b), []⟩
  | .csend c code value => ⟨mkHeader .csend c (byteImm code), [value]⟩
  | .cui c ch => ⟨mkHeader .cui c (byteImm ch), []⟩

/-- The row name of an instruction (R84). -/
def Instr.op : Instr → Op
  | .cfgrd _ => .cfgrd
  | .cfgwr _ _ => .cfgwr
  | .fpush _ _ => .fpush
  | .fpop _ => .fpop
  | .fwrite _ _ => .fwrite
  | .fread _ _ => .fread
  | .favail _ => .favail
  | .ffree _ => .ffree
  | .esync _ => .esync
  | .pupdate _ _ _ _ => .pupdate
  | .cupdate _ _ _ _ => .cupdate
  | .tpoll => .tpoll
  | .tnext => .tnext
  | .crx _ _ => .crx
  | .csend _ _ _ => .csend
  | .cui _ _ => .cui

/-- Word `k` of a packet numbered as spec/opcode_table.json numbers its bits: bit 0 is the least
significant bit of the header, and operand word `k` stands at bits `32*k+31 .. 32*k`. Bits from `nbits`
up are 0. -/
def tableWord (nbits w k : Nat) : Word := BitVec.ofNat 32 ((w % 2 ^ nbits) >>> (32 * k))

/-- The packet whose bits are `w`. The port frames packets (R80), so the packet has as many operand words
as its header requires (R86), none where the header is illegal. -/
def packetOfBits (nbits w : Nat) : Packet :=
  let h := tableWord nbits w 0
  let n := match findRow h with
    | none => 0
    | some r => r.form.wordCount h
  ⟨h, (List.range n).map fun k => tableWord nbits w (k + 1)⟩

/-- The instruction the decoder reads from a table word. -/
def decodeTableWord (nbits w : Nat) : Option Instr :=
  match decode (packetOfBits nbits w) with
  | .instr i => some i
  | .reject _ => none

end Sys2Proof
end

