-- ==== Sys2Proof/Machine/Operands.lean ====
section
/-! DEFINITION. How operands are read and results are spelled: the integer primitives of 00_scope.md R8,
the operand forms of 30_encoding.md R83, the response header R82, the character classes and the two
number spellings of 41_codec.md. -/
namespace Sys2Proof.Machine

/-- `s32(w)`: a word as a two's-complement integer (R7). -/
def s32 (w : Word) : Int := w.toInt

/-- `u32(v)`: `v mod 2^32` as a word (R7). -/
def u32 (v : Int) : Word := BitVec.ofInt 32 v

/-- `sat_W(v)` (R8). -/
def satW (v : Int) : Int := min (max v (-2147483648)) 2147483647

/-- `sat16(v)` (R8). -/
def sat16 (v : Int) : Int := min (max v (-32768)) 32767

/-- `rdiv(n, d)`, `d > 0`: the nearest integer to `n/d`, ties away from zero (R8, R192). -/
def rdiv (n : Int) (d : Nat) : Int := n.sign * (((2 * n.natAbs + d) / (2 * d) : Nat) : Int)

/-- The response header `S = {op, status, res}` (R82). -/
def respHeader (op : Byte) (status : Byte) (res : Half) : Word := op ++ status ++ res

/-- The field `status` of a response (R82). -/
def responseStatus (r : Response) : Byte := r.header.extractLsb' 16 8

/-- The field `res` of a response (R82). -/
def responseRes (r : Response) : Half := r.header.extractLsb' 0 16

/-- A byte as a result word or payload word: bits 31:8 are 0 (R83, R85). -/
def byteWord (b : Byte) : Word := b.setWidth 32

/-- The byte of a payload word: `w[7:0]` (R83). -/
def payloadByte (w : Word) : Byte := w.setWidth 8

/-- A payload word is legal: bits 31:8 are 0 (R83). -/
def legalPayload (w : Word) : Bool := decide (w.toNat < 256)

/-- `sext_32` of a 16-bit register (R83, R85). -/
def sext32 (h : Half) : Word := h.signExtend 32

/-- The axis an `inst` field names: 0 vehicle, 1 left, 2 right, none from 3 on (R83, R201). -/
def axisOf (inst : Byte) : Option Axis :=
  if inst = 0 then some .vehicle
  else if inst = 1 then some .left
  else if inst = 2 then some .right
  else none

/-- The tick a level's flag stands at in the mask of TPOLL (R232). -/
def levelBit : TickLevel → Nat
  | .millisecond => 0
  | .tenMs => 1
  | .tenthSecond => 2
  | .second => 3

/-- The 3-bit coding of `SCHED.phase` (R35). -/
def phaseCode : Phase → Half
  | .idle => 0
  | .sync => 1
  | .pid => 2
  | .rxdrain => 3
  | .txdrain => 4

/-- A letter: `A`-`Z`, `a`-`z` (R140). -/
def isLetter (b : Byte) : Bool :=
  decide (0x41 ≤ b.toNat ∧ b.toNat ≤ 0x5A ∨ 0x61 ≤ b.toNat ∧ b.toNat ≤ 0x7A)

/-- A digit: `0`-`9` (R140). -/
def isDigit (b : Byte) : Bool := decide (0x30 ≤ b.toNat ∧ b.toNat ≤ 0x39)

/-- The comma, the frame terminator (R140). -/
def comma : Byte := 0x2C

/-- A printable character: 0x20..0x7E (R152). -/
def isPrintable (b : Byte) : Bool := decide (0x20 ≤ b.toNat ∧ b.toNat ≤ 0x7E)

/-- The number a digit byte stands for (R143). -/
def digitValue (b : Byte) : Nat := b.toNat - 0x30

/-- The digit byte of a number below 10. -/
def digitByte (n : Nat) : Byte := BitVec.ofNat 8 (0x30 + n)

/-- The decimal number a digit string spells, most significant digit first, unbounded (R143). -/
def decimalValue (ds : List Byte) : Nat := ds.foldl (fun v d => v * 10 + digitValue d) 0

/-- `parse_uint` (R143): the decimal number, narrowed as `PARSE_OVF` says. -/
def parseUint (ovf : ParseOvf) (ds : List Byte) : Word :=
  match ovf with
  | .wrap => BitVec.ofNat 32 (decimalValue ds)
  | .saturate => BitVec.ofNat 32 (min (decimalValue ds) 4294967295)

/-- The decimal digits of `v` put in front of `tail`, at most `k` of them. -/
def decDigits : Nat → Nat → List Byte → List Byte
  | 0, _, tail => tail
  | k + 1, v, tail =>
    if v < 10 then digitByte v :: tail
    else decDigits k (v / 10) (digitByte (v % 10) :: tail)

/-- `dec(v)`, `v` in 1..2^32-1: at most ten digits, no leading zero (R8). -/
def dec (v : Word) : List Byte := decDigits 10 v.toNat []

/-- The frame of a command: the code, the value in decimal unless it is 0, a comma (R149). -/
def frame (code : Byte) (value : Word) : List Byte :=
  code :: ((if value = 0 then [] else dec value) ++ [comma])

end Sys2Proof.Machine
end

