-- ==== Sys2Proof/Machine/Ops.lean ====
section
/-! DEFINITION. The named operations over memory, instances and registers: the byte arrays, the FIFO
operations of 40_fifo.md, the register space of 10_state.md R45, answering (30_encoding.md R82), and
raising a fault (60_exceptions.md R261). There is no return from a fault: nothing is saved and nothing is
restored (60_exceptions.md R270, R271). -/
namespace Sys2Proof.Machine

/-! ### Byte arrays -/

/-- What an unlisted index reads as. The spec leaves the bytes of an array unspecified after reset and
no operation reads one before it is written (R22, R37, R291). DESIGN CHOICE, unsafe: assumption log 5. -/
def unlistedByte : Byte := 0

/-- The byte at index `a`. -/
def Memory.read : Memory → Nat → Byte
  | [], _ => unlistedByte
  | (x, b) :: m, a => if x = a then b else Memory.read m a

/-- Write one byte at index `a`, keeping the canonical form. -/
def Memory.write : Memory → Nat → Byte → Memory
  | [], a, b => if b = unlistedByte then [] else [(a, b)]
  | (x, c) :: m, a, b =>
    if a < x then (if b = unlistedByte then (x, c) :: m else (a, b) :: (x, c) :: m)
    else if a = x then (if b = unlistedByte then m else (a, b) :: m)
    else (x, c) :: Memory.write m a b

/-- Write a byte string at indices `a, a+1, ...`. -/
def Memory.writeAll : Memory → Nat → List Byte → Memory
  | m, _, [] => m
  | m, a, b :: bs => Memory.writeAll (Memory.write m a b) (a + 1) bs

/-- The canonical form: indices strictly rising, no entry equal to what an unlisted index reads as. -/
def Memory.wf : Memory → Bool
  | [] => true
  | (x, b) :: m => decide (b ≠ unlistedByte) && m.all (fun c => decide (x < c.1)) && Memory.wf m

/-- Every listed index is below `size`. -/
def Memory.within (m : Memory) (size : Nat) : Bool := m.all fun c => decide (c.1 < size)

/-- `MemRead(f, a, n)`: the bytes at `a .. a+n-1`, defined only inside the array (R8). -/
def Memory.load (m : Memory) (size a n : Nat) : Option (List Byte) :=
  if a + n ≤ size then some ((List.range n).map fun i => Memory.read m (a + i)) else none

/-- `MemWrite(f, a, n, v)`: store `v` at `a .. a+n-1`, defined only inside the array (R8). -/
def Memory.store (m : Memory) (size a : Nat) (v : List Byte) : Option Memory :=
  if a + v.length ≤ size then some (Memory.writeAll m a v) else none

/-! ### FIFO (40_fifo.md). `none` only where an access leaves the array, which no legal cursor allows. -/

/-- The bytes of the occupied region in queue order (R24), the list `Q(f)` of R119. -/
def Fifo.queue (q : Fifo) : List Byte :=
  (List.range q.used).map fun i => Memory.read q.buf ((q.start + i) % q.size)

/-- Put one byte (R111); the flag says whether it was accepted. -/
def Fifo.push (q : Fifo) (b : Byte) : Option (Fifo × Bool) :=
  if q.full then some (q, false)
  else match Memory.store q.buf q.size q.stop [b] with
    | none => none
    | some buf => some ({ q with buf := buf, stop := (q.stop + 1) % q.size }, true)

/-- Take one byte (R112); `none` inside when the queue is empty. The slot is not erased (R66). -/
def Fifo.pop (q : Fifo) : Option (Fifo × Option Byte) :=
  if q.empty then some (q, none)
  else match Memory.load q.buf q.size q.start 1 with
    | none => none
    | some d => some ({ q with start := (q.start + 1) % q.size }, d.head?)

/-- Put as many leading bytes of `d` as fit, in at most two segments (R113); the number says how many. -/
def Fifo.put (q : Fifo) (d : List Byte) : Option (Fifo × Nat) :=
  let n := min d.length q.free
  let seg1 := min n (q.size - q.stop)
  let seg2 := n - seg1
  match Memory.store q.buf q.size q.stop (d.take seg1) with
  | none => none
  | some buf1 =>
    match Memory.store buf1 q.size 0 ((d.drop seg1).take seg2) with
    | none => none
    | some buf2 => some ({ q with buf := buf2, stop := (q.stop + n) % q.size }, n)

/-- Take up to `m` bytes, in at most two segments (R114). -/
def Fifo.take (q : Fifo) (m : Nat) : Option (Fifo × List Byte) :=
  let n := min m q.used
  let seg1 := min n (q.size - q.start)
  let seg2 := n - seg1
  match Memory.load q.buf q.size q.start seg1 with
  | none => none
  | some d1 =>
    match Memory.load q.buf q.size 0 seg2 with
    | none => none
    | some d2 => some ({ q with start := (q.start + n) % q.size }, d1 ++ d2)

/-! ### Instances -/

/-- `NFIFO = 2*NT` (R6, R25). -/
def State.nfifo (s : State) : Nat := 2 * s.transports.length

/-- `FIFO[f]`: `2t` is the receive, `2t+1` the transmit FIFO of transport `t` (R25); none from `NFIFO` on. -/
def State.fifo? (s : State) (f : Nat) : Option Fifo :=
  s.transports[f / 2]?.map fun t => if f % 2 = 0 then t.rx else t.tx

/-- Replace `FIFO[f]`. -/
def State.setFifo (s : State) (f : Nat) (q : Fifo) : State :=
  { s with
    transports := s.transports.modify (f / 2) fun t =>
      if f % 2 = 0 then { t with rx := q } else { t with tx := q } }

/-- Transport `t`, with `CODEC[t]`; none from `NT` on. -/
def State.transport? (s : State) (c : Nat) : Option Transport := s.transports[c]?

/-- Replace transport `t`. -/
def State.setTransport (s : State) (c : Nat) (t : Transport) : State :=
  { s with transports := s.transports.set c t }

/-- `ENC[e]`; none from `NENC` on. -/
def State.enc? (s : State) (e : Nat) : Option Enc := s.encs[e]?

/-- Replace `ENC[e]`. -/
def State.setEnc (s : State) (e : Nat) (n : Enc) : State := { s with encs := s.encs.set e n }

/-- The value of an axis. -/
def PerAxis.get {α : Type} (x : PerAxis α) : Axis → α
  | .vehicle => x.vehicle
  | .left => x.left
  | .right => x.right

/-- Replace the value of an axis. -/
def PerAxis.set {α : Type} (x : PerAxis α) (p : Axis) (v : α) : PerAxis α :=
  match p with
  | .vehicle => { x with vehicle := v }
  | .left => { x with left := v }
  | .right => { x with right := v }

/-- The byte at index `i` of `FIFO[f].buf`, for statements; 0 where there is no such instance. -/
def State.fifoByte (s : State) (f i : Nat) : Byte :=
  match s.fifo? f with
  | none => 0
  | some q => Memory.read q.buf i

/-- The byte at index `i` of `CODEC[c].tok`, for statements; 0 where there is no such instance. -/
def State.tokByte (s : State) (c i : Nat) : Byte :=
  match s.transport? c with
  | none => 0
  | some t => Memory.read t.codec.tok i

/-! ### Answering, and raising a fault -/

/-- Answer with `status = 0`, the result `res` and the result words (R82). -/
def State.respond (s : State) (op : Op) (res : Half) (results : List Word) : State :=
  { s with response := some ⟨respHeader op.code 0 res, results⟩ }

/-- `raise`: bit `n` of FAULT is set, `n` the fault's code; the response carries the echoed `op`, the code
and `res = 0`, no result words; nothing else changes (00_scope.md R8, 60_exceptions.md R261, R82). -/
def State.raise (s : State) (op : Byte) (c : FaultCode) : State :=
  { s with
    faultReg := setSticky s.faultReg c.code true
    response := some ⟨respHeader op (BitVec.ofNat 8 c.code) 0, []⟩ }

/-- The fault of a packet that is no instruction (R86, R87, 60_exceptions.md R262, R264). -/
def rejectFault : Reject → FaultCode
  | .illegalOp => .illegalOp
  | .wordCount => .badOperand

/-- Set bit `n` of STATUS when `c` holds (R47). -/
def State.flagStatus (s : State) (n : Nat) (c : Bool) : State :=
  { s with statusReg := setSticky s.statusReg n c }

/-! ### The register space CFG (R45) -/

/-- The axis with number `p`; none from 3 on (R250). -/
def axisNumbered (p : Nat) : Option Axis :=
  if p = 0 then some .vehicle else if p = 1 then some .left else if p = 2 then some .right else none

/-- The register with a number, on a machine with `nenc` encoders; none for an undefined number
(R45, R250). -/
def regOf (nenc : Nat) (reg : Half) : Option Reg :=
  let n := reg.toNat
  if n = 0x0001 then some .fault
  else if n = 0x0002 then some .status
  else if n = 0x0010 then some .vtarget
  else if n = 0x0011 then some .slip
  else if n = 0x0012 then some .motorEn
  else if 0x0100 ≤ n ∧ n < 0x0200 then
    if n % 0x10 = 0 ∧ (n - 0x0100) / 0x10 < nenc then some (.ppr ((n - 0x0100) / 0x10)) else none
  else if 0x0200 ≤ n then
    match axisNumbered ((n - 0x0200) / 0x10) with
    | none => none
    | some p =>
      if n % 0x10 = 0 then some (.kp p)
      else if n % 0x10 = 1 then some (.ki p)
      else if n % 0x10 = 2 then some (.kd p)
      else none
  else none

/-- The value of a register as a 32-bit word; bits it does not implement read 0 (R251). -/
def State.readReg (s : State) : Reg → Word
  | .fault => s.faultReg
  | .status => s.statusReg
  | .vtarget => s.vtarget
  | .slip => s.slip.setWidth 32
  | .motorEn => s.motorEn.setWidth 32
  | .ppr e => match s.enc? e with
    | none => 0
    | some n => n.ppr.setWidth 32
  | .kp p => (s.gains.get p).kp
  | .ki p => (s.gains.get p).ki
  | .kd p => (s.gains.get p).kd

/-- Write a register (R252): FAULT and STATUS are read-only; SLIP, MOTOR_EN and PPR refuse a word with a
bit they do not implement. -/
def State.writeReg (s : State) (r : Reg) (v : Word) : Except FaultCode State :=
  match r with
  | .fault => .error .badReg
  | .status => .error .badReg
  | .vtarget => .ok { s with vtarget := v }
  | .slip => if v.toNat < 2 ^ 31 then .ok { s with slip := v.setWidth 31 } else .error .badOperand
  | .motorEn => if v.toNat < 2 ^ 2 then .ok { s with motorEn := v.setWidth 2 } else .error .badOperand
  | .ppr e =>
    match s.enc? e with
    | none => .error .badReg
    | some n =>
      if v.toNat < 2 ^ 16 then .ok (s.setEnc e { n with ppr := v.setWidth 16 }) else .error .badOperand
  | .kp p => .ok { s with gains := s.gains.set p { s.gains.get p with kp := v } }
  | .ki p => .ok { s with gains := s.gains.set p { s.gains.get p with ki := v } }
  | .kd p => .ok { s with gains := s.gains.set p { s.gains.get p with kd := v } }

end Sys2Proof.Machine
end

