-- ==== Sys2Proof/Machine/Codec.lean ====
section
/-! DEFINITION. The CODEC operations of 41_codec.md: the receive state machine, the transmit path and its
two modes. `none` only where an access leaves its array, which no legal state allows. -/
namespace Sys2Proof.Machine

/-- The parser's state as the document names it; a function of `len` (R142). -/
inductive ParserState where
  | idle
  | inLetter
  | inDigits
deriving DecidableEq, Repr

/-- `Idle` is `len == 0`, `InLetter` is `len == 1`, `InDigits` is the rest (R142). -/
def Codec.parserState (k : Codec) : ParserState :=
  if k.len = 0 then .idle else if k.len = 1 then .inLetter else .inDigits

/-- The bytes of the token, the letter first (R37). -/
def Codec.token (k : Codec) : List Byte := (List.range k.len).map fun i => Memory.read k.tok i

/-- Drop the token (R141). -/
def Codec.idle (k : Codec) : Codec := { k with len := 0 }

/-- Feed one received byte to the parser (R141); the second part is the command emitted, if any. -/
def Codec.feed (k : Codec) (ovf : ParseOvf) (b : Byte) : Option (Codec × Option (Byte × Word)) :=
  if isLetter b then
    match Memory.store k.tok Config.tokSize 0 [b] with
    | none => none
    | some tok => some ({ k with tok := tok, len := 1 }, none)
  else if isDigit b then
    if 1 ≤ k.len ∧ k.len ≤ 10 then
      match Memory.store k.tok Config.tokSize k.len [b] with
      | none => none
      | some tok => some ({ k with tok := tok, len := k.len + 1 }, none)
    else some (k.idle, none)
  else if b = comma then
    if k.len = 0 then some (k.idle, none)
    else
      match Memory.load k.tok Config.tokSize 1 (k.len - 1) with
      | none => none
      | some digits =>
        let value := if k.len = 1 then 0 else parseUint ovf digits
        some (k.idle, some (Memory.read k.tok 0, value))
  else some (k.idle, none)

/-- `CRX c, byte` (R141): `res = 0x100 | code` and the value when a command is emitted, else 0. -/
def execCrx (c : Byte) (b : Byte) (s : State) : Host.Outcome State Fault Refusal :=
  match s.transport? c.toNat with
  | none => .next (s.raise Op.crx.code .badInstance)
  | some t =>
    match t.codec.feed s.settings.parseOvf b with
    | none => .fault .arrayIndex
    | some (k, none) => .next ((s.setTransport c.toNat { t with codec := k }).respond .crx 0 [])
    | some (k, some (code, value)) =>
      .next ((s.setTransport c.toNat { t with codec := k }).respond .crx (0x0100 ||| byteImm code) [value])

/-- `tx_put(c, s)`: append to the transmit FIFO as FWRITE would (R150). -/
def Transport.txPut (t : Transport) (d : List Byte) : Option (Transport × Nat) :=
  match t.tx.put d with
  | none => none
  | some (q, n) => some ({ t with tx := q }, n)

/-- `try_eol(c)`: the terminator whole or not at all (R150). -/
def Transport.tryEol (t : Transport) (eol : List Byte) : Option (Transport × Bool) :=
  if eol.length ≤ t.tx.free then
    match t.txPut eol with
    | none => none
    | some (t', _) => some ({ t' with codec := { t'.codec with sol := true } }, true)
  else some (t, false)

/-- Append the bytes of one kind of output, after a terminator where the kind changes and the line is not
at its start (R148, R149, R152): `ui` is the kind, `d` the bytes. The flag says whether a terminator was
appended, the number how many bytes of `d` were. -/
def Transport.emit (t : Transport) (eol : List Byte) (ui : Bool) (d : List Byte) :
    Option (Transport × Bool × Nat) :=
  match (if t.codec.inUi ≠ ui ∧ t.codec.sol = false then t.tryEol eol else some (t, false)) with
  | none => none
  | some (t1, e) =>
    match { t1 with codec := { t1.codec with inUi := ui } }.txPut d with
    | none => none
    | some (t2, n) =>
      some ({ t2 with codec := { t2.codec with sol := if 0 < n then false else t2.codec.sol } }, e, n)

/-- `res` of CSEND and CUI: the bytes appended in bits 7:0, the terminator in bit 8 (R85). -/
def emitRes (e : Bool) (n : Nat) : Half := (if e then 0x0100 else 0) ||| BitVec.ofNat 16 n

/-- `CSEND c, code ; value` (R149). -/
def execCsend (c : Byte) (code : Byte) (value : Word) (s : State) : Host.Outcome State Fault Refusal :=
  match s.transport? c.toNat with
  | none => .next (s.raise Op.csend.code .badInstance)
  | some t =>
    if isLetter code then
      match t.emit s.settings.eol false (frame code value) with
      | none => .fault .arrayIndex
      | some (t', e, n) => .next ((s.setTransport c.toNat t').respond .csend (emitRes e n) [])
    else .next (s.raise Op.csend.code .badOperand)

/-- `CUI c, char` (R152): a character that is not printable is ignored. -/
def execCui (c : Byte) (ch : Byte) (s : State) : Host.Outcome State Fault Refusal :=
  match s.transport? c.toNat with
  | none => .next (s.raise Op.cui.code .badInstance)
  | some t =>
    if isPrintable ch then
      match t.emit s.settings.eol true [ch] with
      | none => .fault .arrayIndex
      | some (t', e, n) => .next ((s.setTransport c.toNat t').respond .cui (emitRes e n) [])
    else .next (s.respond .cui 0 [])

end Sys2Proof.Machine
end

