-- ==== Sys2Proof/Machine/Fifo.lean ====
section
/-! DEFINITION. The FIFO operations of 40_fifo.md: the instance check common to all six (R110), the FIFO
operation of Machine/Ops.lean, and the answer (30_encoding.md R85). -/
namespace Sys2Proof.Machine

/-- `FPUSH f, byte` (R111): `res = 1` accepted, 0 refused. -/
def execFpush (f : Byte) (b : Byte) (s : State) : Host.Outcome State Fault Refusal :=
  match s.fifo? f.toNat with
  | none => .next (s.raise Op.fpush.code .badInstance)
  | some q =>
    match q.push b with
    | none => .fault .arrayIndex
    | some (q', accepted) =>
      .next ((s.setFifo f.toNat q').respond .fpush (if accepted then 1 else 0) [])

/-- `FPOP f` (R112): `res = 0x100 | byte`, or 0 when the queue was empty. -/
def execFpop (f : Byte) (s : State) : Host.Outcome State Fault Refusal :=
  match s.fifo? f.toNat with
  | none => .next (s.raise Op.fpop.code .badInstance)
  | some q =>
    match q.pop with
    | none => .fault .arrayIndex
    | some (q', none) => .next ((s.setFifo f.toNat q').respond .fpop 0 [])
    | some (q', some b) => .next ((s.setFifo f.toNat q').respond .fpop (0x0100 ||| byteImm b) [])

/-- `FWRITE f, "bytes"` (R113). The number of payload words is checked by the decoder (R86); the instance
is checked before the payload (60_exceptions.md R268). -/
def execFwrite (f : Byte) (payload : List Word) (s : State) : Host.Outcome State Fault Refusal :=
  match s.fifo? f.toNat with
  | none => .next (s.raise Op.fwrite.code .badInstance)
  | some q =>
    if payload.all legalPayload then
      match q.put (payload.map payloadByte) with
      | none => .fault .arrayIndex
      | some (q', n) => .next ((s.setFifo f.toNat q').respond .fwrite (BitVec.ofNat 16 n) [])
    else .next (s.raise Op.fwrite.code .badOperand)

/-- `FREAD f, max_len` (R114): the count, and the bytes as result words in queue order. -/
def execFread (f : Byte) (maxLen : Half) (s : State) : Host.Outcome State Fault Refusal :=
  match s.fifo? f.toNat with
  | none => .next (s.raise Op.fread.code .badInstance)
  | some q =>
    match q.take maxLen.toNat with
    | none => .fault .arrayIndex
    | some (q', d) =>
      .next ((s.setFifo f.toNat q').respond .fread (BitVec.ofNat 16 d.length) (d.map byteWord))

/-- `FAVAIL f` (R115). -/
def execFavail (f : Byte) (s : State) : Host.Outcome State Fault Refusal :=
  match s.fifo? f.toNat with
  | none => .next (s.raise Op.favail.code .badInstance)
  | some q => .next (s.respond .favail (BitVec.ofNat 16 q.used) [])

/-- `FFREE f` (R116). -/
def execFfree (f : Byte) (s : State) : Host.Outcome State Fault Refusal :=
  match s.fifo? f.toNat with
  | none => .next (s.raise Op.ffree.code .badInstance)
  | some q => .next (s.respond .ffree (BitVec.ofNat 16 q.free) [])

end Sys2Proof.Machine
end

