-- ==== Sys2Proof/Machine/Pid.lean ====
section
/-! DEFINITION. The PID arithmetic, the cascade and the actuator stage of 43_pid.md. -/
namespace Sys2Proof.Machine

/-- What one pass through the datapath of R200 yields. -/
structure PidResult where
  /-- the new `prev_err` -/
  err : Int
  /-- the new `integ` -/
  integ : Int
  /-- `out`, the unrounded output as a Q value -/
  out : Int
  /-- `cmd`, the rounded command -/
  cmd : Int
  /-- one of the five narrowings changed its argument (R205) -/
  clipped : Bool
deriving DecidableEq, Repr

/-- The update datapath (R200): exact integers, narrowed only by `sat_W` and `sat16` (R192). -/
def pidCompute (g : Gains) (st : PidState) (target actual : Int) (dt : Nat) : PidResult :=
  let x := target - actual
  let e := satW x
  let d := e - s32 st.prevErr
  let x2 := rdiv (d * Config.timeHz) dt
  let rate := satW x2
  let inc := rdiv ((e + s32 st.prevErr) * dt) (2 * Config.timeHz)
  let x3 := s32 st.integ + inc
  let ig := satW x3
  let acc := s32 g.kp * e + s32 g.ki * ig + s32 g.kd * rate
  let x4 := rdiv acc (2 ^ 16)
  let out := satW x4
  let x5 := rdiv acc (2 ^ 32)
  let cmd := sat16 x5
  { err := e
    integ := ig
    out := out
    cmd := cmd
    clipped := e != x || rate != x2 || ig != x3 || out != x4 || cmd != x5 }

/-- The clamp of the actuator stage to `±ACT_MAX`, none when it is NONE (R215). -/
def actClamp (actMax : Option Nat) (cmd : Int) : Int :=
  match actMax with
  | none => cmd
  | some a => min (max cmd (-(a : Int))) a

/-- What `ACT[m]` becomes: 0 for a disabled motor, else the clamped command (R215). -/
def actValue (enabled : Bool) (actMax : Option Nat) (cmd : Int) : Half :=
  if enabled then BitVec.ofInt 16 (actClamp actMax cmd) else 0

/-- `actuator_stage(m, cmd)` for the motor of an axis (R215); axis 0 has none (R34). -/
def State.actuate (s : State) (p : Axis) (cmd : Int) : State :=
  match p with
  | .vehicle => s
  | .left => { s with actLeft := actValue (s.motorEn.getLsbD 0) s.settings.actMax cmd }
  | .right => { s with actRight := actValue (s.motorEn.getLsbD 1) s.settings.actMax cmd }

/-- The datapath on the registers of axis `p`. -/
def State.pidResult (s : State) (p : Axis) (target actual : Int) (dt : Nat) : PidResult :=
  pidCompute (s.gains.get p) (s.pid.get p) target actual dt

/-- `pid_update(p, target, actual, dt)` (R200), the state; what it returns is `State.pidResult`. -/
def State.pidUpdate (s : State) (p : Axis) (target actual : Int) (dt : Nat) : State :=
  let r := s.pidResult p target actual dt
  ({ s.flagStatus p.number r.clipped with
      pid := s.pid.set p { prevErr := u32 r.err, integ := u32 r.integ } }).actuate p r.cmd

/-- `PUPDATE p ; target, actual, dt` (R201). -/
def execPupdate (p : Byte) (target actual dt : Word) (s : State) : Host.Outcome State Fault Refusal :=
  match axisOf p with
  | none => .next (s.raise Op.pupdate.code .badInstance)
  | some x =>
    if dt = 0 then .next (s.raise Op.pupdate.code .pidDt0)
    else
      let r := s.pidResult x (s32 target) (s32 actual) dt.toNat
      .next ((s.pidUpdate x (s32 target) (s32 actual) dt.toNat).respond
        .pupdate (BitVec.ofInt 16 r.cmd) [u32 r.out])

/-- The outer output that the slip clamp sees (R213). -/
def outerValue (outerRound : Bool) (r : PidResult) : Int :=
  if outerRound then r.cmd * Config.qOne else r.out

/-- The slip clamp (R211, R212): the inner target, and whether a band edge was clipped. -/
def slipClamp (o va : Int) (sl : Nat) : Int × Bool :=
  if sl = 0 then (o, false)
  else
    let lo := satW (va - sl)
    let hi := satW (va + sl)
    (min (max o lo) hi, lo != va - sl || hi != va + sl)

/-- `CUPDATE ; vactual, lactual, ractual, dt` (R211): outer loop, slip clamp, left inner loop, right inner
loop. -/
def execCupdate (vactual lactual ractual dt : Word) (s : State) : Host.Outcome State Fault Refusal :=
  if dt = 0 then .next (s.raise Op.cupdate.code .pidDt0)
  else
    let r0 := s.pidResult .vehicle (s32 s.vtarget) (s32 vactual) dt.toNat
    let s0 := s.pidUpdate .vehicle (s32 s.vtarget) (s32 vactual) dt.toNat
    let band := slipClamp (outerValue s.settings.outerRound r0) (s32 vactual) s.slip.toNat
    let s1 := s0.flagStatus Axis.vehicle.number band.2
    let s2 := s1.pidUpdate .left band.1 (s32 lactual) dt.toNat
    let s3 := s2.pidUpdate .right band.1 (s32 ractual) dt.toNat
    .next (s3.respond .cupdate 0 [u32 band.1, sext32 s3.actLeft, sext32 s3.actRight])

end Sys2Proof.Machine
end

