-- ==== Sys2Proof/Machine/Qenc.lean ====
section
/-! DEFINITION. The quadrature encoder of 42_qenc.md: operation ESYNC. The edge events are in
Machine/Events.lean. -/
namespace Sys2Proof.Machine

/-- The branch of the speed policy that was taken, as it stands in `res[1:0]` (R173, R85). -/
inductive SyncBranch where
  | zero
  | fast
  | slow
deriving DecidableEq, Repr

/-- The coding of the branch in `res[1:0]` (R85). -/
def branchCode : SyncBranch → Half
  | .zero => 0
  | .fast => 1
  | .slow => 2

/-- `cpr = 4 * PPR[e]` (R175). -/
def countsPerRev (n : Enc) : Nat := 4 * n.ppr.toNat

/-- The speed policy (R173, R174) on the pulse count `c`, the last interval `li`, the sign `sg`, the time
`el` since the last sync and the counts per revolution `cpr`: the branch and the rate before `sat_W`, or
none where the formula would divide by zero (R177). -/
def syncRate (c li : Nat) (sg : Int) (el cpr : Nat) : Option (SyncBranch × Int) :=
  if c < 2 then some (.zero, 0)
  else if li < c then
    if cpr * el = 0 then none
    else some (.fast, rdiv (sg * (c * Config.timeHz * Config.qOne : Nat)) (cpr * el))
  else
    if cpr = 0 then none
    else some (.slow, rdiv (sg * (Config.timeHz * Config.qOne : Nat)) (cpr * li))

/-- The speed policy on the fields of an encoder at time `t` (R173). -/
def Enc.rate (n : Enc) (t : Word) : Option (SyncBranch × Int) :=
  syncRate n.count.toNat n.lastInterval.toNat n.sense.sign (t - n.tSync).toNat (countsPerRev n)

/-- The reset half of read-and-reset, and the new time stamp (R173); sense and `t_edge` are left. -/
def Enc.synced (n : Enc) (t : Word) : Enc := { n with count := 0, lastInterval := 0, tSync := t }

/-- `ESYNC e` (R173). -/
def execEsync (e : Byte) (s : State) : Host.Outcome State Fault Refusal :=
  match s.enc? e.toNat with
  | none => .next (s.raise Op.esync.code .badInstance)
  | some n =>
    match n.rate s.time with
    | none => .next (s.raise Op.esync.code .encDiv0)
    | some (branch, q) =>
      .next (((s.setEnc e.toNat (n.synced s.time)).flagStatus (encsatBit e.toNat) (satW q != q)).respond
        .esync (branchCode branch) [u32 (satW q)])

end Sys2Proof.Machine
end

