-- ==== Sys2Proof/Machine/Sched.lean ====
section
/-! DEFINITION. The tick timer and scheduler of 44_sched.md: operations TPOLL and TNEXT. The event MSTICK
is in Machine/Events.lean. -/
namespace Sys2Proof.Machine

/-- The tick backlog `u32(T - SCHED.last_ms)`: milliseconds not yet dispatched (10_state.md R36). -/
def State.backlog (s : State) : Nat := (s.time - s.sched.lastMs).toNat

/-- Advance the decade counters by one millisecond tick (R233): the counters, and how many levels the tick
reaches beyond the millisecond (0, 1, 2 or 3: none, T10, T100, T1S). -/
def Sched.tick (k : Sched) : Sched × Nat :=
  let k0 := { k with lastMs := k.lastMs + 1 }
  if k.d10 + 1 = 10 then
    if k.d100 + 1 = 10 then
      if k.d1000 + 1 = 10 then ({ k0 with d10 := 0, d100 := 0, d1000 := 0 }, 3)
      else ({ k0 with d10 := 0, d100 := 0, d1000 := k.d1000 + 1 }, 2)
    else ({ k0 with d10 := 0, d100 := k.d100 + 1 }, 1)
  else ({ k0 with d10 := k.d10 + 1 }, 0)

/-- The tick mask: MS, T10, T100, T1S in bits 0 to 3, each set with every faster one (R232, R233). -/
def tickMask (reach : Nat) : Half := BitVec.ofNat 16 (2 ^ (reach + 1) - 1)

/-- `TPOLL` (R233). -/
def execTpoll (s : State) : Host.Outcome State Fault Refusal :=
  if s.sched.phase ≠ .idle then .next (s.respond .tpoll 0x8000 [])
  else if s.time = s.sched.lastMs then .next (s.respond .tpoll 0x0000 [])
  else
    let r := s.sched.tick
    let m := tickMask r.2
    if m.getLsbD (levelBit s.settings.ctrlLevel) then
      .next ({ s with sched := { r.1 with phase := .sync } }.respond .tpoll (m ||| 0x0010) [])
    else .next ({ s with sched := r.1 }.respond .tpoll m [])

/-- The order of the control sequence (R234, R236). -/
def Phase.next : Phase → Phase
  | .idle => .idle
  | .sync => .pid
  | .pid => .rxdrain
  | .rxdrain => .txdrain
  | .txdrain => .idle

/-- `TNEXT` (R236). -/
def execTnext (s : State) : Host.Outcome State Fault Refusal :=
  let ph := s.sched.phase.next
  .next ({ s with sched := { s.sched with phase := ph } }.respond .tnext (phaseCode ph) [])

end Sys2Proof.Machine
end

