-- ==== Sys2Proof/Machine/System.lean ====
section
/-! DEFINITION. The register access operations of 45_system.md. -/
namespace Sys2Proof.Machine

/-- `CFGRD reg` (R251). -/
def execCfgrd (reg : Half) (s : State) : Host.Outcome State Fault Refusal :=
  match regOf s.encs.length reg with
  | none => .next (s.raise Op.cfgrd.code .badReg)
  | some r => .next (s.respond .cfgrd 0 [s.readReg r])

/-- `CFGWR reg ; value` (R252). -/
def execCfgwr (reg : Half) (value : Word) (s : State) : Host.Outcome State Fault Refusal :=
  match regOf s.encs.length reg with
  | none => .next (s.raise Op.cfgwr.code .badReg)
  | some r =>
    match s.writeReg r value with
    | .error c => .next (s.raise Op.cfgwr.code c)
    | .ok s' => .next (s'.respond .cfgwr 0 [])

end Sys2Proof.Machine
end

