-- ==== Sys2Proof/Machine/Dispatch.lean ====
section
/-! DEFINITION. One arm per operation of 30_encoding.md R84. -/
namespace Sys2Proof.Machine

def exec (i : Instr) (s : State) : Host.Outcome State Fault Refusal :=
  match i with
  | .cfgrd reg => Sys2Proof.Machine.execCfgrd reg s
  | .cfgwr reg value => Sys2Proof.Machine.execCfgwr reg value s
  | .fpush f b => Sys2Proof.Machine.execFpush f b s
  | .fpop f => Sys2Proof.Machine.execFpop f s
  | .fwrite f payload => Sys2Proof.Machine.execFwrite f payload s
  | .fread f maxLen => Sys2Proof.Machine.execFread f maxLen s
  | .favail f => Sys2Proof.Machine.execFavail f s
  | .ffree f => Sys2Proof.Machine.execFfree f s
  | .esync e => Sys2Proof.Machine.execEsync e s
  | .pupdate p target actual dt => Sys2Proof.Machine.execPupdate p target actual dt s
  | .cupdate vactual lactual ractual dt => Sys2Proof.Machine.execCupdate vactual lactual ractual dt s
  | .tpoll => Sys2Proof.Machine.execTpoll s
  | .tnext => Sys2Proof.Machine.execTnext s
  | .crx c b => Sys2Proof.Machine.execCrx c b s
  | .csend c code value => Sys2Proof.Machine.execCsend c code value s
  | .cui c ch => Sys2Proof.Machine.execCui c ch s

end Sys2Proof.Machine
end

