-- ==== Sys2Proof/Machine/Events.lean ====
section
/-! DEFINITION. The asynchronous events (60_exceptions.md R269): edges (42_qenc.md R171, R172), the
millisecond strobe (44_sched.md R231), reset (70_reset_and_hazards.md R290). An event is handled whole in
its own step and has no response (30_encoding.md R88). -/
namespace Sys2Proof.Machine

/-- What an edge of either channel records at time `t`, the sense apart (R171, R172). -/
def Enc.edge (n : Enc) (t : Word) (sense : Sense) : Enc :=
  { n with lastInterval := t - n.tEdge, tEdge := t, sense := sense, count := n.count + 1 }

/-- An edge of encoder `e` with the given sense. -/
def eventEdge (e : Nat) (sense : Sense) (s : State) : Host.Outcome State Fault Refusal :=
  match s.enc? e with
  | none => .fault .noSuchEncoder
  | some n => .next { s.setEnc e (n.edge s.time sense) with response := none }

/-- Event `EDGEA e (a, b)` (R171). -/
def eventEdgeA (e : Nat) (a b : Bool) (s : State) : Host.Outcome State Fault Refusal :=
  eventEdge e (senseA a b) s

/-- Event `EDGEB e (a, b)` (R172). -/
def eventEdgeB (e : Nat) (a b : Bool) (s : State) : Host.Outcome State Fault Refusal :=
  eventEdge e (senseB a b) s

/-- Event `MSTICK` (R231). -/
def eventMstick (s : State) : State := { s with time := s.time + 1, response := none }

/-- A FIFO after the reset event: its size is a parameter and stays (R290, R291). -/
def Fifo.cleared (q : Fifo) : Fifo := { q with buf := [], start := 0, stop := 0 }

/-- Event `RESET` (R290): every state element at its reset value. The parameters are fixed before reset and
stay (R291); the steps still to come are the environment's and stay (assumption log 6). -/
def eventReset (s : State) : State where
  transports := s.transports.map fun t =>
    { rx := t.rx.cleared
      tx := t.tx.cleared
      codec := { tok := [], len := 0, inUi := false, sol := true } }
  time := 0
  encs := s.encs.map fun _ =>
    { count := 0, lastInterval := 0, tEdge := 0, tSync := 0, sense := .plus, ppr := 0 }
  pid :=
    { vehicle := { prevErr := 0, integ := 0 }
      left := { prevErr := 0, integ := 0 }
      right := { prevErr := 0, integ := 0 } }
  gains :=
    { vehicle := { kp := 0, ki := 0, kd := 0 }
      left := { kp := 0, ki := 0, kd := 0 }
      right := { kp := 0, ki := 0, kd := 0 } }
  actLeft := 0
  actRight := 0
  sched := { lastMs := 0, d10 := 0, d100 := 0, d1000 := 0, phase := .idle }
  faultReg := 0
  statusReg := 0
  vtarget := 0
  slip := 0
  motorEn := 0
  settings := s.settings
  inputs := s.inputs
  response := none

end Sys2Proof.Machine
end

