-- ==== Sys2Proof/Machine/Port.lean ====
section
/-! DEFINITION. What one step of an agent does (00_scope.md R9): a command packet of HOST is decoded and
run or answered with a fault; an event is handled. -/
namespace Sys2Proof.Machine

/-- One command packet (30_encoding.md R80): the operation it spells, or the fault of a packet that spells
none, with the echoed `op` byte of its header (R82, 60_exceptions.md R262). -/
def runCommand (p : Packet) (s : State) : Host.Outcome State Fault Refusal :=
  match decode p with
  | .instr i => exec i s
  | .reject r => .next (s.raise (opField p.header) (rejectFault r))

/-- One step of an agent. -/
def runInput (i : Input) (s : State) : Host.Outcome State Fault Refusal :=
  match i with
  | .command p => runCommand p s
  | .edgeA e a b => eventEdgeA e a b s
  | .edgeB e a b => eventEdgeB e a b s
  | .mstick => .next (eventMstick s)
  | .reset => .next (eventReset s)

/-- Put a step in front of the steps still to come. -/
def State.offer (s : State) (i : Input) : State := { s with inputs := i :: s.inputs }

end Sys2Proof.Machine
end

