-- ==== Sys2Proof/Machine/Step.lean ====
section
/-! DEFINITION. The step: the next input is taken and run whole (00_scope.md R9). With no input left no
agent acts and nothing changes; CCC has no halt and no wait (R10, R11, assumption log 4). -/
namespace Sys2Proof.Machine

def step (s : State) : Host.Outcome State Fault Refusal :=
  match s.inputs with
  | [] => .next s
  | i :: rest => runInput i { s with inputs := rest }

/-- CCC fetches nothing (10_state.md R21): its next instruction is the next command HOST issues. The command
whose bits are `w` is put in front of the inputs, so that the very next step runs it (assumption log 10). -/
def State.withFetchWord (s : State) (nbits w : Nat) : State :=
  s.offer (.command (packetOfBits nbits w))

end Sys2Proof.Machine
end

