-- ==== Sys2Proof/Machine/Pseudo.lean ====
section
/-! DEFINITION. The pseudo-operations of 30_encoding.md R91: sequences of operations that HOST issues. None
is an instruction, none is atomic; events may fall between the parts. -/
namespace Sys2Proof.Machine

/-- The operations of a list, one after another; a stop ends the sequence (20_memory.md R68). -/
def execAll : List Instr → State → Host.Outcome State Fault Refusal
  | [], s => .next s
  | i :: is, s =>
    match exec i s with
    | .next s' => execAll is s'
    | .fault r => .fault r
    | .refused r => .refused r

/-- The responses of a list of operations, in order, and the state after them; none where one stops. -/
def execTrace : List Instr → State → Option (List Response × State)
  | [], s => some ([], s)
  | i :: is, s =>
    match exec i s with
    | .next s' =>
      match execTrace is s' with
      | some (rs, u) => some (s'.response.toList ++ rs, u)
      | none => none
    | .fault _ => none
    | .refused _ => none

/-- `CUIPRINT c, "s"` (R91). -/
def cuiPrint (c : Byte) (text : List Byte) : List Instr := text.map fun b => .cui c b

/-- The code `p` of `CCMDPRINT` (R91, R153). -/
def letterP : Byte := 0x70

/-- `CCMDPRINT c, "s"` (R91, R153). -/
def ccmdPrint (c : Byte) (text : List Byte) : List Instr :=
  (text.map fun b => Instr.csend c letterP (byteWord b)) ++ [.csend c letterP 0]

/-- `FFILL f, "s"` (R91). -/
def ffill (f : Byte) (text : List Byte) : List Instr := text.map fun b => .fpush f b

/-- The command a CRX response carries, if any (R85). -/
def emittedCommand (r : Response) : List (Byte × Word) :=
  if (responseRes r).getLsbD 8 then
    match r.results with
    | [value] => [(byteField r.header, value)]
    | _ => []
  else []

/-- `CRXDRAIN c` (R91): pop the receive FIFO `2c` and feed the parser until the FIFO is empty, collecting the
commands handed to the Responder. At most `k` bytes are taken; none where the bound ends the loop or an
operation stops. DESIGN CHOICE, safe (assumption log 19): from `c = 128` on, where `2c` does not fit the
`inst` field, R91 says nothing and there is no such sequence: none. DESIGN CHOICE, unsafe (assumption log 15):
no event falls between the parts. -/
def crxDrain (c : Byte) : Nat → State → Option (List (Byte × Word) × State)
  | 0, _ => none
  | k + 1, s =>
    if 128 ≤ c.toNat then none
    else match exec (.fpop (2 * c)) s with
    | .next s1 =>
      match s1.response with
      | some r =>
        if (responseRes r).getLsbD 8 then
          match exec (.crx c (byteField r.header)) s1 with
          | .next s2 =>
            match crxDrain c k s2 with
            | some (cmds, u) => some ((s2.response.toList.flatMap emittedCommand) ++ cmds, u)
            | none => none
          | .fault _ => none
          | .refused _ => none
        else some ([], s1)
      | none => none
    | .fault _ => none
    | .refused _ => none

end Sys2Proof.Machine
end

