-- ==== Sys2Proof/Safety.lean ====
section
/-! DEFINITION. What a legal state is, and the terms in which statements speak of runs: the invariant every
step keeps, the reachable states, the fault an operation answered with. -/
namespace Sys2Proof

/-- The number of operand words of an operation (R86). -/
def Instr.operandWords : Instr → Nat
  | .cfgrd _ => 0
  | .cfgwr _ _ => 1
  | .fpush _ _ => 0
  | .fpop _ => 0
  | .fwrite _ payload => payload.length
  | .fread _ _ => 0
  | .favail _ => 0
  | .ffree _ => 0
  | .esync _ => 0
  | .pupdate _ _ _ _ => 3
  | .cupdate _ _ _ _ => 4
  | .tpoll => 0
  | .tnext => 0
  | .crx _ _ => 0
  | .csend _ _ _ => 1
  | .cui _ _ => 0

end Sys2Proof

namespace Sys2Proof.Machine

/-- A FIFO within its rules (R6, R23, R24): a legal size, cursors inside the array, the array in its
canonical form and inside `0 .. N-1`. -/
def Fifo.wf (q : Fifo) : Bool :=
  legalFifoSize q.size && decide (q.start < q.size) && decide (q.stop < q.size)
    && Memory.wf q.buf && Memory.within q.buf q.size

/-- The byte at index `i` of a token is of the class R37 gives it: a letter at index 0, digits after it. -/
def legalTokByte (i : Nat) (b : Byte) : Bool := if i = 0 then isLetter b else isDigit b

/-- A CODEC within its rules (R37): at most 11 bytes, the token a letter and digits, the buffer in its
canonical form and inside `0 .. 10`. -/
def Codec.wf (k : Codec) : Bool :=
  decide (k.len ≤ Config.tokSize) && Memory.wf k.tok && Memory.within k.tok Config.tokSize
    && (List.range k.len).all fun i => legalTokByte i (Memory.read k.tok i)

/-- A transport within its rules. -/
def Transport.wf (t : Transport) : Bool := t.rx.wf && t.tx.wf && t.codec.wf

/-- A terminator comes first: the kind of output changes, the line is not at its start, and the terminator
fits whole (R148 to R152). -/
def Transport.eolFirst (t : Transport) (eol : List Byte) (ui : Bool) : Bool :=
  decide (t.codec.inUi ≠ ui ∧ t.codec.sol = false ∧ eol.length ≤ t.tx.free)

/-- The room left for the bytes after the terminator, if any. -/
def Transport.roomAfter (t : Transport) (eol : List Byte) (ui : Bool) : Nat :=
  if t.eolFirst eol ui then t.tx.free - eol.length else t.tx.free

/-- The decade counters are in 0..9 (R35). -/
def Sched.wf (k : Sched) : Bool := decide (k.d10 < 10 ∧ k.d100 < 10 ∧ k.d1000 < 10)

/-- The bits FAULT implements: 6:1 (R46). -/
def faultBits : Word := 0x0000007E

/-- The bits STATUS implements on a machine with `nenc` encoders: 2:0 and 8 .. 8+nenc-1 (R47). -/
def statusBits (nenc : Nat) : Word := BitVec.ofNat 32 (7 + 256 * (2 ^ nenc - 1))

/-- An actuator output is in `±ACT_MAX` (R215). -/
def legalAct (actMax : Option Nat) (a : Half) : Bool :=
  match actMax with
  | none => true
  | some m => decide (-(m : Int) ≤ a.toInt ∧ a.toInt ≤ m)

/-- An input that can occur: an edge is of an encoder that exists (R170). -/
def legalInput (nenc : Nat) : Input → Bool
  | .command _ => true
  | .edgeA e _ _ => decide (e < nenc)
  | .edgeB e _ _ => decide (e < nenc)
  | .mstick => true
  | .reset => true

/-- The invariant of the machine. -/
structure State.Inv (s : State) : Prop where
  /-- the parameters are legal (R6) -/
  params : s.params.wf = true
  /-- every FIFO and CODEC is within its rules -/
  transports : ∀ t ∈ s.transports, t.wf = true
  /-- the decade counters are in range (R35) -/
  sched : s.sched.wf = true
  /-- FAULT has no bit it does not implement (R46) -/
  faultReg : s.faultReg &&& ~~~ faultBits = 0
  /-- STATUS has no bit it does not implement (R47) -/
  statusReg : s.statusReg &&& ~~~ statusBits s.encs.length = 0
  /-- the actuator outputs are in their range (R215) -/
  actLeft : legalAct s.settings.actMax s.actLeft = true
  actRight : legalAct s.settings.actMax s.actRight = true
  /-- the steps still to come can occur -/
  inputs : ∀ i ∈ s.inputs, legalInput s.encs.length i = true

/-- A state a run reaches from the state after reset of a machine with legal parameters, with any legal
steps to come (00_scope.md R10). -/
inductive Reachable : State → Prop
  | start (p : Params) (inputs : List Input) (hp : p.wf = true)
      (hi : ∀ i ∈ inputs, legalInput p.nenc i = true) :
      Reachable { State.build p with inputs := inputs }
  | step (s t : State) (h : Reachable s) (hs : Machine.step s = .next t) : Reachable t

/-! ### Terms of the statements -/

/-- `CODEC[c]`; none from `NT` on (R25). -/
def State.codec? (s : State) (c : Nat) : Option Codec := (s.transport? c).map fun t => t.codec

/-- Between `s` and `t` no FIFO instance outside `fs` changed, no CODEC instance outside `cs`, and no other
field of the state but the response: no register, no other unit, no parameter (40_fifo.md R110). -/
structure State.QueueFrame (s t : State) (fs cs : List Nat) : Prop where
  rest : t = { s with transports := t.transports, response := t.response }
  fifos : ∀ g, g ∉ fs → t.fifo? g = s.fifo? g
  codecs : ∀ c, c ∉ cs → t.codec? c = s.codec? c

/-- The register numbers of the map of R45 on a machine with `nenc` encoders. -/
def registerNumbers (nenc : Nat) : List Nat :=
  [0x0001, 0x0002, 0x0010, 0x0011, 0x0012]
    ++ (List.range nenc).map (fun e => 0x0100 + 0x10 * e)
    ++ (List.range 3).flatMap (fun p => [0x0200 + 0x10 * p, 0x0201 + 0x10 * p, 0x0202 + 0x10 * p])

/-- The transmit path of CSEND and CUI (R148 to R150, R152) took `s` to `t` on CODEC instance `c`, whose
transmit FIFO was `q` and whose flags stood in `k`: `text` in mode `ui`, after a terminator where the mode
changed, the line was not at its start, and the terminator fits whole. -/
structure State.Transmitted (s t : State) (c : Nat) (q : Fifo) (k : Codec) (op : Op) (ui : Bool)
    (text out : List Byte) (eol : Bool) (n : Nat) : Prop where
  /-- a terminator goes first exactly in this case (R148, R150) -/
  eolFirst : eol = decide (k.inUi ≠ ui ∧ k.sol = false ∧ s.settings.eol.length ≤ q.free)
  /-- the text fills the room that is left, the rest is dropped (R150) -/
  count : n = min text.length (q.free - (if eol then s.settings.eol.length else 0))
  /-- what is appended -/
  bytes : out = (if eol then s.settings.eol else []) ++ text.take n
  /-- it is appended to the transmit FIFO, which keeps its size and its `start` -/
  queue : ∃ q', t.fifo? (2 * c + 1) = some q' ∧ q'.size = q.size ∧ q'.start = q.start
    ∧ q'.stop = (q.stop + out.length) % q.size ∧ q'.queue = q.queue ++ out
  /-- the flags (R38); the receive side is not touched -/
  flags : t.codec? c = some { k with inUi := ui, sol := if 0 < n then false else (eol || k.sol) }
  /-- the answer (R85) -/
  answer : t.response
    = some ⟨respHeader op.code 0 ((if eol then 0x0100 else 0) ||| BitVec.ofNat 16 n), []⟩
  /-- nothing else changes -/
  frame : s.QueueFrame t [2 * c + 1] [c]
  /-- the bytes stored to are those of the slots `end .. end + |out| - 1` modulo the size (R61) -/
  stored : ∀ j, j < out.length → t.fifoByte (2 * c + 1) ((q.stop + j) % q.size) = out.getD j 0
  kept : ∀ g a, (g ≠ 2 * c + 1 ∨ ∀ j, j < out.length → a ≠ (q.stop + j) % q.size) →
    t.fifoByte g a = s.fifoByte g a
  keptTok : ∀ d a, t.tokByte d a = s.tokByte d a

/-- The states show the same to every operation: they differ at most in where the bytes of a queue stand in
its array, in the bytes outside the occupied regions, and in token bytes from `len` on (R22, R23, R37). -/
structure State.SameView (s t : State) : Prop where
  rest : t = { s with transports := t.transports }
  fifos : ∀ f, (s.fifo? f).map (fun q => (q.size, q.queue)) = (t.fifo? f).map (fun q => (q.size, q.queue))
  codecs : ∀ c, (s.codec? c).map (fun k => (k.token, k.inUi, k.sol))
    = (t.codec? c).map (fun k => (k.token, k.inUi, k.sol))

/-- The state with another scheduler phase. -/
def State.withPhase (s : State) (ph : Phase) : State := { s with sched := { s.sched with phase := ph } }

end Sys2Proof.Machine
end

