-- ==== Sys2Proof/Certificates/Slice0/Obligations.lean ====
section
/-! DEFINITION. The statements about the model, for the provers. Numbers in formulas are the spec's own, so
that a wrong constant of the model makes a statement false. -/
section
open Sys2Proof Sys2Proof.Machine

/-! ### Encoding -/

/-- 30_encoding.md R81, R83, R84, R86: the encoder's packet of any instruction decodes to it. -/
def Obligations.DecodeOfEncode : Prop :=
  ∀ i : Instr, i.wf = true → decode (encode i) = .instr i

/-- 30_encoding.md R84, R87: a packet that decodes is the one packet of its instruction, so that every
must-be-zero bit and the number of words are checked. -/
def Obligations.EncodeOfDecode : Prop :=
  ∀ (p : Packet) (i : Instr), decode p = .instr i → i.wf = true ∧ encode i = p

/-- 30_encoding.md R87, 60_exceptions.md R262: a header that matches no row raises IllegalOp whatever
follows it, with the echoed `op`; this includes every opcode not in the table. -/
def Obligations.IllegalHeaderRaisesIllegalOp : Prop :=
  ∀ (s : State) (p : Packet),
    ((∀ r ∈ rows, p.header &&& r.mask ≠ r.pat) →
      runCommand p s = .next (s.raise (p.header.extractLsb' 24 8) .illegalOp)) ∧
    (p.header.extractLsb' 24 8 ∉ ([0x01, 0x02, 0x10, 0x11, 0x12, 0x13, 0x14, 0x15, 0x20, 0x30, 0x31,
        0x40, 0x41, 0x50, 0x51, 0x52] : List Byte) →
      runCommand p s = .next (s.raise (p.header.extractLsb' 24 8) .illegalOp))

/-- 30_encoding.md R86: the number of operand words of every operation, and BadOperand for a packet with
another number, in every state (60_exceptions.md R268: before any other check but the header's). -/
def Obligations.WrongWordCountRaisesBadOperand : Prop :=
  ∀ (s : State) (i : Instr) (ws : List Word), i.wf = true →
    (encode i).operands.length = i.operandWords ∧
    (ws.length ≠ i.operandWords →
      runCommand ⟨(encode i).header, ws⟩ s = .next (s.raise i.op.code .badOperand))

/-- The words of a few operations, written out from 30_encoding.md R81 and R84. -/
def Obligations.SampleWordsDecode : Prop :=
  decode ⟨0x01000012, []⟩ = .instr (.cfgrd 0x0012) ∧
  decode ⟨0x02000210, [0x00020000]⟩ = .instr (.cfgwr 0x0210 0x00020000) ∧
  decode ⟨0x10050041, []⟩ = .instr (.fpush 5 0x41) ∧
  decode ⟨0x12010002, [0x48, 0x69]⟩ = .instr (.fwrite 1 [0x48, 0x69]) ∧
  decode ⟨0x20030000, []⟩ = .instr (.esync 3) ∧
  decode ⟨0x30010000, [5, 3, 10]⟩ = .instr (.pupdate 1 5 3 10) ∧
  decode ⟨0x31000000, [1, 2, 3, 4]⟩ = .instr (.cupdate 1 2 3 4) ∧
  decode ⟨0x40000000, []⟩ = .instr .tpoll ∧
  decode ⟨0x5100004D, [5]⟩ = .instr (.csend 0 0x4D 5) ∧
  decode ⟨0x00000000, []⟩ = .reject .illegalOp ∧
  decode ⟨0x11000001, []⟩ = .reject .illegalOp ∧
  decode ⟨0x31010000, [1, 2, 3, 4]⟩ = .reject .illegalOp ∧
  decode ⟨0x02000010, []⟩ = .reject .wordCount

/-! ### The step -/

/-- 00_scope.md R9, 30_encoding.md R80: the next step of a command runs the operation its packet decodes to,
once, on the state with that command taken; a packet that decodes to none is answered in its own step. That
nothing happens when no step is to come, and that the command of `withFetchWord` is the next one, are the
model's form of its inputs (assumption log 2, 4, 10). -/
def Obligations.StepRunsTheDecodedOperation : Prop :=
  ∀ s : State,
    (s.inputs = [] → step s = .next s) ∧
    (∀ p rest i, s.inputs = .command p :: rest → decode p = .instr i →
      step s = exec i { s with inputs := rest }) ∧
    (∀ p rest r, s.inputs = .command p :: rest → decode p = .reject r →
      step s = .next (({ s with inputs := rest } : State).raise (opField p.header) (rejectFault r))) ∧
    (∀ nbits w i, decodeTableWord nbits w = some i → step (s.withFetchWord nbits w) = exec i s)

/-! ### Faults -/

/-- 60_exceptions.md R261: raising the fault of code `n` sets bit `n` of FAULT, answers
`{op, status = n, res = 0}` with no result words, and changes nothing else. -/
def Obligations.RaiseSetsItsBitAndAnswers : Prop :=
  ∀ (s : State) (op : Byte) (c : FaultCode) (n : Nat),
    (c, n) ∈ ([(.illegalOp, 1), (.badInstance, 2), (.badReg, 3), (.badOperand, 4), (.encDiv0, 5),
      (.pidDt0, 6)] : List (FaultCode × Nat)) →
    s.raise op c =
      { s with
        faultReg := s.faultReg ||| ((1 : Word) <<< n)
        response := some ⟨op ++ BitVec.ofNat 8 n ++ (0 : Half), []⟩ }

/-- 60_exceptions.md R261, R268, 30_encoding.md R82: every answer echoes the opcode, and either its status
is 0 and FAULT is unchanged, or the operation raised one fault and changed nothing besides. -/
def Obligations.AnswerIsDoneOrOneFault : Prop :=
  ∀ (i : Instr) (s t : State), exec i s = .next t →
    ∃ r, t.response = some r ∧ opField r.header = i.op.code ∧
      ((responseStatus r = 0 ∧ t.faultReg = s.faultReg) ∨ ∃ c, t = s.raise i.op.code c)

/-- 10_state.md R46, R47: no step but RESET clears a bit of FAULT or STATUS. -/
def Obligations.StickyBitsStay : Prop :=
  ∀ s t : State, s.inputs.head? ≠ some .reset → step s = .next t →
    s.faultReg &&& t.faultReg = s.faultReg ∧ s.statusReg &&& t.statusReg = s.statusReg

/-! ### Registers -/

/-- 45_system.md R251, 10_state.md R45: CFGRD of every register of the map, and BadReg for every other
number. Nothing but the response changes. -/
def Obligations.CfgrdReadsTheMap : Prop :=
  ∀ (s : State) (reg : Half), s.encs.length ≤ 16 →
    decode ⟨(0x01 : Byte) ++ (0 : Byte) ++ reg, []⟩ = .instr (.cfgrd reg) ∧
    (reg.toNat ∉ registerNumbers s.encs.length →
      exec (.cfgrd reg) s = .next (s.raise 0x01 .badReg)) ∧
    exec (.cfgrd 0x0001) s = .next (s.respond .cfgrd 0 [s.faultReg]) ∧
    exec (.cfgrd 0x0002) s = .next (s.respond .cfgrd 0 [s.statusReg]) ∧
    exec (.cfgrd 0x0010) s = .next (s.respond .cfgrd 0 [s.vtarget]) ∧
    exec (.cfgrd 0x0011) s = .next (s.respond .cfgrd 0 [s.slip.setWidth 32]) ∧
    exec (.cfgrd 0x0012) s = .next (s.respond .cfgrd 0 [s.motorEn.setWidth 32]) ∧
    (∀ e n, s.enc? e = some n → reg.toNat = 0x0100 + 0x10 * e →
      exec (.cfgrd reg) s = .next (s.respond .cfgrd 0 [n.ppr.setWidth 32])) ∧
    (∀ p : Axis,
      (reg.toNat = 0x0200 + 0x10 * p.number →
        exec (.cfgrd reg) s = .next (s.respond .cfgrd 0 [(s.gains.get p).kp])) ∧
      (reg.toNat = 0x0201 + 0x10 * p.number →
        exec (.cfgrd reg) s = .next (s.respond .cfgrd 0 [(s.gains.get p).ki])) ∧
      (reg.toNat = 0x0202 + 0x10 * p.number →
        exec (.cfgrd reg) s = .next (s.respond .cfgrd 0 [(s.gains.get p).kd])))

/-- 45_system.md R252: CFGWR of every register of the map, the words it refuses, and BadReg for every
number that is undefined or read-only. Nothing but the register and the response changes. -/
def Obligations.CfgwrWritesTheMap : Prop :=
  ∀ (s : State) (reg : Half) (v : Word), s.encs.length ≤ 16 →
    decode ⟨(0x02 : Byte) ++ (0 : Byte) ++ reg, [v]⟩ = .instr (.cfgwr reg v) ∧
    (reg.toNat ∉ registerNumbers s.encs.length ∨ reg.toNat = 0x0001 ∨ reg.toNat = 0x0002 →
      exec (.cfgwr reg v) s = .next (s.raise 0x02 .badReg)) ∧
    exec (.cfgwr 0x0010 v) s = .next (({ s with vtarget := v } : State).respond .cfgwr 0 []) ∧
    (v.getLsbD 31 = true → exec (.cfgwr 0x0011 v) s = .next (s.raise 0x02 .badOperand)) ∧
    (v.getLsbD 31 = false → exec (.cfgwr 0x0011 v) s =
      .next (({ s with slip := v.extractLsb' 0 31 } : State).respond .cfgwr 0 [])) ∧
    (v.extractLsb' 2 30 ≠ 0 → exec (.cfgwr 0x0012 v) s = .next (s.raise 0x02 .badOperand)) ∧
    (v.extractLsb' 2 30 = 0 → exec (.cfgwr 0x0012 v) s =
      .next (({ s with motorEn := v.extractLsb' 0 2 } : State).respond .cfgwr 0 [])) ∧
    (∀ e n, s.enc? e = some n → reg.toNat = 0x0100 + 0x10 * e →
      (v.extractLsb' 16 16 ≠ 0 → exec (.cfgwr reg v) s = .next (s.raise 0x02 .badOperand)) ∧
      (v.extractLsb' 16 16 = 0 → exec (.cfgwr reg v) s =
        .next (({ s with encs := s.encs.set e { n with ppr := v.extractLsb' 0 16 } } : State).respond
          .cfgwr 0 []))) ∧
    (∀ p : Axis,
      (reg.toNat = 0x0200 + 0x10 * p.number → exec (.cfgwr reg v) s =
        .next (({ s with gains := s.gains.set p { s.gains.get p with kp := v } } : State).respond
          .cfgwr 0 [])) ∧
      (reg.toNat = 0x0201 + 0x10 * p.number → exec (.cfgwr reg v) s =
        .next (({ s with gains := s.gains.set p { s.gains.get p with ki := v } } : State).respond
          .cfgwr 0 [])) ∧
      (reg.toNat = 0x0202 + 0x10 * p.number → exec (.cfgwr reg v) s =
        .next (({ s with gains := s.gains.set p { s.gains.get p with kd := v } } : State).respond
          .cfgwr 0 [])))

/-- 45_system.md R253, 10_state.md R45: a CFGWR that is answered with status 0 is seen by the next CFGRD of
the same register, which gives the word written. -/
def Obligations.ReadAfterWriteOfRegister : Prop :=
  ∀ (s t : State) (reg : Half) (v : Word), exec (.cfgwr reg v) s = .next t →
    t.response = some ⟨(0x02 : Byte) ++ (0 : Byte) ++ (0 : Half), []⟩ →
    exec (.cfgrd reg) t = .next (t.respond .cfgrd 0 [v])

/-! ### FIFO -/

/-- 40_fifo.md R111, with its frame (R110). -/
def Obligations.FpushPutsOneByte : Prop :=
  ∀ (s : State) (f b : Byte), s.Inv →
    decode ⟨(0x10 : Byte) ++ f ++ ((0 : Byte) ++ b), []⟩ = .instr (.fpush f b) ∧
    (s.nfifo ≤ f.toNat → exec (.fpush f b) s = .next (s.raise 0x10 .badInstance)) ∧
    (∀ q, s.fifo? f.toNat = some q → (q.stop + 1) % q.size = q.start →
      exec (.fpush f b) s = .next (s.respond .fpush 0 [])) ∧
    (∀ q, s.fifo? f.toNat = some q → (q.stop + 1) % q.size ≠ q.start →
      ∃ t q', exec (.fpush f b) s = .next t ∧ t.fifo? f.toNat = some q' ∧
        q' = { q with buf := q'.buf, stop := (q.stop + 1) % q.size } ∧
        q'.queue = q.queue ++ [b] ∧
        t.response = some ⟨respHeader 0x10 0 1, []⟩ ∧
        s.QueueFrame t [f.toNat] [] ∧
        t.fifoByte f.toNat q.stop = b ∧
        (∀ g a, (g ≠ f.toNat ∨ a ≠ q.stop) → t.fifoByte g a = s.fifoByte g a) ∧
        (∀ c a, t.tokByte c a = s.tokByte c a))

/-- 40_fifo.md R112, with its frame (R110); the slot is not erased (20_memory.md R66). -/
def Obligations.FpopTakesOneByte : Prop :=
  ∀ (s : State) (f : Byte), s.Inv →
    decode ⟨(0x11 : Byte) ++ f ++ (0 : Half), []⟩ = .instr (.fpop f) ∧
    (s.nfifo ≤ f.toNat → exec (.fpop f) s = .next (s.raise 0x11 .badInstance)) ∧
    (∀ q, s.fifo? f.toNat = some q → q.start = q.stop →
      exec (.fpop f) s = .next (s.respond .fpop 0 [])) ∧
    (∀ q, s.fifo? f.toNat = some q → q.start ≠ q.stop →
      ∃ t, exec (.fpop f) s = .next t ∧
        t.fifo? f.toNat = some { q with start := (q.start + 1) % q.size } ∧
        q.queue = s.fifoByte f.toNat q.start :: Fifo.queue { q with start := (q.start + 1) % q.size } ∧
        t.response = some ⟨respHeader 0x11 0 ((1 : Byte) ++ s.fifoByte f.toNat q.start), []⟩ ∧
        s.QueueFrame t [f.toNat] [] ∧
        (∀ g a, t.fifoByte g a = s.fifoByte g a) ∧
        (∀ c a, t.tokByte c a = s.tokByte c a))

/-- 40_fifo.md R113, with its frame (R110): the first `min(len, free)` bytes go to the slots
`(end + i) mod N`, the rest is dropped. -/
def Obligations.FwritePutsWhatFits : Prop :=
  ∀ (s : State) (f : Byte) (len : Half) (payload : List Word), s.Inv →
    (payload.length = len.toNat →
      decode ⟨(0x12 : Byte) ++ f ++ len, payload⟩ = .instr (.fwrite f payload)) ∧
    (payload.length ≠ len.toNat →
      runCommand ⟨(0x12 : Byte) ++ f ++ len, payload⟩ s = .next (s.raise 0x12 .badOperand)) ∧
    (s.nfifo ≤ f.toNat → exec (.fwrite f payload) s = .next (s.raise 0x12 .badInstance)) ∧
    (∀ q, s.fifo? f.toNat = some q → (∃ w ∈ payload, w.extractLsb' 8 24 ≠ 0) →
      exec (.fwrite f payload) s = .next (s.raise 0x12 .badOperand)) ∧
    (∀ q n, s.fifo? f.toNat = some q → (∀ w ∈ payload, w.extractLsb' 8 24 = 0) →
      n = min payload.length (q.size - 1 - q.used) →
      ∃ t q', exec (.fwrite f payload) s = .next t ∧ t.fifo? f.toNat = some q' ∧
        q' = { q with buf := q'.buf, stop := (q.stop + n) % q.size } ∧
        q'.queue = q.queue ++ (payload.take n).map (fun w => w.extractLsb' 0 8) ∧
        t.response = some ⟨respHeader 0x12 0 (BitVec.ofNat 16 n), []⟩ ∧
        s.QueueFrame t [f.toNat] [] ∧
        (∀ i, i < n → t.fifoByte f.toNat ((q.stop + i) % q.size) = (payload.getD i 0).extractLsb' 0 8) ∧
        (∀ g a, (g ≠ f.toNat ∨ ∀ i, i < n → a ≠ (q.stop + i) % q.size) →
          t.fifoByte g a = s.fifoByte g a) ∧
        (∀ c a, t.tokByte c a = s.tokByte c a))

/-- 40_fifo.md R114, with its frame (R110): the first `min(max_len, used)` bytes are taken and answered one
to a word, in queue order. -/
def Obligations.FreadTakesUpToMaxLen : Prop :=
  ∀ (s : State) (f : Byte) (maxLen : Half), s.Inv →
    decode ⟨(0x13 : Byte) ++ f ++ maxLen, []⟩ = .instr (.fread f maxLen) ∧
    (s.nfifo ≤ f.toNat → exec (.fread f maxLen) s = .next (s.raise 0x13 .badInstance)) ∧
    (∀ q n, s.fifo? f.toNat = some q → n = min maxLen.toNat q.used →
      ∃ t, exec (.fread f maxLen) s = .next t ∧
        t.fifo? f.toNat = some { q with start := (q.start + n) % q.size } ∧
        Fifo.queue { q with start := (q.start + n) % q.size } = q.queue.drop n ∧
        t.response = some ⟨respHeader 0x13 0 (BitVec.ofNat 16 n),
          (List.range n).map (fun i => (0 : BitVec 24) ++ s.fifoByte f.toNat ((q.start + i) % q.size))⟩ ∧
        q.queue.take n = (List.range n).map (fun i => s.fifoByte f.toNat ((q.start + i) % q.size)) ∧
        s.QueueFrame t [f.toNat] [] ∧
        (∀ g a, t.fifoByte g a = s.fifoByte g a) ∧
        (∀ c a, t.tokByte c a = s.tokByte c a))

/-- 40_fifo.md R115, R116: the two counts, from the cursors, and nothing but the response changes. The
difference of the cursors is taken in the integers, where `mod` of the positive size is not negative. -/
def Obligations.CountsAreUsedAndFree : Prop :=
  ∀ (s : State) (f : Byte), s.Inv →
    decode ⟨(0x14 : Byte) ++ f ++ (0 : Half), []⟩ = .instr (.favail f) ∧
    decode ⟨(0x15 : Byte) ++ f ++ (0 : Half), []⟩ = .instr (.ffree f) ∧
    (s.nfifo ≤ f.toNat → exec (.favail f) s = .next (s.raise 0x14 .badInstance)) ∧
    (s.nfifo ≤ f.toNat → exec (.ffree f) s = .next (s.raise 0x15 .badInstance)) ∧
    (∀ q, s.fifo? f.toNat = some q →
      exec (.favail f) s = .next (s.respond .favail
        (BitVec.ofInt 16 (((q.stop : Int) - q.start) % q.size)) [])) ∧
    (∀ q, s.fifo? f.toNat = some q →
      exec (.ffree f) s = .next (s.respond .ffree
        (BitVec.ofInt 16 (q.size - 1 - ((q.stop : Int) - q.start) % q.size)) []))

/-- 40_fifo.md R117: after RESET and after every step, the answers of FAVAIL and FFREE of any instance add
up to `N - 1`. -/
def Obligations.AccountingLaw : Prop :=
  ∀ (s : State) (f : Byte) (q : Fifo), Reachable s → s.fifo? f.toNat = some q →
    ∃ t u r r', exec (.favail f) s = .next t ∧ t.response = some r ∧ exec (.ffree f) t = .next u ∧
      u.response = some r' ∧ (responseRes r).toNat + (responseRes r').toNat = q.size - 1

/-- 40_fifo.md R118: from an empty queue exactly `N - 1` FPUSH are answered 1 and every later one 0, and one
FWRITE of at least `N - 1` bytes is answered `N - 1`. -/
def Obligations.CapacityLaw : Prop :=
  ∀ (s : State) (f : Byte) (q : Fifo), s.Inv → s.fifo? f.toNat = some q → q.start = q.stop →
    (∀ bs : List Byte, ∃ rs u, execTrace (bs.map fun b => .fpush f b) s = some (rs, u) ∧
      rs.map (fun r => (responseRes r).toNat)
        = List.replicate (min bs.length (q.size - 1)) 1 ++ List.replicate (bs.length - (q.size - 1)) 0) ∧
    (∀ payload : List Word, (∀ w ∈ payload, w.toNat < 256) → q.size - 1 ≤ payload.length →
      ∃ t, exec (.fwrite f payload) s = .next t ∧
        t.response = some ⟨respHeader 0x12 0 (BitVec.ofNat 16 (q.size - 1)), []⟩)

/-- 40_fifo.md R120, first half: an FWRITE leaves the state that as many FPUSH leave, of which the first
`n` are accepted. The pushes are issued with no event between them (assumption log 15). -/
def Obligations.FwriteIsSuccessiveFpush : Prop :=
  ∀ (s : State) (f : Byte) (q : Fifo) (payload : List Word), s.Inv → s.fifo? f.toNat = some q →
    (∀ w ∈ payload, w.toNat < 256) →
    ∃ t u rs, exec (.fwrite f payload) s = .next t ∧
      execTrace (payload.map fun w => .fpush f (payloadByte w)) s = some (rs, u) ∧
      t = { u with response := t.response } ∧
      t.response = some ⟨respHeader 0x12 0 (BitVec.ofNat 16 (min payload.length q.free)), []⟩ ∧
      rs.map (fun r => (responseRes r).toNat)
        = List.replicate (min payload.length q.free) 1 ++ List.replicate (payload.length - q.free) 0

/-- 40_fifo.md R120, second half: an FREAD that takes `n` bytes leaves the state that `n` successful FPOP
leave, and returns the same bytes. The pops are issued with no event between them (assumption log 15). -/
def Obligations.FreadIsSuccessiveFpop : Prop :=
  ∀ (s : State) (f : Byte) (q : Fifo) (m : Half), s.Inv → s.fifo? f.toNat = some q →
    ∃ t u rs, ∃ out : List Byte, exec (.fread f m) s = .next t ∧
      execTrace (List.replicate (min m.toNat q.used) (.fpop f)) s = some (rs, u) ∧
      t = { u with response := t.response } ∧
      t.response = some ⟨respHeader 0x13 0 (BitVec.ofNat 16 (min m.toNat q.used)), out.map byteWord⟩ ∧
      rs = out.map (fun b => ⟨respHeader 0x11 0 ((1 : Byte) ++ b), []⟩)

/-- 10_state.md R22, R23, 40_fifo.md R119: nothing observable distinguishes two states that show the same
queues and tokens: every operation answers the same in both and leaves states that show the same. -/
def Obligations.SlotsAreNotVisible : Prop :=
  ∀ (i : Instr) (s s' t : State), s.Inv → s'.Inv → s.SameView s' → exec i s = .next t →
    ∃ t', exec i s' = .next t' ∧ t'.response = t.response ∧ t.SameView t'

/-- 20_memory.md R70: on a queue that is neither empty nor full a put and a take give the same result in
either order. -/
def Obligations.PutAndTakeCommute : Prop :=
  ∀ (s : State) (f b : Byte) (q : Fifo), s.Inv → s.fifo? f.toNat = some q →
    q.empty = false → q.full = false →
    ∃ t u r r', execTrace [.fpush f b, .fpop f] s = some ([r, r'], t) ∧
      execTrace [.fpop f, .fpush f b] s = some ([r', r], u) ∧
      t = { u with response := t.response }

/-! ### CODEC -/

/-- 41_codec.md R141, with its frame: the token, the length and the answer for each class of byte. -/
def Obligations.CrxFeedsTheParser : Prop :=
  ∀ (s : State) (c b : Byte), s.Inv →
    decode ⟨(0x50 : Byte) ++ c ++ ((0 : Byte) ++ b), []⟩ = .instr (.crx c b) ∧
    (s.transports.length ≤ c.toNat → exec (.crx c b) s = .next (s.raise 0x50 .badInstance)) ∧
    (∀ k slot len, s.codec? c.toNat = some k →
      (slot, len) = (if isLetter b then (some 0, 1)
        else if isDigit b ∧ 1 ≤ k.len ∧ k.len ≤ 10 then (some k.len, k.len + 1)
        else ((none : Option Nat), 0)) →
      ∃ t k', exec (.crx c b) s = .next t ∧ t.codec? c.toNat = some k' ∧
        k' = { k with tok := k'.tok, len := len } ∧
        t.response = some (if b = 0x2C ∧ 1 ≤ k.len then
            ⟨respHeader 0x50 0 ((1 : Byte) ++ s.tokByte c.toNat 0),
              [if k.len = 1 then 0 else parseUint s.settings.parseOvf
                ((List.range (k.len - 1)).map fun i => s.tokByte c.toNat (i + 1))]⟩
          else ⟨respHeader 0x50 0 0, []⟩) ∧
        s.QueueFrame t [] [c.toNat] ∧
        (∀ a, slot = some a → t.tokByte c.toNat a = b) ∧
        (∀ d a, (d ≠ c.toNat ∨ slot ≠ some a) → t.tokByte d a = s.tokByte d a) ∧
        (∀ f a, t.fifoByte f a = s.fifoByte f a))

/-- 41_codec.md R140, R143: the character classes, and the decimal number with both settings of
`PARSE_OVF`. -/
def Obligations.ParseUintIsDecimal : Prop :=
  (∀ b : Byte, isLetter b = true ↔
    (0x41 ≤ b.toNat ∧ b.toNat ≤ 0x5A) ∨ (0x61 ≤ b.toNat ∧ b.toNat ≤ 0x7A)) ∧
  (∀ b : Byte, isDigit b = true ↔ 0x30 ≤ b.toNat ∧ b.toNat ≤ 0x39) ∧
  (∀ v : Nat → Nat, v 0 = 0 → ∀ ds : List Byte,
    (∀ i, i < ds.length → v (i + 1) = v i * 10 + ((ds.getD i 0).toNat - 0x30)) →
    (parseUint .wrap ds).toNat = v ds.length % 2 ^ 32 ∧
    (parseUint .saturate ds).toNat = min (v ds.length) (2 ^ 32 - 1))

/-- 41_codec.md R149 with R148 and R150: CSEND appends the frame, after a terminator where one is due. The
decimal spelling of a value other than 0 (00_scope.md R8) has 1 to 10 digits, does not begin with the digit 0,
and, read with the most significant digit first, is the value. -/
def Obligations.CsendAppendsTheFrame : Prop :=
  ∀ (s : State) (c code : Byte) (value : Word), s.Inv →
    (value ≠ 0 → 1 ≤ (dec value).length ∧ (dec value).length ≤ 10 ∧
      (∀ d ∈ dec value, 0x30 ≤ d.toNat ∧ d.toNat ≤ 0x39) ∧ (dec value).head? ≠ some 0x30 ∧
      ∀ v : Nat → Nat, v 0 = 0 →
        (∀ i, i < (dec value).length → v (i + 1) = v i * 10 + (((dec value).getD i 0).toNat - 0x30)) →
        v (dec value).length = value.toNat) ∧
    decode ⟨(0x51 : Byte) ++ c ++ ((0 : Byte) ++ code), [value]⟩ = .instr (.csend c code value) ∧
    (s.transports.length ≤ c.toNat → exec (.csend c code value) s = .next (s.raise 0x51 .badInstance)) ∧
    (∀ k q, s.codec? c.toNat = some k → s.fifo? (2 * c.toNat + 1) = some q →
      (isLetter code = false → exec (.csend c code value) s = .next (s.raise 0x51 .badOperand)) ∧
      (isLetter code = true → ∃ t out eol n, exec (.csend c code value) s = .next t ∧
        s.Transmitted t c.toNat q k .csend false
          (code :: ((if value = 0 then [] else dec value) ++ [0x2C])) out eol n))

/-- 41_codec.md R152 with R148 and R150: CUI appends a printable character, after a terminator where one is
due, and ignores every other byte. -/
def Obligations.CuiAppendsPrintables : Prop :=
  ∀ (s : State) (c ch : Byte), s.Inv →
    decode ⟨(0x52 : Byte) ++ c ++ ((0 : Byte) ++ ch), []⟩ = .instr (.cui c ch) ∧
    (s.transports.length ≤ c.toNat → exec (.cui c ch) s = .next (s.raise 0x52 .badInstance)) ∧
    (∀ k q, s.codec? c.toNat = some k → s.fifo? (2 * c.toNat + 1) = some q →
      ((ch.toNat < 0x20 ∨ 0x7E < ch.toNat) → exec (.cui c ch) s = .next (s.respond .cui 0 [])) ∧
      (0x20 ≤ ch.toNat → ch.toNat ≤ 0x7E → ∃ t out eol n, exec (.cui c ch) s = .next t ∧
        s.Transmitted t c.toNat q k .cui true [ch] out eol n))

/-- 41_codec.md R154 with R149: a frame fed byte by byte to CRX of any instance, from any parser state,
yields exactly one command, on its last byte, and it is the code and the value, for both settings of
`PARSE_OVF`. -/
def Obligations.FrameParsesBack : Prop :=
  ∀ (s : State) (c code : Byte) (value : Word), s.Inv → c.toNat < s.transports.length →
    isLetter code = true →
    ∃ t, execTrace ((code :: ((if value = 0 then [] else dec value) ++ [0x2C])).map fun b => .crx c b) s
      = some (List.replicate ((if value = 0 then [] else dec value).length + 1) ⟨respHeader 0x50 0 0, []⟩
          ++ [⟨respHeader 0x50 0 ((1 : Byte) ++ code), [value]⟩], t)

/-- 41_codec.md R144: more than ten digits after a letter discard the token: neither they nor the comma
emit a command. -/
def Obligations.EleventhDigitDiscards : Prop :=
  ∀ (s : State) (c code : Byte) (ds : List Byte), s.Inv → c.toNat < s.transports.length →
    isLetter code = true → 11 ≤ ds.length → (∀ d ∈ ds, isDigit d = true) →
    ∃ t, execTrace ((code :: (ds ++ [0x2C])).map fun b => .crx c b) s
      = some (List.replicate (ds.length + 2) ⟨respHeader 0x50 0 0, []⟩, t)

/-- 30_encoding.md R91, 41_codec.md R154, 40_fifo.md R119: a frame that stands alone in the receive FIFO of
a transport is drained to the one command it spells, and the FIFO is empty after it. That no step of another
agent falls between the parts of CRXDRAIN, where R91 lets events fall, is the model's choice and unsafe
(assumption log 15): the statement is about a drain that no event interrupts. `k` bounds the model's loop
only. -/
def Obligations.FrameSurvivesTheReceiveFifo : Prop :=
  ∀ (s : State) (c code : Byte) (value : Word) (q : Fifo) (k : Nat), s.Inv →
    s.fifo? (2 * c.toNat) = some q → isLetter code = true →
    q.queue = code :: ((if value = 0 then [] else dec value) ++ [0x2C]) → q.used < k →
    ∃ u, crxDrain c k s = some ([(code, value)], u) ∧
      (u.fifo? (2 * c.toNat)).map Fifo.queue = some []

/-! ### Encoders -/

/-- 42_qenc.md R171, R172: an edge of either channel at the level of the step. -/
def Obligations.EdgesCountAndTimeStamp : Prop :=
  ∀ (s : State) (e : Nat) (a b : Bool) (n : Enc) (rest : List Input), s.enc? e = some n →
    (s.inputs = .edgeA e a b :: rest →
      step s = .next { s with
        inputs := rest
        response := none
        encs := s.encs.set e { n with
          lastInterval := s.time - n.tEdge, tEdge := s.time, count := n.count + 1
          sense := if a = b then .plus else .minus } }) ∧
    (s.inputs = .edgeB e a b :: rest →
      step s = .next { s with
        inputs := rest
        response := none
        encs := s.encs.set e { n with
          lastInterval := s.time - n.tEdge, tEdge := s.time, count := n.count + 1
          sense := if a = b then .minus else .plus } })

/-- The model's choice, not the spec's (assumption log 8): an edge of an encoder that does not exist stops
the model. 42_qenc.md R170 gives lines to the encoders `e < NENC` only, so no such edge can occur. -/
def Obligations.EdgeOfAbsentEncoderStops : Prop :=
  ∀ (s : State) (e : Nat) (a b : Bool) (rest : List Input), s.encs.length ≤ e →
    (s.inputs = .edgeA e a b :: rest ∨ s.inputs = .edgeB e a b :: rest) →
    step s = .fault .noSuchEncoder

/-- 42_qenc.md R173, with R174 to R177 and R180: the branch, the rate, the read-and-reset, and EncDiv0. -/
def Obligations.EsyncAppliesTheSpeedPolicy : Prop :=
  ∀ (s : State) (e : Byte),
    decode ⟨(0x20 : Byte) ++ e ++ (0 : Half), []⟩ = .instr (.esync e) ∧
    (s.encs.length ≤ e.toNat → exec (.esync e) s = .next (s.raise 0x20 .badInstance)) ∧
    ∀ (n : Enc) (done : Half → Int → State) (c li cpr el : Nat) (sg : Int),
      s.enc? e.toNat = some n →
      c = n.count.toNat → li = n.lastInterval.toNat → el = (s.time - n.tSync).toNat →
      cpr = 4 * n.ppr.toNat → sg = (match n.sense with | .plus => 1 | .minus => -1) →
      (∀ branch q, done branch q =
        { s with
          encs := s.encs.set e.toNat { n with count := 0, lastInterval := 0, tSync := s.time }
          statusReg := if satW q ≠ q then s.statusReg ||| ((1 : Word) <<< (8 + e.toNat)) else s.statusReg
          response := some ⟨respHeader 0x20 0 branch, [BitVec.ofInt 32 (satW q)]⟩ }) →
      (c < 2 → exec (.esync e) s = .next (done 0 0)) ∧
      (2 ≤ c → li < c → cpr * el = 0 → exec (.esync e) s = .next (s.raise 0x20 .encDiv0)) ∧
      (2 ≤ c → li < c → cpr * el ≠ 0 →
        exec (.esync e) s = .next (done 1 (rdiv (sg * c * 1000 * 65536) (cpr * el)))) ∧
      (2 ≤ c → c ≤ li → cpr = 0 → exec (.esync e) s = .next (s.raise 0x20 .encDiv0)) ∧
      (2 ≤ c → c ≤ li → cpr ≠ 0 →
        exec (.esync e) s = .next (done 2 (rdiv (sg * 1000 * 65536) (cpr * li))))

/-! ### PID -/

/-- 00_scope.md R8, 43_pid.md R192: `rdiv` is the nearest integer, a tie goes away from zero, it is
symmetric in sign, and `rdiv(n, 1) = n`. -/
def Obligations.RdivIsNearest : Prop :=
  ∀ (n : Int) (d : Nat), 0 < d →
    2 * (d * rdiv n d - n).natAbs ≤ d ∧
    (2 * (d * rdiv n d - n).natAbs = d → n.natAbs < (d * rdiv n d).natAbs) ∧
    rdiv (-n) d = -rdiv n d ∧ rdiv n 1 = n

/-- 00_scope.md R8: `sat_W` narrows to -2^31 .. 2^31 - 1 and `sat16` to -32768 .. 32767, each to the nearer end
outside its range. -/
def Obligations.SaturationBounds : Prop :=
  (∀ v : Int, satW v = min (max v (-2147483648)) 2147483647) ∧
  (∀ v : Int, sat16 v = min (max v (-32768)) 32767)

/-- 43_pid.md R200, R201, R204, R215: PUPDATE of each axis, every field of the state it writes and the
answer. `act` is the actuator stage. -/
def Obligations.PupdateRunsTheDatapath : Prop :=
  ∀ (s : State) (p : Byte) (target actual dt : Word),
    decode ⟨(0x30 : Byte) ++ p ++ (0 : Half), [target, actual, dt]⟩
      = .instr (.pupdate p target actual dt) ∧
    (3 ≤ p.toNat → exec (.pupdate p target actual dt) s = .next (s.raise 0x30 .badInstance)) ∧
    (p.toNat < 3 → dt = 0 → exec (.pupdate p target actual dt) s = .next (s.raise 0x30 .pidDt0)) ∧
    ∀ (x : Axis) (x1 e d x2 rate inc x3 ig acc x4 out x5 cmd : Int) (act : Bool → Half),
      p.toNat = x.number → dt ≠ 0 →
      x1 = target.toInt - actual.toInt → e = satW x1 →
      d = e - (s.pid.get x).prevErr.toInt →
      x2 = rdiv (d * 1000) dt.toNat → rate = satW x2 →
      inc = rdiv ((e + (s.pid.get x).prevErr.toInt) * dt.toNat) 2000 →
      x3 = (s.pid.get x).integ.toInt + inc → ig = satW x3 →
      acc = (s.gains.get x).kp.toInt * e + (s.gains.get x).ki.toInt * ig + (s.gains.get x).kd.toInt * rate →
      x4 = rdiv acc 65536 → out = satW x4 →
      x5 = rdiv acc 4294967296 → cmd = sat16 x5 →
      (∀ en, act en = if en then
        (match s.settings.actMax with
          | none => BitVec.ofInt 16 cmd
          | some m => BitVec.ofInt 16 (min (max cmd (-(m : Int))) m)) else 0) →
      exec (.pupdate p target actual dt) s = .next { s with
        pid := s.pid.set x { prevErr := BitVec.ofInt 32 e, integ := BitVec.ofInt 32 ig }
        statusReg := if e ≠ x1 ∨ rate ≠ x2 ∨ ig ≠ x3 ∨ out ≠ x4 ∨ cmd ≠ x5
          then s.statusReg ||| ((1 : Word) <<< p.toNat) else s.statusReg
        actLeft := if x = .left then act (s.motorEn.getLsbD 0) else s.actLeft
        actRight := if x = .right then act (s.motorEn.getLsbD 1) else s.actRight
        response := some ⟨respHeader 0x30 0 (BitVec.ofInt 16 cmd), [BitVec.ofInt 32 out]⟩ }

/-- 43_pid.md R191, R195, R205: an update that sets no PIDSAT computed the formula with rounding only: the
error exactly, and the rate, the increment, the output and the command each within half a unit. -/
def Obligations.NoClipMeansRoundingOnly : Prop :=
  ∀ (g : Gains) (st : PidState) (target actual : Word) (dt : Nat) (r : PidResult),
    0 < dt → r = pidCompute g st target.toInt actual.toInt dt → r.clipped = false →
    r.err = target.toInt - actual.toInt ∧
    ∃ rate inc acc : Int,
      2 * (dt * rate - (r.err - st.prevErr.toInt) * 1000).natAbs ≤ dt ∧
      2 * (2000 * inc - (r.err + st.prevErr.toInt) * dt).natAbs ≤ 2000 ∧
      r.integ = st.integ.toInt + inc ∧
      acc = g.kp.toInt * r.err + g.ki.toInt * r.integ + g.kd.toInt * rate ∧
      2 * (65536 * r.out - acc).natAbs ≤ 65536 ∧
      2 * (4294967296 * r.cmd - acc).natAbs ≤ 4294967296

/-- 43_pid.md R207: (a) with `KP = 1.0` and the other gains 0 the output is the error, and the command the
error rounded, which the 16 bits of R203 narrow at the very top of the range; (b) with error 0 twice in a
row the integral stops and the output is `KI * integ` rounded, 0 when the integral is 0. -/
def Obligations.DocumentTestProperties : Prop :=
  (∀ (st : PidState) (target actual : Word) (dt : Nat), 0 < dt →
    let r := pidCompute { kp := 0x00010000, ki := 0, kd := 0 } st target.toInt actual.toInt dt
    r.out = r.err ∧ r.cmd = sat16 (rdiv r.err 65536)) ∧
  (∀ (g : Gains) (st : PidState) (v : Word) (dt : Nat), 0 < dt → st.prevErr = 0 →
    let r := pidCompute g st v.toInt v.toInt dt
    r.err = 0 ∧ r.integ = st.integ.toInt ∧
      r.out = satW (rdiv (g.ki.toInt * st.integ.toInt) 65536) ∧ (st.integ = 0 → r.out = 0 ∧ r.cmd = 0))

/-- 43_pid.md R206: the integral at the upper rail stays there while the increment is not negative, never
wraps, and comes down as soon as the increment is negative. -/
def Obligations.IntegralStaysAtTheRail : Prop :=
  ∀ (g : Gains) (st : PidState) (target actual : Word) (dt : Nat) (r : PidResult) (inc : Int),
    0 < dt → r = pidCompute g st target.toInt actual.toInt dt → st.integ = 0x7FFFFFFF →
    inc = rdiv ((r.err + st.prevErr.toInt) * dt) 2000 →
    (0 ≤ inc → r.integ = 2147483647) ∧ (inc < 0 → r.integ < 2147483647) ∧
    (0 ≤ r.err + st.prevErr.toInt → 0 ≤ inc)

/-- 43_pid.md R204, R211 to R214: CUPDATE is the outer update, the slip clamp, and the left and the right
inner update with the clamped value as their target, in one step. -/
def Obligations.CupdateIsThreeUpdates : Prop :=
  ∀ (s : State) (va la ra dt : Word),
    decode ⟨0x31000000, [va, la, ra, dt]⟩ = .instr (.cupdate va la ra dt) ∧
    (dt = 0 → exec (.cupdate va la ra dt) s = .next (s.raise 0x31 .pidDt0)) ∧
    (dt ≠ 0 → ∃ s0 s1 s2 cmd0 out0 o tgt lo hi,
      exec (.pupdate 0 s.vtarget va dt) s = .next s0 ∧
      s0.response = some ⟨respHeader 0x30 0 cmd0, [out0]⟩ ∧
      o = (if s.settings.outerRound then cmd0.toInt * 65536 else out0.toInt) ∧
      lo = va.toInt - s.slip.toNat ∧ hi = va.toInt + s.slip.toNat ∧
      tgt = (if s.slip = 0 then o else min (max o (satW lo)) (satW hi)) ∧
      exec (.pupdate 1 (BitVec.ofInt 32 tgt) la dt)
        (if s.slip ≠ 0 ∧ (satW lo ≠ lo ∨ satW hi ≠ hi)
          then { s0 with statusReg := s0.statusReg ||| 1 } else s0) = .next s1 ∧
      exec (.pupdate 2 (BitVec.ofInt 32 tgt) ra dt) s1 = .next s2 ∧
      exec (.cupdate va la ra dt) s = .next { s2 with
        response := some ⟨respHeader 0x31 0 0,
          [BitVec.ofInt 32 tgt, s2.actLeft.signExtend 32, s2.actRight.signExtend 32]⟩ })

/-- 43_pid.md R212: with a slip tolerance above 0 the inner target CUPDATE answers lies in the band around
the measured vehicle speed, the band edges clipped to the Q range. -/
def Obligations.InnerTargetStaysInTheBand : Prop :=
  ∀ (s : State) (va la ra dt : Word), dt ≠ 0 → s.slip ≠ 0 →
    ∃ t tgt l r, exec (.cupdate va la ra dt) s = .next t ∧
      t.response = some ⟨respHeader 0x31 0 0, [tgt, l, r]⟩ ∧
      satW (va.toInt - s.slip.toNat) ≤ tgt.toInt ∧ tgt.toInt ≤ satW (va.toInt + s.slip.toNat)

/-! ### Scheduler -/

/-- 44_sched.md R231: the millisecond strobe adds 1 to `T` and changes nothing else. -/
def Obligations.MstickAddsOne : Prop :=
  ∀ (s : State) (rest : List Input), s.inputs = .mstick :: rest →
    step s = .next { s with inputs := rest, response := none, time := s.time + 1 }

/-- 44_sched.md R232, R233: TPOLL, its three answers and every field of the scheduler. -/
def Obligations.TpollDispatchesOneTick : Prop :=
  ∀ s : State,
    decode ⟨0x40000000, []⟩ = .instr .tpoll ∧
    (s.sched.phase ≠ .idle → exec .tpoll s = .next (s.respond .tpoll 0x8000 [])) ∧
    (s.sched.phase = .idle → s.time = s.sched.lastMs → exec .tpoll s = .next (s.respond .tpoll 0 [])) ∧
    (s.sched.phase = .idle → s.time ≠ s.sched.lastMs →
      ∃ m : Half, exec .tpoll s = .next { s with
          sched :=
            { lastMs := s.sched.lastMs + 1
              d10 := if s.sched.d10 + 1 = 10 then 0 else s.sched.d10 + 1
              d100 := if s.sched.d10 + 1 ≠ 10 then s.sched.d100
                else if s.sched.d100 + 1 = 10 then 0 else s.sched.d100 + 1
              d1000 := if s.sched.d10 + 1 ≠ 10 ∨ s.sched.d100 + 1 ≠ 10 then s.sched.d1000
                else if s.sched.d1000 + 1 = 10 then 0 else s.sched.d1000 + 1
              phase := if m.getLsbD 4 then .sync else .idle }
          response := some ⟨respHeader 0x40 0 m, []⟩ } ∧
        m.toNat < 32 ∧ m.getLsbD 0 = true ∧
        (m.getLsbD 1 = true ↔ s.sched.d10 + 1 = 10) ∧
        (m.getLsbD 2 = true ↔ s.sched.d10 + 1 = 10 ∧ s.sched.d100 + 1 = 10) ∧
        (m.getLsbD 3 = true ↔ s.sched.d10 + 1 = 10 ∧ s.sched.d100 + 1 = 10 ∧ s.sched.d1000 + 1 = 10) ∧
        m.getLsbD 4 = m.getLsbD (match s.settings.ctrlLevel with
          | .millisecond => 0 | .tenMs => 1 | .tenthSecond => 2 | .second => 3))

/-- 44_sched.md R234, R236: TNEXT. -/
def Obligations.TnextEndsThePhase : Prop :=
  ∀ s : State,
    decode ⟨0x41000000, []⟩ = .instr .tnext ∧
    ∀ ph ph' res, (ph, ph', res) ∈ ([(.idle, .idle, 0), (.sync, .pid, 2), (.pid, .rxdrain, 3),
        (.rxdrain, .txdrain, 4), (.txdrain, .idle, 0)] : List (Phase × Phase × Half)) →
      s.sched.phase = ph →
      exec .tnext s = .next { s with
        sched := { s.sched with phase := ph' }
        response := some ⟨respHeader 0x41 0 res, []⟩ }

/-- 44_sched.md R234: no step but RESET changes the phase otherwise than by a TPOLL out of IDLE into SYNC or
by a TNEXT to the phase that follows. -/
def Obligations.NoOtherPhaseTransition : Prop :=
  ∀ (s t : State) (rest : List Input), s.inputs.head? ≠ some .reset → s.inputs.tail = rest →
    step s = .next t → t.sched.phase ≠ s.sched.phase →
    (∃ p, s.inputs = .command p :: rest ∧ decode p = .instr .tpoll ∧
      s.sched.phase = .idle ∧ t.sched.phase = .sync) ∨
    (∃ p, s.inputs = .command p :: rest ∧ decode p = .instr .tnext ∧
      (s.sched.phase, t.sched.phase) ∈ ([(.sync, .pid), (.pid, .rxdrain), (.rxdrain, .txdrain),
        (.txdrain, .idle)] : List (Phase × Phase)))

/-- 44_sched.md R237: no operation of another unit reads the phase: it does the same in every phase. -/
def Obligations.PhaseGatesNothing : Prop :=
  ∀ (i : Instr) (s t : State) (ph : Phase), i ≠ .tpoll → i ≠ .tnext → exec i s = .next t →
    exec i (s.withPhase ph) = .next (t.withPhase ph)

/-- 44_sched.md R241: the decade counters and the levels after `n` dispatched millisecond ticks. -/
def Obligations.TickLaw : Prop :=
  ∀ (n : Nat) (k : Sched), k = (fun j : Sched => j.tick.1)^[n] Sched.init →
    k.d10 = n % 10 ∧ k.d100 = n / 10 % 10 ∧ k.d1000 = n / 100 % 10 ∧ k.lastMs = BitVec.ofNat 32 n ∧
    ((tickMask k.tick.2).getLsbD 1 = true ↔ 10 ∣ n + 1) ∧
    ((tickMask k.tick.2).getLsbD 2 = true ↔ 100 ∣ n + 1) ∧
    ((tickMask k.tick.2).getLsbD 3 = true ↔ 1000 ∣ n + 1)

/-- 44_sched.md R238: with a backlog of `k` the next `k` polls each dispatch one tick, back to back, until
`last_ms` has caught up with `T`, when no control sequence starts in between; and a poll that dispatches
takes exactly 1 from the backlog. -/
def Obligations.PollsCatchUp : Prop :=
  (∀ s t : State, s.sched.phase = .idle → s.backlog ≠ 0 → exec .tpoll s = .next t →
    t.backlog + 1 = s.backlog) ∧
  (∀ (s t : State) (k : Nat) (rs : List Response), k ≤ s.backlog →
    execTrace (List.replicate k .tpoll) s = some (rs, t) →
    (∀ r ∈ rs, (responseRes r).getLsbD 15 = false) →
    rs.length = k ∧ (∀ r ∈ rs, (responseRes r).getLsbD 0 = true) ∧ t.backlog + k = s.backlog)

/-! ### Reset, and the whole machine -/

/-- 70_reset_and_hazards.md R290, R291, 10_state.md R54: RESET, from any state, in one step; the parameters
stay. That the steps still to come stay as they are, that no response is left, and that the arrays, whose
bytes the spec leaves unspecified, list nothing is the model's (assumption logs 6, 3, 5). -/
def Obligations.ResetSetsEveryField : Prop :=
  ∀ (s : State) (rest : List Input), s.inputs = .reset :: rest →
    ∃ t, step s = .next t ∧ t.params = s.params ∧ t.inputs = rest ∧ t.response = none ∧
      (∀ f q, t.fifo? f = some q → q.start = 0 ∧ q.stop = 0) ∧
      (∀ c k, t.codec? c = some k → k.len = 0 ∧ k.inUi = false ∧ k.sol = true) ∧
      t.time = 0 ∧
      (∀ e n, t.enc? e = some n → n =
        { count := 0, lastInterval := 0, sense := .plus, tEdge := 0, tSync := 0, ppr := 0 }) ∧
      (∀ p, t.pid.get p = { prevErr := 0, integ := 0 }) ∧
      (∀ p, t.gains.get p = { kp := 0, ki := 0, kd := 0 }) ∧
      t.actLeft = 0 ∧ t.actRight = 0 ∧
      t.sched = { lastMs := 0, d10 := 0, d100 := 0, d1000 := 0, phase := .idle } ∧
      t.faultReg = 0 ∧ t.statusReg = 0 ∧ t.vtarget = 0 ∧ t.slip = 0 ∧ t.motorEn = 0 ∧
      t = { State.build s.params with inputs := rest }

/-- 70_reset_and_hazards.md R294: what is usable straight after reset, with any legal parameters. -/
def Obligations.UsableAfterReset : Prop :=
  ∀ (p : Params) (s : State), p.wf = true → s = State.build p →
    (∀ (f : Byte) q, s.fifo? f.toNat = some q →
      exec (.favail f) s = .next (s.respond .favail 0 []) ∧
      exec (.ffree f) s = .next (s.respond .ffree (BitVec.ofNat 16 (q.size - 1)) [])) ∧
    (∀ c k, s.codec? c = some k → k.len = 0 ∧ k.inUi = false ∧ k.sol = true) ∧
    exec .tpoll s = .next (s.respond .tpoll 0 []) ∧
    (∀ e : Byte, e.toNat < p.nenc → exec (.esync e) s = .next (s.respond .esync 0 [0])) ∧
    (∀ (a : Byte) (target actual dt : Word), a.toNat < 3 → dt ≠ 0 →
      ∃ t, exec (.pupdate a target actual dt) s = .next t ∧
        t.response = some ⟨respHeader 0x30 0 0, [0]⟩) ∧
    (∀ va la ra dt : Word, dt ≠ 0 →
      ∃ t, exec (.cupdate va la ra dt) s = .next t ∧
        t.response = some ⟨respHeader 0x31 0 0, [0, 0, 0]⟩ ∧ t.actLeft = 0 ∧ t.actRight = 0)

/-- The invariant holds in the state after reset. It includes parameter values that are the model's choice
(assumption log 1). -/
def Obligations.ResetStateIsLegal : Prop := State.reset.Inv

/-- The invariant holds in the state after reset of a machine with any legal parameters (00_scope.md R6,
10_state.md R54), with any legal steps to come. -/
def Obligations.BuiltStateIsLegal : Prop :=
  ∀ (p : Params) (inputs : List Input), p.wf = true → (∀ i ∈ inputs, legalInput p.nenc i = true) →
    State.Inv { State.build p with inputs := inputs }

/-- Every step keeps the invariant: legal parameters (R6), cursors inside their arrays and the arrays in
their canonical form (R23), tokens of a letter and at most ten digits (R37, R144), decade counters in 0..9
(R35), no unimplemented bit in FAULT and STATUS (R46, R47), actuator outputs in `±ACT_MAX` (R215). -/
def Obligations.StepKeepsTheInvariant : Prop :=
  ∀ s t : State, s.Inv → step s = .next t → t.Inv

/-- 00_scope.md R11: no operation blocks: in every legal state every operation, and every step, has a next
state, and an operation answers in it. -/
def Obligations.EveryStepHasANextState : Prop :=
  ∀ s : State, s.Inv →
    (∃ t, step s = .next t) ∧ ∀ i, ∃ t r, exec i s = .next t ∧ t.response = some r

/-- 00_scope.md R6, 70_reset_and_hazards.md R291, 10_state.md R22: no step changes a parameter. The model's
choice, not the spec's: each step takes one of the steps to come, which stand in the model's own list
(assumption log 2), RESET leaves the rest of them (log 6), and with none to come the step is idle (log 4). -/
def Obligations.ParametersNeverChange : Prop :=
  ∀ s t : State, step s = .next t → t.params = s.params ∧ t.inputs = s.inputs.tail

/-! ### Who writes what, and what commutes -/

/-- 10_state.md R27 to R31: no operation but ESYNC of the same encoder touches an encoder's fields; PPR is
written by CFGWR only. -/
def Obligations.EncoderFieldsAreOwned : Prop :=
  ∀ (i : Instr) (s t : State) (e : Nat) (n : Enc), (∀ e', i = .esync e' → e'.toNat ≠ e) →
    exec i s = .next t → s.enc? e = some n →
    ∃ n', t.enc? e = some n' ∧ n' = { n with ppr := n'.ppr } ∧ (i.op ≠ .cfgwr → n' = n)

/-- 10_state.md R26, R32 to R35, R37, R38, R45, 20_memory.md R60: which operations write which state, and
that every byte of the arrays stays where an operation stores to none. -/
def Obligations.StateIsOwned : Prop :=
  ∀ (i : Instr) (s t : State), exec i s = .next t →
    t.time = s.time ∧
    (i.op ≠ .tpoll → i.op ≠ .tnext → t.sched = s.sched) ∧
    (i.op ≠ .pupdate → i.op ≠ .cupdate →
      t.pid = s.pid ∧ t.actLeft = s.actLeft ∧ t.actRight = s.actRight) ∧
    (i.op ≠ .cfgwr → t.vtarget = s.vtarget ∧ t.slip = s.slip ∧ t.motorEn = s.motorEn ∧
      t.gains = s.gains) ∧
    (i.op ≠ .pupdate → i.op ≠ .cupdate → i.op ≠ .esync → t.statusReg = s.statusReg) ∧
    (i.op ∉ [Op.fpush, .fpop, .fwrite, .fread, .csend, .cui] → ∀ f, t.fifo? f = s.fifo? f) ∧
    (i.op ∉ [Op.crx, .csend, .cui] → ∀ c, t.codec? c = s.codec? c) ∧
    (i.op ∉ [Op.fpush, .fwrite, .csend, .cui] → ∀ f a, t.fifoByte f a = s.fifoByte f a) ∧
    (i.op ≠ .crx → ∀ c a, t.tokByte c a = s.tokByte c a)

/-- 20_memory.md R69: the millisecond strobe commutes with every operation but ESYNC and TPOLL. The response
of a step is the model's own field (assumption log 3); an event has none. -/
def Obligations.MstickCommutes : Prop :=
  ∀ (i : Instr) (s t : State), i.op ≠ .esync → i.op ≠ .tpoll → exec i s = .next t →
    ∃ u, exec i (eventMstick s) = .next u ∧ u.response = t.response ∧
      eventMstick t = { u with response := none }

/-- 20_memory.md R69: an edge commutes with every operation but ESYNC of the same encoder, and with an edge
of another encoder. -/
def Obligations.EdgesCommute : Prop :=
  (∀ (i : Instr) (s t : State) (e : Nat) (sense : Sense), (∀ e', i = .esync e' → e'.toNat ≠ e) →
    e < s.encs.length → exec i s = .next t →
    ∃ s1 u, eventEdge e sense s = .next s1 ∧ exec i s1 = .next u ∧ u.response = t.response ∧
      eventEdge e sense t = .next { u with response := none }) ∧
  (∀ (s : State) (e e' : Nat) (sense sense' : Sense), e ≠ e' → e < s.encs.length → e' < s.encs.length →
    ∃ s1 s2 u, eventEdge e sense s = .next s1 ∧ eventEdge e' sense' s = .next s2 ∧
      eventEdge e' sense' s1 = .next u ∧ eventEdge e sense s2 = .next u)

end
end

