-- ==== Sys2Proof/Laws/Arith.lean ====
section
/-! SUPPORT. The laws of the fixed-point primitives (00_scope.md R8, 43_pid.md R192) and of the actuator
clamp (R215). -/
namespace Sys2Proof.Machine

/-- `sat_W` lands in the range of a Q value (R8, R191). -/
theorem satW_range (v : Int) : -2147483648 ≤ satW v ∧ satW v ≤ 2147483647 := by
  unfold satW; omega

/-- `sat_W` leaves a value of the range (R192). -/
theorem satW_of_range (v : Int) (h1 : -2147483648 ≤ v) (h2 : v ≤ 2147483647) : satW v = v := by
  unfold satW; omega

/-- `sat16` lands in the range of a command (R8). -/
theorem sat16_range (v : Int) : -32768 ≤ sat16 v ∧ sat16 v ≤ 32767 := by
  unfold sat16; omega

theorem sat16_of_range (v : Int) (h1 : -32768 ≤ v) (h2 : v ≤ 32767) : sat16 v = v := by
  unfold sat16; omega

/-- A word read as a Q value is in range (R191). -/
theorem s32_range (w : Word) : -2147483648 ≤ s32 w ∧ s32 w ≤ 2147483647 := by
  have h1 := BitVec.le_toInt w
  have h2 := BitVec.toInt_lt (x := w)
  unfold s32
  omega

/-- A value of the range is read back from its word (R7). -/
theorem s32_u32 (v : Int) (h1 : -2147483648 ≤ v) (h2 : v ≤ 2147483647) : s32 (u32 v) = v := by
  simp only [s32, u32, BitVec.toInt_ofInt]
  rw [Int.bmod_eq_of_le] <;> omega

/-- A narrowed value is read back from its word. -/
theorem s32_u32_satW (v : Int) : s32 (u32 (satW v)) = satW v :=
  s32_u32 _ (satW_range v).1 (satW_range v).2

/-- The word of a Q value is the word it was read from (R7). -/
theorem u32_s32 (w : Word) : u32 (s32 w) = w := by simp [u32, s32]

/-- `rdiv(0, d) = 0` (R192). -/
theorem rdiv_zero (d : Nat) : rdiv 0 d = 0 := by simp [rdiv]

/-- `rdiv(n, 1) = n` (R192). -/
theorem rdiv_one (n : Int) : rdiv n 1 = n := by
  have h : (2 * n.natAbs + 1) / (2 * 1) = n.natAbs := by omega
  rw [rdiv, h, Int.sign_mul_natAbs]

/-- `rdiv(-n, d) = -rdiv(n, d)` (R192). -/
theorem rdiv_neg (n : Int) (d : Nat) : rdiv (-n) d = -rdiv n d := by
  simp [rdiv, Int.sign_neg]

/-- Down-scaling an exact multiple loses nothing (R192). -/
theorem rdiv_mul (n : Int) (d : Nat) (h : 0 < d) : rdiv (n * d) d = n := by
  have ha : (n * (d : Int)).natAbs = n.natAbs * d := by simp [Int.natAbs_mul]
  have hq : (2 * (n.natAbs * d) + d) / (2 * d) = n.natAbs := by
    rw [show 2 * (n.natAbs * d) + d = d + n.natAbs * (2 * d) by ring,
      Nat.add_mul_div_right _ _ (by omega), Nat.div_eq_of_lt (by omega), Nat.zero_add]
  have hs : (n * (d : Int)).sign = n.sign := by
    have hd : (d : Int).sign = 1 := Int.sign_eq_one_of_pos (by omega)
    rw [Int.sign_mul, hd, mul_one]
  rw [rdiv, ha, hq, hs, Int.sign_mul_natAbs]

/-- The stage's clamp lands in `±ACT_MAX` and in 16 bits (R215). -/
theorem actClamp_range (actMax : Option Nat) (cmd : Int) (hm : legalActMax actMax = true)
    (h : -32768 ≤ cmd ∧ cmd ≤ 32767) :
    -32768 ≤ actClamp actMax cmd ∧ actClamp actMax cmd ≤ 32767 ∧
      ∀ a, actMax = some a → -(a : Int) ≤ actClamp actMax cmd ∧ actClamp actMax cmd ≤ a := by
  cases actMax with
  | none => exact ⟨h.1, h.2, by simp⟩
  | some a =>
    simp only [legalActMax, decide_eq_true_eq] at hm
    simp only [actClamp]
    refine ⟨by omega, by omega, ?_⟩
    intro b hb
    have : a = b := by simpa using hb
    subst this
    omega

/-- A 16-bit value is read back from its register. -/
theorem toInt_ofInt16 (v : Int) (h1 : -32768 ≤ v) (h2 : v ≤ 32767) : (BitVec.ofInt 16 v).toInt = v := by
  rw [BitVec.toInt_ofInt]
  rw [Int.bmod_eq_of_le] <;> omega

/-- What the actuator stage puts out is in its range (R215). -/
theorem actValue_legal (enabled : Bool) (actMax : Option Nat) (cmd : Int)
    (hm : legalActMax actMax = true) (h : -32768 ≤ cmd ∧ cmd ≤ 32767) :
    legalAct actMax (actValue enabled actMax cmd) = true := by
  obtain ⟨h1, h2, h3⟩ := actClamp_range actMax cmd hm h
  cases actMax with
  | none => rfl
  | some a =>
    simp only [legalAct, decide_eq_true_eq]
    cases enabled
    · simp [actValue]
    · have := h3 a rfl
      simp only [actValue, if_true, toInt_ofInt16 _ h1 h2]
      exact this

end Sys2Proof.Machine
end

