-- ==== Sys2Proof/Laws/Memory.lean ====
section
/-! SUPPORT. The laws of the byte arrays: a read after a write, and that every memory operation keeps the
canonical form and the bounds of the array. -/
namespace Sys2Proof.Machine

@[simp] theorem Memory.read_nil (a : Nat) : Memory.read [] a = unlistedByte := rfl

theorem Memory.read_cons (x : Nat) (b : Byte) (m : Memory) (a : Nat) :
    Memory.read ((x, b) :: m) a = if x = a then b else Memory.read m a := rfl

theorem Memory.wf_cons (x : Nat) (b : Byte) (m : Memory) :
    Memory.wf ((x, b) :: m) = true ↔
      b ≠ unlistedByte ∧ (∀ c ∈ m, x < c.1) ∧ Memory.wf m = true := by
  simp only [Memory.wf, Bool.and_eq_true, decide_eq_true_eq, List.all_eq_true, and_assoc]

theorem Memory.within_iff (m : Memory) (size : Nat) :
    Memory.within m size = true ↔ ∀ c ∈ m, c.1 < size := by
  simp [Memory.within]

/-- An index that no entry lists reads as the unlisted byte. -/
theorem Memory.read_unlisted (m : Memory) (a : Nat) (h : ∀ c ∈ m, c.1 ≠ a) :
    Memory.read m a = unlistedByte := by
  induction m with
  | nil => rfl
  | cons c m ih =>
    obtain ⟨x, b⟩ := c
    have hx : x ≠ a := h (x, b) (by simp)
    simp only [Memory.read_cons, if_neg hx]
    exact ih fun c hc => h c (by simp [hc])

/-- Every entry after a write is an old one or the one written. -/
theorem Memory.mem_write (m : Memory) (a : Nat) (b : Byte) (c : Host.Cell)
    (h : c ∈ Memory.write m a b) : c ∈ m ∨ (c.1 = a ∧ b ≠ unlistedByte) := by
  induction m with
  | nil =>
    by_cases hb : b = unlistedByte <;> simp [Memory.write, hb] at h
    exact .inr ⟨by simp [h], hb⟩
  | cons d m ih =>
    obtain ⟨x, e⟩ := d
    simp only [Memory.write] at h
    split at h
    · split at h
      · exact .inl h
      · rcases List.mem_cons.mp h with rfl | h
        · exact .inr ⟨rfl, ‹_›⟩
        · exact .inl h
    · split at h
      · split at h
        · exact .inl (List.mem_cons_of_mem _ h)
        · rcases List.mem_cons.mp h with rfl | h
          · exact .inr ⟨rfl, ‹_›⟩
          · exact .inl (List.mem_cons_of_mem _ h)
      · rcases List.mem_cons.mp h with rfl | h
        · exact .inl (by simp)
        · rcases ih h with h | h
          · exact .inl (List.mem_cons_of_mem _ h)
          · exact .inr h

/-- A write keeps the canonical form. -/
theorem Memory.write_wf (m : Memory) (a : Nat) (b : Byte) (h : Memory.wf m = true) :
    Memory.wf (Memory.write m a b) = true := by
  induction m with
  | nil =>
    by_cases hb : b = unlistedByte
    · simp [Memory.write, hb, Memory.wf]
    · simp [Memory.write, hb, Memory.wf]
  | cons d m ih =>
    obtain ⟨x, e⟩ := d
    have hc := (Memory.wf_cons x e m).mp h
    simp only [Memory.write]
    split
    · split
      · exact h
      · refine (Memory.wf_cons _ _ _).mpr ⟨‹_›, ?_, h⟩
        intro c hm
        rcases List.mem_cons.mp hm with rfl | hm
        · assumption
        · exact Nat.lt_trans ‹_› (hc.2.1 c hm)
    · split
      · split
        · exact hc.2.2
        · subst a
          exact (Memory.wf_cons _ _ _).mpr ⟨‹_›, hc.2.1, hc.2.2⟩
      · refine (Memory.wf_cons _ _ _).mpr ⟨hc.1, ?_, ih hc.2.2⟩
        intro c hm
        rcases Memory.mem_write m a b c hm with hm | hm
        · exact hc.2.1 c hm
        · omega

/-- A write inside the array stays inside the array. -/
theorem Memory.write_within (m : Memory) (size a : Nat) (b : Byte)
    (h : Memory.within m size = true) (ha : a < size) :
    Memory.within (Memory.write m a b) size = true := by
  rw [Memory.within_iff] at h ⊢
  intro c hc
  rcases Memory.mem_write m a b c hc with hc | hc
  · exact h c hc
  · omega

/-- A read after a write to the same index gives the byte written; any other index reads as before. -/
theorem Memory.read_write (m : Memory) (a : Nat) (b : Byte) (x : Nat) (h : Memory.wf m = true) :
    Memory.read (Memory.write m a b) x = if x = a then b else Memory.read m x := by
  induction m with
  | nil =>
    by_cases hb : b = unlistedByte
    · by_cases hx : x = a <;> simp [Memory.write, hb, hx]
    · by_cases hx : x = a
      · simp [Memory.write, hb, Memory.read, hx]
      · simp [Memory.write, hb, Memory.read, hx, Ne.symm hx]
  | cons d m ih =>
    obtain ⟨y, e⟩ := d
    have hc := (Memory.wf_cons y e m).mp h
    simp only [Memory.write]
    split
    · have hfresh : ∀ c ∈ (y, e) :: m, c.1 ≠ a := by
        intro c hm
        rcases List.mem_cons.mp hm with rfl | hm
        · simp only [ne_eq]; omega
        · have := hc.2.1 c hm; omega
      split
      · by_cases hx : x = a
        · subst x; simp only [if_true]; rw [Memory.read_unlisted _ _ hfresh, ‹b = _›]
        · rw [if_neg hx]
      · rw [Memory.read_cons]
        by_cases hx : x = a
        · simp [hx]
        · rw [if_neg (Ne.symm hx), if_neg hx]
    · split
      · subst a
        have hfresh : ∀ c ∈ m, c.1 ≠ y := fun c hm => by have := hc.2.1 c hm; omega
        split
        · by_cases hx : x = y
          · subst x; simp only [if_true]; rw [Memory.read_unlisted _ _ hfresh, ‹b = _›]
          · rw [if_neg hx, Memory.read_cons, if_neg (Ne.symm hx)]
        · rw [Memory.read_cons, Memory.read_cons]
          by_cases hx : x = y
          · simp [hx]
          · simp [hx, Ne.symm hx]
      · rw [Memory.read_cons, ih hc.2.2, Memory.read_cons]
        by_cases hy : y = x
        · have : x ≠ a := by omega
          simp [hy, this]
        · simp [hy]

/-- A string write keeps the canonical form. -/
theorem Memory.writeAll_wf (v : List Byte) (m : Memory) (a : Nat) (h : Memory.wf m = true) :
    Memory.wf (Memory.writeAll m a v) = true := by
  induction v generalizing m a with
  | nil => exact h
  | cons b v ih => exact ih _ _ (Memory.write_wf m a b h)

/-- A string write inside the array stays inside the array. -/
theorem Memory.writeAll_within (v : List Byte) (m : Memory) (size a : Nat)
    (h : Memory.within m size = true) (ha : a + v.length ≤ size) :
    Memory.within (Memory.writeAll m a v) size = true := by
  induction v generalizing m a with
  | nil => exact h
  | cons b v ih =>
    simp only [List.length_cons] at ha
    exact ih _ _ (Memory.write_within m size a b h (by omega)) (by omega)

/-- Reading after a string write. -/
theorem Memory.read_writeAll (v : List Byte) (m : Memory) (a x : Nat) (h : Memory.wf m = true) :
    Memory.read (Memory.writeAll m a v) x =
      if a ≤ x ∧ x < a + v.length then v.getD (x - a) 0 else Memory.read m x := by
  induction v generalizing m a with
  | nil =>
    have : ¬ (a ≤ x ∧ x < a + ([] : List Byte).length) := by simp
    rw [if_neg this]; rfl
  | cons b v ih =>
    show Memory.read (Memory.writeAll (Memory.write m a b) (a + 1) v) x = _
    rw [ih _ _ (Memory.write_wf m a b h), Memory.read_write m a b x h]
    simp only [List.length_cons]
    by_cases hx : x = a
    · subst x
      have h2 : a ≤ a ∧ a < a + (v.length + 1) := by omega
      simp [h2]
    · by_cases hr : a + 1 ≤ x ∧ x < a + 1 + v.length
      · have h2 : a ≤ x ∧ x < a + (v.length + 1) := by omega
        obtain ⟨k, rfl⟩ : ∃ k, x = a + 1 + k := ⟨x - (a + 1), by omega⟩
        rw [if_pos hr, if_pos h2]
        have h3 : a + 1 + k - (a + 1) = k := by omega
        have h4 : a + 1 + k - a = k + 1 := by omega
        simp [h3, h4]
      · have h2 : ¬ (a ≤ x ∧ x < a + (v.length + 1)) := by omega
        rw [if_neg hr, if_neg h2, if_neg hx]

/-- Everything a string write can do (R8): inside the array it succeeds. -/
theorem Memory.store_eq_some (m : Memory) (size a : Nat) (v : List Byte) (m' : Memory) :
    Memory.store m size a v = some m' ↔ a + v.length ≤ size ∧ m' = Memory.writeAll m a v := by
  unfold Memory.store
  split <;> simp [*, eq_comm]

/-- Everything a string read can do (R8): inside the array it succeeds. -/
theorem Memory.load_eq_some (m : Memory) (size a n : Nat) (d : List Byte) :
    Memory.load m size a n = some d ↔
      a + n ≤ size ∧ d = (List.range n).map fun i => Memory.read m (a + i) := by
  unfold Memory.load
  split <;> simp [*, eq_comm]

/-- A store keeps the canonical form and the bounds of the array. -/
theorem Memory.store_wf (m : Memory) (size a : Nat) (v : List Byte) (m' : Memory)
    (h : Memory.store m size a v = some m') (hw : Memory.wf m = true)
    (hb : Memory.within m size = true) :
    Memory.wf m' = true ∧ Memory.within m' size = true := by
  obtain ⟨ha, rfl⟩ := (Memory.store_eq_some m size a v m').mp h
  exact ⟨Memory.writeAll_wf v m a hw, Memory.writeAll_within v m size a hb ha⟩

end Sys2Proof.Machine
end

