-- ==== Sys2Proof/Laws/Fifo.lean ====
section
/-! SUPPORT. The laws of one FIFO: the accounting of 10_state.md R24, and for each operation of
Machine/Ops.lean one lemma that says what it does to the queue of 40_fifo.md R119, which slots it writes, and
that it keeps the FIFO within its rules. -/
namespace Sys2Proof.Machine

/-- Reduction modulo `n` below `2n`. -/
theorem mod_below_twice (a n : Nat) (h : a < 2 * n) : a % n = if a < n then a else a - n := by
  split
  · exact Nat.mod_eq_of_lt ‹_›
  · rw [Nat.mod_eq_sub_mod (by omega), Nat.mod_eq_of_lt (by omega)]

/-- The two cases of a reduction modulo `n` below `2n`. -/
theorem mod_cases (a n : Nat) (h : a < 2 * n) : (a < n ∧ a % n = a) ∨ (n ≤ a ∧ a % n = a - n) := by
  rw [mod_below_twice a n h]
  split <;> omega

theorem Fifo.wf_iff (q : Fifo) :
    q.wf = true ↔ (2 ≤ q.size ∧ q.size ≤ 65536) ∧ q.start < q.size ∧ q.stop < q.size ∧
      Memory.wf q.buf = true ∧ Memory.within q.buf q.size = true := by
  simp only [Fifo.wf, legalFifoSize, Bool.and_eq_true, decide_eq_true_eq, and_assoc]
  rfl

theorem Fifo.used_eq (q : Fifo) (h : q.wf = true) :
    q.used = if q.start ≤ q.stop then q.stop - q.start else q.stop + q.size - q.start := by
  obtain ⟨hs, h1, h2, -⟩ := (Fifo.wf_iff q).mp h
  unfold Fifo.used
  rw [mod_below_twice _ _ (by omega)]
  split <;> split <;> omega

theorem Fifo.used_cases (q : Fifo) (h : q.wf = true) :
    (q.start ≤ q.stop ∧ q.used = q.stop - q.start) ∨
      (q.stop < q.start ∧ q.used = q.stop + q.size - q.start) := by
  rw [Fifo.used_eq q h]
  split <;> omega

theorem Fifo.used_lt (q : Fifo) (h : q.wf = true) : q.used < q.size := by
  obtain ⟨hs, -⟩ := (Fifo.wf_iff q).mp h
  exact Nat.mod_lt _ (by omega)

/-- `used(f) + free(f) == N - 1` (R24). -/
theorem Fifo.used_add_free (q : Fifo) (h : q.wf = true) : q.used + q.free = q.size - 1 := by
  have := Fifo.used_lt q h
  unfold Fifo.free
  omega

/-- `empty(f)` is equivalently `used(f) == 0` (R24). -/
theorem Fifo.empty_iff (q : Fifo) (h : q.wf = true) : q.empty = true ↔ q.used = 0 := by
  obtain ⟨hs, h1, h2, -⟩ := (Fifo.wf_iff q).mp h
  rw [Fifo.used_eq q h]
  simp only [Fifo.empty, beq_iff_eq]
  split <;> omega

/-- `full(f)` is equivalently `free(f) == 0` (R24). -/
theorem Fifo.full_iff (q : Fifo) (h : q.wf = true) : q.full = true ↔ q.free = 0 := by
  obtain ⟨hs, h1, h2, -⟩ := (Fifo.wf_iff q).mp h
  unfold Fifo.free
  rw [Fifo.used_eq q h]
  simp only [Fifo.full, beq_iff_eq]
  rw [mod_below_twice _ _ (by omega)]
  split <;> split <;> omega

@[simp] theorem Fifo.queue_length (q : Fifo) : q.queue.length = q.used := by
  simp [Fifo.queue]

theorem Fifo.queue_getElem (q : Fifo) (i : Nat) (h : i < q.queue.length) :
    q.queue[i] = Memory.read q.buf ((q.start + i) % q.size) := by
  simp [Fifo.queue]

/-- How far slot `x` lies after the slot at `end`, going round the array. -/
def Fifo.ahead (q : Fifo) (x : Nat) : Nat := (x + q.size - q.stop) % q.size

theorem Fifo.ahead_cases (q : Fifo) (x : Nat) (hx : x < q.size) (hs : q.stop < q.size) :
    (q.stop ≤ x ∧ q.ahead x = x - q.stop) ∨ (x < q.stop ∧ q.ahead x = x + q.size - q.stop) := by
  unfold Fifo.ahead
  rcases mod_cases (x + q.size - q.stop) q.size (by omega) with h | h <;> omega

/-- Everything `put` does on a legal FIFO (R113): the count, the cursors, every slot of the array. -/
theorem Fifo.put_slots (q : Fifo) (d : List Byte) (h : q.wf = true) :
    ∃ buf, q.put d = some ({ q with buf := buf, stop := (q.stop + min d.length q.free) % q.size },
        min d.length q.free) ∧
      Memory.wf buf = true ∧ Memory.within buf q.size = true ∧
      ∀ x, Memory.read buf x =
        if x < q.size ∧ q.ahead x < min d.length q.free then d.getD (q.ahead x) 0
        else Memory.read q.buf x := by
  obtain ⟨hs, h1, h2, hm, hb⟩ := (Fifo.wf_iff q).mp h
  have hu := Fifo.used_lt q h
  have hf : q.free ≤ q.size - 1 := by unfold Fifo.free; omega
  generalize hn : min d.length q.free = n at *
  have hnd : n ≤ d.length := by omega
  have hnf : n ≤ q.size - 1 := by omega
  generalize hseg : min n (q.size - q.stop) = seg1
  have hl1 : (d.take seg1).length = seg1 := by rw [List.length_take]; omega
  have hl2 : ((d.drop seg1).take (n - seg1)).length = n - seg1 := by
    rw [List.length_take, List.length_drop]; omega
  have hin1 : q.stop + (d.take seg1).length ≤ q.size := by omega
  have hin2 : 0 + ((d.drop seg1).take (n - seg1)).length ≤ q.size := by omega
  have hw1 := Memory.writeAll_wf (d.take seg1) q.buf q.stop hm
  have hb1 := Memory.writeAll_within (d.take seg1) q.buf q.size q.stop hb hin1
  refine ⟨Memory.writeAll (Memory.writeAll q.buf q.stop (d.take seg1)) 0
    ((d.drop seg1).take (n - seg1)), ?_, Memory.writeAll_wf _ _ _ hw1,
    Memory.writeAll_within _ _ _ _ hb1 hin2, ?_⟩
  · simp only [Fifo.put, hn, hseg, Memory.store, if_pos hin1, if_pos hin2]
  · intro x
    rw [Memory.read_writeAll _ _ _ _ hw1, Memory.read_writeAll _ _ _ _ hm, hl1, hl2]
    by_cases hx : x < q.size
    · rcases Fifo.ahead_cases q x hx h2 with ⟨hsx, ha⟩ | ⟨hsx, ha⟩
      · rw [ha]
        by_cases hk : x - q.stop < n
        · rw [if_neg (by omega), if_pos (by omega), if_pos ⟨hx, hk⟩, List.getD_eq_getElem?_getD,
            List.getElem?_take, if_pos (by omega), List.getD_eq_getElem?_getD]
        · rw [if_neg (by omega), if_neg (by omega), if_neg (by omega)]
      · rw [ha]
        by_cases hk : x + q.size - q.stop < n
        · rw [if_pos (by omega), if_pos ⟨hx, hk⟩, List.getD_eq_getElem?_getD, List.getElem?_take,
            if_pos (by omega), List.getElem?_drop, List.getD_eq_getElem?_getD]
          congr 2; omega
        · rw [if_neg (by omega), if_neg (by omega), if_neg (by omega)]
    · rw [if_neg (by omega), if_neg (by omega), if_neg (by omega)]

/-- The used count after `n` more bytes were put. -/
theorem Fifo.used_after_put (q : Fifo) (buf : Memory) (n : Nat) (h : q.wf = true) (hn : n ≤ q.free) :
    Fifo.used { q with buf := buf, stop := (q.stop + n) % q.size } = q.used + n := by
  obtain ⟨hs, h1, h2, -⟩ := (Fifo.wf_iff q).mp h
  have hu := Fifo.used_lt q h
  have hf := Fifo.used_add_free q h
  have hc := Fifo.used_cases q h
  show ((q.stop + n) % q.size + q.size - q.start) % q.size = _
  rcases mod_cases (q.stop + n) q.size (by omega) with ⟨ha, hb⟩ | ⟨ha, hb⟩ <;> rw [hb]
  · rcases mod_cases (q.stop + n + q.size - q.start) q.size (by omega) with h' | h' <;> omega
  · rcases mod_cases (q.stop + n - q.size + q.size - q.start) q.size (by omega) with h' | h' <;> omega

/-- `put` appends to the queue the leading bytes that fit, and keeps the FIFO within its rules
(R113, R119). -/
theorem Fifo.put_spec (q : Fifo) (d : List Byte) (h : q.wf = true) :
    ∃ q', q.put d = some (q', min d.length q.free) ∧ q'.wf = true ∧ q'.size = q.size ∧
      q'.start = q.start ∧ q'.stop = (q.stop + min d.length q.free) % q.size ∧
      q'.used = q.used + min d.length q.free ∧
      q'.queue = q.queue ++ d.take (min d.length q.free) := by
  obtain ⟨hs, h1, h2, hm, hb⟩ := (Fifo.wf_iff q).mp h
  have hu := Fifo.used_lt q h
  have huf := Fifo.used_add_free q h
  obtain ⟨buf, hput, hwf, hwi, hread⟩ := Fifo.put_slots q d h
  have hused := Fifo.used_after_put q buf (min d.length q.free) h (by omega)
  refine ⟨_, hput, ?_, rfl, rfl, rfl, hused, ?_⟩
  · exact (Fifo.wf_iff _).mpr ⟨hs, h1, Nat.mod_lt _ (by omega), hwf, hwi⟩
  · apply List.ext_getElem
    · rw [Fifo.queue_length, hused, List.length_append, Fifo.queue_length, List.length_take]; omega
    · intro i hi hi'
      rw [Fifo.queue_length, hused] at hi
      rw [Fifo.queue_getElem]
      show Memory.read buf ((q.start + i) % q.size) = _
      rw [hread]
      have hlt : (q.start + i) % q.size < q.size := Nat.mod_lt _ (by omega)
      have ha : (i < q.used ∧ q.ahead ((q.start + i) % q.size) = i + q.size - q.used) ∨
          (q.used ≤ i ∧ q.ahead ((q.start + i) % q.size) = i - q.used) := by
        have hc := Fifo.used_cases q h
        have hac := Fifo.ahead_cases q ((q.start + i) % q.size) hlt h2
        rcases mod_cases (q.start + i) q.size (by omega) with h' | h' <;> omega
      rcases ha with ⟨hiu, ha⟩ | ⟨hiu, ha⟩
      · rw [ha, if_neg (by omega), List.getElem_append_left (by simpa using hiu),
          Fifo.queue_getElem]
      · rw [ha, if_pos ⟨hlt, by omega⟩, List.getElem_append_right (by simpa using hiu)]
        simp only [Fifo.queue_length, List.getElem_take]
        rw [List.getD_eq_getElem?_getD, List.getElem?_eq_getElem (by omega)]
        rfl

/-- What `put` leaves: every slot but the ones the accepted bytes go to (R61, R113). -/
theorem Fifo.put_frame (q : Fifo) (d : List Byte) (q' : Fifo) (n : Nat) (h : q.wf = true)
    (hp : q.put d = some (q', n)) (x : Nat) (hx : ∀ k < n, x ≠ (q.stop + k) % q.size) :
    Memory.read q'.buf x = Memory.read q.buf x := by
  obtain ⟨hs, h1, h2, -⟩ := (Fifo.wf_iff q).mp h
  obtain ⟨buf, hput, -, -, hread⟩ := Fifo.put_slots q d h
  rw [hput] at hp
  simp only [Option.some.injEq, Prod.mk.injEq] at hp
  obtain ⟨rfl, rfl⟩ := hp
  show Memory.read buf x = _
  rw [hread]
  by_cases hxs : x < q.size
  · have hne : ¬ q.ahead x < min d.length q.free := by
      intro hlt
      refine hx _ hlt ?_
      have hac := Fifo.ahead_cases q x hxs h2
      have hf : q.free ≤ q.size - 1 := by unfold Fifo.free; omega
      rcases mod_cases (q.stop + q.ahead x) q.size (by omega) with h' | h' <;> omega
    rw [if_neg (by omega)]
  · rw [if_neg (by omega)]

/-- A single byte is put like a burst of one (R120). -/
theorem Fifo.push_eq_put (q : Fifo) (b : Byte) (h : q.wf = true) :
    q.push b = (q.put [b]).map fun r => (r.1, decide (r.2 = 1)) := by
  obtain ⟨hs, h1, h2, hm, hb⟩ := (Fifo.wf_iff q).mp h
  have hfull := Fifo.full_iff q h
  by_cases hf : q.full = true
  · have hz := hfull.mp hf
    have hm0 : min ([b] : List Byte).length q.free = 0 := by rw [hz]; simp
    simp only [Fifo.push, hf, Fifo.put, hm0]
    simp [Memory.store, Memory.writeAll, Nat.le_of_lt h2, Nat.mod_eq_of_lt h2]
  · have hz : q.free ≠ 0 := fun hz => hf (hfull.mpr hz)
    have hm1 : min ([b] : List Byte).length q.free = 1 := by
      simp only [List.length_cons, List.length_nil]; omega
    have hs1 : min 1 (q.size - q.stop) = 1 := by omega
    have hin : q.stop + 1 ≤ q.size := by omega
    simp only [Fifo.push, hf, Fifo.put, hm1, hs1]
    simp [Memory.store, Memory.writeAll, hin]

/-- `push` appends the byte when there is room and changes nothing when there is none (R111, R119). -/
theorem Fifo.push_spec (q : Fifo) (b : Byte) (h : q.wf = true) :
    ∃ q', q.push b = some (q', !q.full) ∧ q'.wf = true ∧ q'.size = q.size ∧ q'.start = q.start ∧
      (q.full = true → q' = q) ∧
      (q.full = false → q'.stop = (q.stop + 1) % q.size ∧ q'.queue = q.queue ++ [b] ∧
        q'.used = q.used + 1 ∧
        ∀ x, Memory.read q'.buf x = if x = q.stop then b else Memory.read q.buf x) := by
  obtain ⟨hs, h1, h2, hm, hb⟩ := (Fifo.wf_iff q).mp h
  by_cases hf : q.full = true
  · exact ⟨q, by simp [Fifo.push, hf], h, rfl, rfl, fun _ => rfl, by simp [hf]⟩
  · obtain ⟨q', hput, hwf, hsz, hst, hstop, hused, hq⟩ := Fifo.put_spec q [b] h
    have hz : q.free ≠ 0 := fun hz => hf ((Fifo.full_iff q h).mpr hz)
    have hm1 : min ([b] : List Byte).length q.free = 1 := by
      simp only [List.length_cons, List.length_nil]; omega
    rw [hm1] at hput hstop hused hq
    have hpush := Fifo.push_eq_put q b h
    rw [hput] at hpush
    refine ⟨q', by simp [hpush, hf], hwf, hsz, hst, by simp [hf], fun _ => ⟨hstop, by simpa using hq,
      hused, ?_⟩⟩
    have hin : q.stop + 1 ≤ q.size := by omega
    simp only [Fifo.push, hf, Memory.store, List.length_cons, List.length_nil, Nat.zero_add,
      if_pos hin, Memory.writeAll] at hpush
    simp only [Bool.false_eq_true, if_false, Option.map_some, Option.some.injEq, Prod.mk.injEq] at hpush
    intro x
    rw [← hpush.1]
    exact Memory.read_write q.buf q.stop b x hm

/-- Everything `take` does on a legal FIFO (R114): it gives the first bytes of the queue and moves `start`. -/
theorem Fifo.take_eq (q : Fifo) (m : Nat) (h : q.wf = true) :
    q.take m = some ({ q with start := (q.start + min m q.used) % q.size },
      q.queue.take (min m q.used)) := by
  obtain ⟨hs, h1, h2, -⟩ := (Fifo.wf_iff q).mp h
  have hu := Fifo.used_lt q h
  generalize hn : min m q.used = n
  generalize hseg : min n (q.size - q.start) = seg1
  have hin1 : q.start + seg1 ≤ q.size := by omega
  have hin2 : 0 + (n - seg1) ≤ q.size := by omega
  simp only [Fifo.take, hn, hseg, Memory.load, if_pos hin1, if_pos hin2]
  simp only [Option.some.injEq, Prod.mk.injEq, true_and]
  apply List.ext_getElem
  · simp; omega
  · intro i hi hi'
    simp only [List.length_append, List.length_map, List.length_range] at hi
    rw [List.getElem_take, Fifo.queue_getElem]
    by_cases hi1 : i < seg1
    · rw [List.getElem_append_left (by simpa using hi1)]
      simp only [List.getElem_map, List.getElem_range]
      rw [Nat.mod_eq_of_lt (by omega)]
    · rw [List.getElem_append_right (by simpa using hi1)]
      simp only [List.getElem_map, List.getElem_range, List.length_map, List.length_range]
      rw [mod_below_twice _ _ (by omega), if_neg (by omega)]
      congr 1; omega

/-- The queue after `n` bytes were taken. -/
theorem Fifo.queue_after_take (q : Fifo) (n : Nat) (h : q.wf = true) (hn : n ≤ q.used) :
    Fifo.used { q with start := (q.start + n) % q.size } = q.used - n ∧
      Fifo.queue { q with start := (q.start + n) % q.size } = q.queue.drop n := by
  obtain ⟨hs, h1, h2, -⟩ := (Fifo.wf_iff q).mp h
  have hu := Fifo.used_lt q h
  have hc := Fifo.used_cases q h
  have hused : Fifo.used { q with start := (q.start + n) % q.size } = q.used - n := by
    show (q.stop + q.size - (q.start + n) % q.size) % q.size = _
    rcases mod_cases (q.start + n) q.size (by omega) with ⟨ha, hb⟩ | ⟨ha, hb⟩ <;> rw [hb]
    · rcases mod_cases (q.stop + q.size - (q.start + n)) q.size (by omega) with h' | h' <;> omega
    · rcases mod_cases (q.stop + q.size - (q.start + n - q.size)) q.size (by omega) with h' | h' <;> omega
  refine ⟨hused, ?_⟩
  apply List.ext_getElem
  · rw [Fifo.queue_length, hused]; simp
  · intro i hi hi'
    rw [Fifo.queue_length, hused] at hi
    rw [Fifo.queue_getElem, List.getElem_drop, Fifo.queue_getElem]
    simp only
    congr 1
    rw [Nat.mod_add_mod]
    congr 1; omega

/-- `take` keeps the FIFO within its rules and leaves the rest of the queue (R114, R119). -/
theorem Fifo.take_spec (q : Fifo) (m : Nat) (h : q.wf = true) :
    ∃ q', q.take m = some (q', q.queue.take (min m q.used)) ∧ q'.wf = true ∧ q'.size = q.size ∧
      q'.buf = q.buf ∧ q'.stop = q.stop ∧ q'.start = (q.start + min m q.used) % q.size ∧
      q'.used = q.used - min m q.used ∧ q'.queue = q.queue.drop (min m q.used) := by
  obtain ⟨hs, h1, h2, hm, hb⟩ := (Fifo.wf_iff q).mp h
  have hq := Fifo.queue_after_take q (min m q.used) h (by omega)
  exact ⟨_, Fifo.take_eq q m h,
    (Fifo.wf_iff _).mpr ⟨hs, Nat.mod_lt _ (by omega), h2, hm, hb⟩, rfl, rfl, rfl, rfl, hq.1, hq.2⟩

/-- `pop` is a `take` of one (R120): the head of the queue, none when it is empty (R112). -/
theorem Fifo.pop_eq (q : Fifo) (h : q.wf = true) :
    q.pop = some ({ q with start := (q.start + min 1 q.used) % q.size }, q.queue.head?) := by
  obtain ⟨hs, h1, h2, hm, hb⟩ := (Fifo.wf_iff q).mp h
  have hu := Fifo.used_lt q h
  have hem := Fifo.empty_iff q h
  by_cases hf : q.empty = true
  · have hz := hem.mp hf
    have hnil : q.queue = [] := List.length_eq_zero_iff.mp (by simp [hz])
    simp [Fifo.pop, hf, hz, hnil, Nat.mod_eq_of_lt h1]
  · have hz : q.used ≠ 0 := fun hz => hf (hem.mpr hz)
    have hm1 : min 1 q.used = 1 := by omega
    have hin : q.start + 1 ≤ q.size := by omega
    have hh : q.queue.head? = some (Memory.read q.buf q.start) := by
      rw [List.head?_eq_getElem?, List.getElem?_eq_getElem (by rw [Fifo.queue_length]; omega),
        Fifo.queue_getElem]
      simp [Nat.mod_eq_of_lt h1]
    simp [Fifo.pop, hf, hm1, hh, Memory.load, hin]

/-- `pop` keeps the FIFO within its rules and leaves the tail of the queue (R112, R119). -/
theorem Fifo.pop_spec (q : Fifo) (h : q.wf = true) :
    ∃ q', q.pop = some (q', q.queue.head?) ∧ q'.wf = true ∧ q'.size = q.size ∧ q'.buf = q.buf ∧
      q'.stop = q.stop ∧ q'.start = (q.start + min 1 q.used) % q.size ∧
      q'.used = q.used - 1 ∧ q'.queue = q.queue.tail := by
  obtain ⟨hs, h1, h2, hm, hb⟩ := (Fifo.wf_iff q).mp h
  have hq := Fifo.queue_after_take q (min 1 q.used) h (by omega)
  have hu : q.used - min 1 q.used = q.used - 1 := by omega
  have ht : q.queue.drop (min 1 q.used) = q.queue.tail := by
    by_cases hz : q.used = 0
    · have hnil : q.queue = [] := List.length_eq_zero_iff.mp (by simp [hz])
      simp [hnil]
    · rw [show min 1 q.used = 1 by omega, List.drop_one]
  exact ⟨_, Fifo.pop_eq q h,
    (Fifo.wf_iff _).mpr ⟨hs, Nat.mod_lt _ (by omega), h2, hm, hb⟩, rfl, rfl, rfl, rfl,
    hq.1.trans hu, hq.2.trans ht⟩

end Sys2Proof.Machine
end

