-- ==== Sys2Proof/Laws/Codec.lean ====
section
/-! SUPPORT. The laws of CODEC: the decimal spelling and its reading (41_codec.md R143, R149), one step of the
receive state machine in terms of the token (R141), and the transmit path (R148, R150). -/
namespace Sys2Proof.Machine

/-! ### Decimal numbers -/

theorem digitByte_toNat (n : Nat) (h : n < 10) : (digitByte n).toNat = 0x30 + n := by
  simp only [digitByte, BitVec.toNat_ofNat]; omega

theorem isDigit_digitByte (n : Nat) (h : n < 10) : isDigit (digitByte n) = true := by
  simp only [isDigit, digitByte_toNat n h, decide_eq_true_eq]; omega

theorem digitValue_digitByte (n : Nat) (h : n < 10) : digitValue (digitByte n) = n := by
  simp only [digitValue, digitByte_toNat n h]; omega

/-- Reading a digit string from an accumulator. -/
theorem decimalValue_foldl (ds : List Byte) (v : Nat) :
    ds.foldl (fun v d => v * 10 + digitValue d) v = v * 10 ^ ds.length + decimalValue ds := by
  unfold decimalValue
  induction ds generalizing v with
  | nil => simp
  | cons d ds ih =>
    simp only [List.foldl_cons, List.length_cons]
    rw [ih (v * 10 + digitValue d), ih (0 * 10 + digitValue d)]
    ring

theorem decimalValue_cons (d : Byte) (ds : List Byte) :
    decimalValue (d :: ds) = digitValue d * 10 ^ ds.length + decimalValue ds := by
  show ds.foldl _ (0 * 10 + digitValue d) = _
  rw [decimalValue_foldl]; ring

/-- The recurrence of `parse_uint` (R143) computes the decimal value. -/
theorem decimalValue_of_recurrence (ds : List Byte) (v : Nat → Nat) (h0 : v 0 = 0)
    (h : ∀ i, i < ds.length → v (i + 1) = v i * 10 + ((ds.getD i 0).toNat - 0x30)) :
    v ds.length = decimalValue ds := by
  have hpre : ∀ n, n ≤ ds.length → v n = decimalValue (ds.take n) := by
    intro n
    induction n with
    | zero => intro _; simp [h0, decimalValue]
    | succ n ih =>
      intro hn
      rw [h n (by omega), ih (by omega), List.take_add_one, List.getElem?_eq_getElem (by omega)]
      simp only [decimalValue, Option.toList_some, List.foldl_append, List.foldl_cons, List.foldl_nil,
        digitValue, List.getD_eq_getElem?_getD, List.getElem?_eq_getElem (show n < ds.length by omega),
        Option.getD_some]
  simpa using hpre _ le_rfl

/-- What `decDigits` puts in front of a digit string: the digits of the number, and no more than it may. -/
theorem decDigits_spec (k v : Nat) (tail : List Byte) (hk : 1 ≤ k) (hv : v < 10 ^ k)
    (ht : ∀ d ∈ tail, isDigit d = true) :
    decimalValue (decDigits k v tail) = v * 10 ^ tail.length + decimalValue tail ∧
      (∀ d ∈ decDigits k v tail, isDigit d = true) ∧
      tail.length < (decDigits k v tail).length ∧ (decDigits k v tail).length ≤ tail.length + k := by
  induction k generalizing v tail with
  | zero => omega
  | succ k ih =>
    simp only [decDigits]
    split
    · rename_i h
      refine ⟨by rw [decimalValue_cons, digitValue_digitByte v h], ?_, by simp, by simp⟩
      intro d hd
      rcases List.mem_cons.mp hd with rfl | hd
      · exact isDigit_digitByte v h
      · exact ht d hd
    · rename_i h
      have hm : v % 10 < 10 := Nat.mod_lt _ (by omega)
      have hk' : 1 ≤ k := by
        rcases k with _ | k
        · simp at hv; omega
        · omega
      have hv' : v / 10 < 10 ^ k := by
        rw [Nat.div_lt_iff_lt_mul (by omega)]
        rw [pow_succ] at hv
        exact hv
      obtain ⟨h1, h2, h3, h4⟩ := ih (v / 10) (digitByte (v % 10) :: tail) hk' hv' (by
        intro d hd
        rcases List.mem_cons.mp hd with rfl | hd
        · exact isDigit_digitByte _ hm
        · exact ht d hd)
      refine ⟨?_, h2, by simp at h3; omega, by simp at h4; omega⟩
      rw [h1, decimalValue_cons, digitValue_digitByte _ hm, List.length_cons, pow_succ]
      have : v = v / 10 * 10 + v % 10 := by omega
      conv_rhs => rw [this]
      ring

/-- `dec` spells a word with one to ten digits, and its digits read back as the word (R8, R143). -/
theorem dec_spec (v : Word) :
    decimalValue (dec v) = v.toNat ∧ (∀ d ∈ dec v, isDigit d = true) ∧ 1 ≤ (dec v).length ∧
      (dec v).length ≤ 10 := by
  have hv := v.isLt
  obtain ⟨h1, h2, h3, h4⟩ := decDigits_spec 10 v.toNat [] (by omega) (by omega) (by simp)
  exact ⟨by simpa [dec, decimalValue] using h1, h2, Nat.succ_le_of_lt (by simpa only [dec, List.length_nil] using h3), by simpa [dec] using h4⟩

/-- The digits of a number other than 0 do not begin with the digit 0. -/
theorem decDigits_head (k v : Nat) (tail : List Byte) (hv : v < 10 ^ k) (h0 : v ≠ 0) :
    (decDigits k v tail).head? ≠ some 0x30 := by
  induction k generalizing v tail with
  | zero => omega
  | succ k ih =>
    simp only [decDigits]
    split
    · rename_i h
      intro hd
      have hz := digitValue_digitByte v h
      rw [Option.some.inj hd] at hz
      exact h0 hz.symm
    · rw [pow_succ] at hv
      exact ih _ _ ((Nat.div_lt_iff_lt_mul (by omega)).mpr hv) (by omega)

/-- `dec` spells a word other than 0 without a leading zero (R8, R149). -/
theorem dec_head (v : Word) (h : v ≠ 0) : (dec v).head? ≠ some 0x30 :=
  decDigits_head 10 v.toNat [] (lt_trans v.isLt (by decide)) (by simpa [BitVec.toNat_eq] using h)

/-- Both settings of `PARSE_OVF` read a number that fits a word as itself (R143). -/
theorem parseUint_of_lt (ovf : ParseOvf) (ds : List Byte) (h : decimalValue ds < 2 ^ 32) :
    (parseUint ovf ds).toNat = decimalValue ds := by
  cases ovf
  · simp only [parseUint, BitVec.toNat_ofNat]; omega
  · simp only [parseUint, BitVec.toNat_ofNat]; omega

/-- Reading back a spelled word (R154). -/
theorem parseUint_dec (ovf : ParseOvf) (v : Word) : parseUint ovf (dec v) = v := by
  apply BitVec.eq_of_toNat_eq
  have h := (dec_spec v).1
  rw [parseUint_of_lt ovf _ (by have := v.isLt; omega), h]

/-! ### The receive state machine -/

theorem Codec.wf_iff (k : Codec) :
    k.wf = true ↔ k.len ≤ 11 ∧ Memory.wf k.tok = true ∧ Memory.within k.tok 11 = true ∧
      ∀ i < k.len, legalTokByte i (Memory.read k.tok i) = true := by
  simp only [Codec.wf, Bool.and_eq_true, decide_eq_true_eq, List.all_eq_true, List.mem_range, and_assoc]
  rfl

@[simp] theorem Codec.token_length (k : Codec) : k.token.length = k.len := by simp [Codec.token]

/-- A byte is in at most one class (R140). -/
theorem not_isLetter_of_isDigit (b : Byte) (h : isDigit b = true) : isLetter b = false := by
  simp only [isDigit, isLetter, decide_eq_true_eq, decide_eq_false_iff_not] at *; omega

/-- A letter starts a new token whatever the state (R141). -/
theorem Codec.feed_letter (k : Codec) (ovf : ParseOvf) (b : Byte) (h : k.wf = true)
    (hb : isLetter b = true) :
    ∃ tok, k.feed ovf b = some ({ k with tok := tok, len := 1 }, none) ∧
      Codec.wf { k with tok := tok, len := 1 } = true ∧
      Codec.token { k with tok := tok, len := 1 } = [b] ∧
      ∀ x, Memory.read tok x = if x = 0 then b else Memory.read k.tok x := by
  obtain ⟨hl, hm, hw, ht⟩ := (Codec.wf_iff k).mp h
  have hr := Memory.read_write k.tok 0 b
  refine ⟨Memory.write k.tok 0 b, ?_, ?_, ?_, fun x => hr x hm⟩
  · simp [Codec.feed, hb, Memory.store, Memory.writeAll, Config.tokSize]
  · refine (Codec.wf_iff _).mpr ⟨by simp, Memory.write_wf _ _ _ hm,
      Memory.write_within _ _ _ _ hw (by omega), ?_⟩
    intro i hi
    have : i = 0 := by simp only at hi; omega
    subst this
    simp [hr 0 hm, legalTokByte, hb]
  · simp [Codec.token, hr 0 hm]

/-- A digit extends a token that has room and drops the rest (R141, R144). -/
theorem Codec.feed_digit (k : Codec) (ovf : ParseOvf) (b : Byte) (h : k.wf = true)
    (hb : isDigit b = true) :
    (1 ≤ k.len ∧ k.len ≤ 10 →
      ∃ tok, k.feed ovf b = some ({ k with tok := tok, len := k.len + 1 }, none) ∧
        Codec.wf { k with tok := tok, len := k.len + 1 } = true ∧
        Codec.token { k with tok := tok, len := k.len + 1 } = k.token ++ [b] ∧
        ∀ x, Memory.read tok x = if x = k.len then b else Memory.read k.tok x) ∧
      (¬ (1 ≤ k.len ∧ k.len ≤ 10) → k.feed ovf b = some (k.idle, none)) := by
  obtain ⟨hl, hm, hw, ht⟩ := (Codec.wf_iff k).mp h
  have hnl := not_isLetter_of_isDigit b hb
  have hr := Memory.read_write k.tok k.len b
  constructor
  · intro hk
    have hin : k.len + 1 ≤ 11 := by omega
    refine ⟨Memory.write k.tok k.len b, ?_, ?_, ?_, fun x => hr x hm⟩
    · simp only [Codec.feed, hb, hnl, if_pos hk, Memory.store, Memory.writeAll, Config.tokSize,
        List.length_cons, List.length_nil, Nat.zero_add, if_pos hin, Bool.false_eq_true, if_false,
        if_true]
    · refine (Codec.wf_iff _).mpr ⟨hin, Memory.write_wf _ _ _ hm,
        Memory.write_within _ _ _ _ hw (by omega), ?_⟩
      intro i hi
      simp only at hi ⊢
      rw [hr i hm]
      split
      · subst i
        have : k.len ≠ 0 := by omega
        simp [legalTokByte, this, hb]
      · exact ht i (by omega)
    · simp only [Codec.token, List.range_succ, List.map_append, List.map_cons, List.map_nil]
      congr 1
      · apply List.map_congr_left
        intro i hi
        have : i ≠ k.len := by have := List.mem_range.mp hi; omega
        rw [hr i hm, if_neg this]
      · rw [hr k.len hm, if_pos rfl]
  · intro hk
    simp [Codec.feed, hb, hnl, hk]

/-- The comma ends the token and emits a command unless the token is empty (R141). -/
theorem Codec.feed_comma (k : Codec) (ovf : ParseOvf) (h : k.wf = true) :
    k.feed ovf comma = some (k.idle,
      match k.token with
      | [] => none
      | code :: digits => some (code, if digits = [] then 0 else parseUint ovf digits)) := by
  obtain ⟨hl, hm, hw, ht⟩ := (Codec.wf_iff k).mp h
  have h1 : isLetter comma = false := by decide
  have h2 : isDigit comma = false := by decide
  simp only [Codec.feed, h1, h2, Bool.false_eq_true, if_false, if_true]
  by_cases hz : k.len = 0
  · have : k.token = [] := by simp [Codec.token, hz]
    simp [hz, this]
  · obtain ⟨n, hn⟩ : ∃ n, k.len = n + 1 := ⟨k.len - 1, by omega⟩
    have hin : 1 + n ≤ 11 := by omega
    have htok : k.token = Memory.read k.tok 0 ::
        (List.range n).map fun i => Memory.read k.tok (1 + i) := by
      simp only [Codec.token, hn, List.range_succ_eq_map, List.map_cons, List.map_map]
      congr 1
      apply List.map_congr_left
      intro i _
      simp [Nat.add_comm]
    rw [htok]
    simp only [hn, Nat.add_sub_cancel, Memory.load, Config.tokSize, if_pos hin]
    rcases n with _ | n <;> simp

/-- Any other byte drops the token (R141). -/
theorem Codec.feed_other (k : Codec) (ovf : ParseOvf) (b : Byte) (h1 : isLetter b = false)
    (h2 : isDigit b = false) (h3 : b ≠ comma) : k.feed ovf b = some (k.idle, none) := by
  simp [Codec.feed, h1, h2, h3]

theorem Codec.idle_wf (k : Codec) (h : k.wf = true) : k.idle.wf = true := by
  obtain ⟨hl, hm, hw, ht⟩ := (Codec.wf_iff k).mp h
  exact (Codec.wf_iff _).mpr ⟨by simp [Codec.idle], hm, hw, by simp [Codec.idle]⟩

/-- Everything one received byte can do on a legal parser: it never stops, keeps the parser legal and the
transmit flags, and emits a letter code only (R141, R144). -/
theorem Codec.feed_spec (k : Codec) (ovf : ParseOvf) (b : Byte) (h : k.wf = true) :
    ∃ k' o, k.feed ovf b = some (k', o) ∧ k'.wf = true ∧ k'.inUi = k.inUi ∧ k'.sol = k.sol ∧
      ∀ c v, o = some (c, v) → isLetter c = true ∧ b = comma := by
  by_cases h1 : isLetter b = true
  · obtain ⟨tok, hf, hw, -⟩ := Codec.feed_letter k ovf b h h1
    exact ⟨_, _, hf, hw, rfl, rfl, by simp⟩
  · by_cases h2 : isDigit b = true
    · obtain ⟨ha, hd⟩ := Codec.feed_digit k ovf b h h2
      by_cases hk : 1 ≤ k.len ∧ k.len ≤ 10
      · obtain ⟨tok, hf, hw, -⟩ := ha hk
        exact ⟨_, _, hf, hw, rfl, rfl, by simp⟩
      · exact ⟨_, _, hd hk, Codec.idle_wf k h, rfl, rfl, by simp⟩
    · by_cases h3 : b = comma
      · subst h3
        refine ⟨_, _, Codec.feed_comma k ovf h, Codec.idle_wf k h, rfl, rfl, ?_⟩
        intro c v hcv
        obtain ⟨hl, hm, hw, ht⟩ := (Codec.wf_iff k).mp h
        refine ⟨?_, rfl⟩
        cases htok : k.token with
        | nil => simp [htok] at hcv
        | cons code digits =>
          simp only [htok, Option.some.injEq, Prod.mk.injEq] at hcv
          have hlen : 0 < k.len := by
            have := Codec.token_length k
            rw [htok] at this; simp at this; omega
          have h0 := ht 0 hlen
          have hc : k.token[0]? = some code := by rw [htok]; rfl
          simp [Codec.token, hlen] at hc
          rw [hc] at h0
          rw [← hcv.1]
          simpa [legalTokByte] using h0
      · exact ⟨_, _, Codec.feed_other k ovf b (by simpa using h1) (by simpa using h2) h3,
          Codec.idle_wf k h, rfl, rfl, by simp⟩

/-! ### The transmit path -/

/-- Everything `emit` does on a legal transmit FIFO (R149, R150, R152): the terminator whole or not at all,
then the leading bytes that fit. -/
theorem Transport.emit_spec (t : Transport) (eol : List Byte) (ui : Bool) (d : List Byte)
    (h : t.tx.wf = true) :
    ∃ t', t.emit eol ui d = some (t', t.eolFirst eol ui, min d.length (t.roomAfter eol ui)) ∧
      t'.tx.wf = true ∧ t'.tx.size = t.tx.size ∧ t'.tx.start = t.tx.start ∧ t'.rx = t.rx ∧
      t'.tx.queue = t.tx.queue ++ (if t.eolFirst eol ui then eol else []) ++
        d.take (min d.length (t.roomAfter eol ui)) ∧
      t'.codec = { t.codec with
        inUi := ui
        sol := if 0 < min d.length (t.roomAfter eol ui) then false
          else if t.eolFirst eol ui then true else t.codec.sol } := by
  by_cases hc : t.codec.inUi ≠ ui ∧ t.codec.sol = false
  · by_cases hr : eol.length ≤ t.tx.free
    · obtain ⟨q1, hp1, hw1, hs1, hst1, -, hu1, hq1⟩ := Fifo.put_spec t.tx eol h
      have hm : min eol.length t.tx.free = eol.length := by omega
      rw [hm] at hp1 hu1 hq1
      have hfree : q1.free = t.tx.free - eol.length := by
        have ha := Fifo.used_add_free q1 hw1
        have hb := Fifo.used_add_free t.tx h
        omega
      obtain ⟨q2, hp2, hw2, hs2, hst2, -, hu2, hq2⟩ := Fifo.put_spec q1 d hw1
      have he : t.eolFirst eol ui = true := by simp [Transport.eolFirst, hc, hr]
      rw [hfree] at hp2 hq2
      refine ⟨{ rx := t.rx, tx := q2, codec := { t.codec with
        inUi := ui
        sol := if 0 < min d.length (t.roomAfter eol ui) then false
          else if t.eolFirst eol ui then true else t.codec.sol } }, ?_, ?_⟩
      · simp only [Transport.emit, if_pos hc, Transport.tryEol, if_pos hr, Transport.txPut, hp1, hp2,
          Transport.roomAfter, he, if_true]
      · refine ⟨hw2, hs2.trans hs1, hst2.trans hst1, rfl, ?_, rfl⟩
        rw [hq2, hq1]; simp [he, Transport.roomAfter]
    · have he : t.eolFirst eol ui = false := by simp [Transport.eolFirst, hr]
      obtain ⟨q2, hp2, hw2, hs2, hst2, -, hu2, hq2⟩ := Fifo.put_spec t.tx d h
      refine ⟨{ rx := t.rx, tx := q2, codec := { t.codec with
        inUi := ui
        sol := if 0 < min d.length (t.roomAfter eol ui) then false
          else if t.eolFirst eol ui then true else t.codec.sol } }, ?_, ?_⟩
      · simp only [Transport.emit, if_pos hc, Transport.tryEol, if_neg hr, Transport.txPut, hp2,
          Transport.roomAfter, he, Bool.false_eq_true, if_false]
      · refine ⟨hw2, hs2, hst2, rfl, ?_, rfl⟩
        rw [hq2]; simp [he, Transport.roomAfter]
  · have he : t.eolFirst eol ui = false := by
      simp only [Transport.eolFirst, decide_eq_false_iff_not]
      exact fun hx => hc ⟨hx.1, hx.2.1⟩
    obtain ⟨q2, hp2, hw2, hs2, hst2, -, hu2, hq2⟩ := Fifo.put_spec t.tx d h
    refine ⟨{ rx := t.rx, tx := q2, codec := { t.codec with
        inUi := ui
        sol := if 0 < min d.length (t.roomAfter eol ui) then false
          else if t.eolFirst eol ui then true else t.codec.sol } }, ?_, ?_⟩
    · simp only [Transport.emit, if_neg hc, Transport.txPut, hp2, Transport.roomAfter, he, Bool.false_eq_true, if_false]
    · refine ⟨hw2, hs2, hst2, rfl, ?_, rfl⟩
      rw [hq2]; simp [he, Transport.roomAfter]

end Sys2Proof.Machine
end

