-- ==== Sys2Proof/Laws/Decode.lean ====
section
/-! SUPPORT. The header layout of 30_encoding.md R81: reading a field of a header gives what was put there, and
a header matches a row exactly when each of its fields does. -/
namespace Sys2Proof

theorem opField_mkHeader (op : Op) (inst : Byte) (imm : Half) : opField (mkHeader op inst imm) = op.code := by
  apply BitVec.eq_of_getLsbD_eq
  intro i hi
  simp only [opField, mkHeader, BitVec.getLsbD_extractLsb', BitVec.getLsbD_append, hi, decide_true,
    Bool.true_and]
  rw [if_neg (by omega), if_neg (by omega)]
  congr 1; omega

theorem instField_mkHeader (op : Op) (inst : Byte) (imm : Half) :
    instField (mkHeader op inst imm) = inst := by
  apply BitVec.eq_of_getLsbD_eq
  intro i hi
  simp only [instField, mkHeader, BitVec.getLsbD_extractLsb', BitVec.getLsbD_append, hi, decide_true,
    Bool.true_and]
  rw [if_neg (by omega), if_pos (by omega)]
  congr 1; omega

theorem immField_mkHeader (op : Op) (inst : Byte) (imm : Half) :
    immField (mkHeader op inst imm) = imm := by
  apply BitVec.eq_of_getLsbD_eq
  intro i hi
  simp only [immField, mkHeader, BitVec.getLsbD_extractLsb', BitVec.getLsbD_append, hi, decide_true,
    Bool.true_and, Nat.zero_add, if_true]

theorem byteField_mkHeader (op : Op) (inst b : Byte) : byteField (mkHeader op inst (byteImm b)) = b := by
  apply BitVec.eq_of_getLsbD_eq
  intro i hi
  simp only [byteField, mkHeader, byteImm, BitVec.getLsbD_extractLsb', BitVec.getLsbD_append, hi,
    decide_true, Bool.true_and, Nat.zero_add, BitVec.getLsbD_setWidth]
  rw [if_pos (by omega)]
  simp; omega

/-- A word is its three header fields (R81). -/
theorem header_eq (h : Word) : h = opField h ++ instField h ++ immField h := by
  apply BitVec.eq_of_getLsbD_eq
  intro i hi
  simp only [opField, instField, immField, BitVec.getLsbD_append, BitVec.getLsbD_extractLsb']
  by_cases h1 : i < 16
  · simp [h1]
  · by_cases h2 : i - 16 < 8
    · rw [if_neg h1, if_pos h2]
      simp only [h2, decide_true, Bool.true_and]
      congr 1; omega
    · rw [if_neg h1, if_neg h2]
      have h3 : i - 16 - 8 < 8 := by omega
      simp only [h3, decide_true, Bool.true_and]
      congr 1; omega

theorem append_inj {a a' b b' : Byte} {c c' : Half} (h : a ++ b ++ c = a' ++ b' ++ c') :
    a = a' ∧ b = b' ∧ c = c' := by
  have h1 := congrArg (BitVec.extractLsb' 24 8) h
  have h2 := congrArg (BitVec.extractLsb' 16 8) h
  have h3 := congrArg (BitVec.extractLsb' 0 16) h
  have e1 (x y : Byte) (z : Half) : BitVec.extractLsb' 24 8 (x ++ y ++ z) = x := by
    apply BitVec.eq_of_getLsbD_eq
    intro i hi
    simp only [BitVec.getLsbD_extractLsb', BitVec.getLsbD_append, hi, decide_true, Bool.true_and]
    rw [if_neg (by omega), if_neg (by omega)]
    congr 1; omega
  have e2 (x y : Byte) (z : Half) : BitVec.extractLsb' 16 8 (x ++ y ++ z) = y := by
    apply BitVec.eq_of_getLsbD_eq
    intro i hi
    simp only [BitVec.getLsbD_extractLsb', BitVec.getLsbD_append, hi, decide_true, Bool.true_and]
    rw [if_neg (by omega), if_pos (by omega)]
    congr 1; omega
  have e3 (x y : Byte) (z : Half) : BitVec.extractLsb' 0 16 (x ++ y ++ z) = z := by
    apply BitVec.eq_of_getLsbD_eq
    intro i hi
    simp only [BitVec.getLsbD_extractLsb', BitVec.getLsbD_append, hi, decide_true, Bool.true_and,
      Nat.zero_add, if_true]
  rw [e1, e1] at h1
  rw [e2, e2] at h2
  rw [e3, e3] at h3
  exact ⟨h1, h2, h3⟩

theorem and_append (a a' b b' : Byte) (c c' : Half) :
    (a ++ b ++ c) &&& (a' ++ b' ++ c') = (a &&& a') ++ (b &&& b') ++ (c &&& c') := by
  apply BitVec.eq_of_getLsbD_eq
  intro i hi
  simp only [BitVec.getLsbD_and, BitVec.getLsbD_append]
  split
  · rfl
  · split <;> rfl

/-- A header matches a row exactly when each of its three fields matches (R81, R84). -/
theorem Row.spells_iff (r : Row) (op : Op) (inst : Byte) (imm : Half) :
    r.spells (mkHeader op inst imm) = true ↔
      op.code &&& opField r.mask = opField r.pat ∧ inst &&& instField r.mask = instField r.pat ∧
        imm &&& immField r.mask = immField r.pat := by
  simp only [Row.spells, beq_iff_eq]
  conv_lhs => rw [header_eq r.mask, header_eq r.pat, mkHeader, and_append]
  constructor
  · exact append_inj
  · rintro ⟨h1, h2, h3⟩
    rw [h1, h2, h3]

theorem Row.spells_eq (r : Row) (op : Op) (inst : Byte) (imm : Half) :
    r.spells (mkHeader op inst imm) =
      decide (op.code &&& opField r.mask = opField r.pat ∧ inst &&& instField r.mask = instField r.pat ∧
        imm &&& immField r.mask = immField r.pat) := by
  have := Row.spells_iff r op inst imm
  by_cases hs : r.spells (mkHeader op inst imm) = true
  · rw [hs, eq_comm, decide_eq_true_eq]; exact this.mp hs
  · rw [Bool.eq_false_of_not_eq_true hs, eq_comm, decide_eq_false_iff_not]
    exact fun h => hs (this.mpr h)

/-- The row of an operation (R84). -/
def Op.row : Op → Row
  | .cfgrd => ⟨.cfgrd, 0x01000000, 0xFFFF0000, .h⟩
  | .cfgwr => ⟨.cfgwr, 0x02000000, 0xFFFF0000, .hv⟩
  | .fpush => ⟨.fpush, 0x10000000, 0xFF00FF00, .h⟩
  | .fpop => ⟨.fpop, 0x11000000, 0xFF00FFFF, .h⟩
  | .fwrite => ⟨.fwrite, 0x12000000, 0xFF000000, .hb⟩
  | .fread => ⟨.fread, 0x13000000, 0xFF000000, .h⟩
  | .favail => ⟨.favail, 0x14000000, 0xFF00FFFF, .h⟩
  | .ffree => ⟨.ffree, 0x15000000, 0xFF00FFFF, .h⟩
  | .esync => ⟨.esync, 0x20000000, 0xFF00FFFF, .h⟩
  | .pupdate => ⟨.pupdate, 0x30000000, 0xFF00FFFF, .h3⟩
  | .cupdate => ⟨.cupdate, 0x31000000, 0xFFFFFFFF, .h4⟩
  | .tpoll => ⟨.tpoll, 0x40000000, 0xFFFFFFFF, .h⟩
  | .tnext => ⟨.tnext, 0x41000000, 0xFFFFFFFF, .h⟩
  | .crx => ⟨.crx, 0x50000000, 0xFF00FF00, .h⟩
  | .csend => ⟨.csend, 0x51000000, 0xFF00FF00, .hv⟩
  | .cui => ⟨.cui, 0x52000000, 0xFF00FF00, .h⟩

/-- The rows are disjoint (R84): no header matches two of them. -/
theorem rows_disjoint :
    rows.Pairwise fun a b => (a.pat ^^^ b.pat) &&& (a.mask &&& b.mask) ≠ 0 := by decide

/-- A byte immediate has no bit above 7 (R83). -/
theorem byteImm_masked (b : Byte) : byteImm b &&& 0xFF00 = 0 := by
  apply BitVec.eq_of_getLsbD_eq
  intro i hi
  simp only [byteImm, BitVec.getLsbD_and, BitVec.getLsbD_setWidth]
  by_cases h : i < 8
  · have : (0xFF00 : Half).getLsbD i = false := by
      have : ∀ j : Fin 8, (0xFF00 : Half).getLsbD j.val = false := by decide
      exact this ⟨i, h⟩
    rw [this, Bool.and_false]
    exact (BitVec.getLsbD_zero ..).symm
  · simp [BitVec.getLsbD_of_ge b i (by omega)]

/-- A row matches no header of another opcode, whatever the other fields hold. -/
theorem Row.spells_of_op_ne (r : Row) (op : Op) (inst : Byte) (imm : Half)
    (h : op.code &&& opField r.mask ≠ opField r.pat) : r.spells (mkHeader op inst imm) = false := by
  rw [Row.spells_eq]
  exact decide_eq_false fun hx => h hx.1

/-- The one element that meets a predicate is the one found. -/
theorem find_eq_some_of_unique {α : Type} (l : List α) (p : α → Bool) (x : α) (hx : x ∈ l)
    (hp : p x = true) (hu : ∀ y ∈ l, p y = true → y = x) : l.find? p = some x := by
  cases h : l.find? p with
  | none => exact absurd hp (by simpa using List.find?_eq_none.mp h x hx)
  | some y => rw [hu y (List.mem_of_find?_eq_some h) (List.find?_some h)]

theorem Op.row_mem (op : Op) : op.row ∈ rows := by cases op <;> decide

/-- Two rows with the same opcode are one row (R84). -/
theorem Op.row_unique (op : Op) : ∀ r ∈ rows, op.code &&& opField r.mask = opField r.pat → r = op.row := by
  cases op <;> decide

/-- A header of an operation whose must-be-zero fields are zero is found at that operation's row. -/
theorem findRow_mkHeader (op : Op) (inst : Byte) (imm : Half)
    (h : op.row.spells (mkHeader op inst imm) = true) : findRow (mkHeader op inst imm) = some op.row :=
  find_eq_some_of_unique rows _ op.row op.row_mem h fun r hr hs =>
    op.row_unique r hr ((Row.spells_iff r op inst imm).mp hs).1

end Sys2Proof
end

