-- ==== Sys2Proof/Laws/State.lean ====
section
/-! SUPPORT. One lemma per field per update of the state, each true by unfolding, so that no proof unfolds a
record update. -/
namespace Sys2Proof.Machine

/-! ### `State.respond` -/

@[simp] theorem State.respond_transports (s : State) (op : Op) (res : Half) (ws : List Word) :
    (s.respond op res ws).transports = s.transports := rfl

@[simp] theorem State.respond_time (s : State) (op : Op) (res : Half) (ws : List Word) :
    (s.respond op res ws).time = s.time := rfl

@[simp] theorem State.respond_encs (s : State) (op : Op) (res : Half) (ws : List Word) :
    (s.respond op res ws).encs = s.encs := rfl

@[simp] theorem State.respond_pid (s : State) (op : Op) (res : Half) (ws : List Word) :
    (s.respond op res ws).pid = s.pid := rfl

@[simp] theorem State.respond_gains (s : State) (op : Op) (res : Half) (ws : List Word) :
    (s.respond op res ws).gains = s.gains := rfl

@[simp] theorem State.respond_actLeft (s : State) (op : Op) (res : Half) (ws : List Word) :
    (s.respond op res ws).actLeft = s.actLeft := rfl

@[simp] theorem State.respond_actRight (s : State) (op : Op) (res : Half) (ws : List Word) :
    (s.respond op res ws).actRight = s.actRight := rfl

@[simp] theorem State.respond_sched (s : State) (op : Op) (res : Half) (ws : List Word) :
    (s.respond op res ws).sched = s.sched := rfl

@[simp] theorem State.respond_faultReg (s : State) (op : Op) (res : Half) (ws : List Word) :
    (s.respond op res ws).faultReg = s.faultReg := rfl

@[simp] theorem State.respond_statusReg (s : State) (op : Op) (res : Half) (ws : List Word) :
    (s.respond op res ws).statusReg = s.statusReg := rfl

@[simp] theorem State.respond_vtarget (s : State) (op : Op) (res : Half) (ws : List Word) :
    (s.respond op res ws).vtarget = s.vtarget := rfl

@[simp] theorem State.respond_slip (s : State) (op : Op) (res : Half) (ws : List Word) :
    (s.respond op res ws).slip = s.slip := rfl

@[simp] theorem State.respond_motorEn (s : State) (op : Op) (res : Half) (ws : List Word) :
    (s.respond op res ws).motorEn = s.motorEn := rfl

@[simp] theorem State.respond_settings (s : State) (op : Op) (res : Half) (ws : List Word) :
    (s.respond op res ws).settings = s.settings := rfl

@[simp] theorem State.respond_inputs (s : State) (op : Op) (res : Half) (ws : List Word) :
    (s.respond op res ws).inputs = s.inputs := rfl

@[simp] theorem State.respond_response (s : State) (op : Op) (res : Half) (ws : List Word) :
    (s.respond op res ws).response = some ⟨respHeader op.code 0 res, ws⟩ := rfl

@[simp] theorem State.respond_fifo (s : State) (op : Op) (res : Half) (ws : List Word) (g : Nat) :
    (s.respond op res ws).fifo? g = s.fifo? g := rfl

@[simp] theorem State.respond_transport (s : State) (op : Op) (res : Half) (ws : List Word) (k : Nat) :
    (s.respond op res ws).transport? k = s.transport? k := rfl

@[simp] theorem State.respond_enc (s : State) (op : Op) (res : Half) (ws : List Word) (j : Nat) :
    (s.respond op res ws).enc? j = s.enc? j := rfl

/-! ### `State.raise` -/

@[simp] theorem State.raise_transports (s : State) (op : Byte) (c : FaultCode) :
    (s.raise op c).transports = s.transports := rfl

@[simp] theorem State.raise_time (s : State) (op : Byte) (c : FaultCode) :
    (s.raise op c).time = s.time := rfl

@[simp] theorem State.raise_encs (s : State) (op : Byte) (c : FaultCode) :
    (s.raise op c).encs = s.encs := rfl

@[simp] theorem State.raise_pid (s : State) (op : Byte) (c : FaultCode) :
    (s.raise op c).pid = s.pid := rfl

@[simp] theorem State.raise_gains (s : State) (op : Byte) (c : FaultCode) :
    (s.raise op c).gains = s.gains := rfl

@[simp] theorem State.raise_actLeft (s : State) (op : Byte) (c : FaultCode) :
    (s.raise op c).actLeft = s.actLeft := rfl

@[simp] theorem State.raise_actRight (s : State) (op : Byte) (c : FaultCode) :
    (s.raise op c).actRight = s.actRight := rfl

@[simp] theorem State.raise_sched (s : State) (op : Byte) (c : FaultCode) :
    (s.raise op c).sched = s.sched := rfl

@[simp] theorem State.raise_faultReg (s : State) (op : Byte) (c : FaultCode) :
    (s.raise op c).faultReg = setSticky s.faultReg c.code true := rfl

@[simp] theorem State.raise_statusReg (s : State) (op : Byte) (c : FaultCode) :
    (s.raise op c).statusReg = s.statusReg := rfl

@[simp] theorem State.raise_vtarget (s : State) (op : Byte) (c : FaultCode) :
    (s.raise op c).vtarget = s.vtarget := rfl

@[simp] theorem State.raise_slip (s : State) (op : Byte) (c : FaultCode) :
    (s.raise op c).slip = s.slip := rfl

@[simp] theorem State.raise_motorEn (s : State) (op : Byte) (c : FaultCode) :
    (s.raise op c).motorEn = s.motorEn := rfl

@[simp] theorem State.raise_settings (s : State) (op : Byte) (c : FaultCode) :
    (s.raise op c).settings = s.settings := rfl

@[simp] theorem State.raise_inputs (s : State) (op : Byte) (c : FaultCode) :
    (s.raise op c).inputs = s.inputs := rfl

@[simp] theorem State.raise_response (s : State) (op : Byte) (c : FaultCode) :
    (s.raise op c).response = some ⟨respHeader op (BitVec.ofNat 8 c.code) 0, []⟩ := rfl

@[simp] theorem State.raise_fifo (s : State) (op : Byte) (c : FaultCode) (g : Nat) :
    (s.raise op c).fifo? g = s.fifo? g := rfl

@[simp] theorem State.raise_transport (s : State) (op : Byte) (c : FaultCode) (k : Nat) :
    (s.raise op c).transport? k = s.transport? k := rfl

@[simp] theorem State.raise_enc (s : State) (op : Byte) (c : FaultCode) (j : Nat) :
    (s.raise op c).enc? j = s.enc? j := rfl

/-! ### `State.flagStatus` -/

@[simp] theorem State.flagStatus_transports (s : State) (n : Nat) (c : Bool) :
    (s.flagStatus n c).transports = s.transports := rfl

@[simp] theorem State.flagStatus_time (s : State) (n : Nat) (c : Bool) :
    (s.flagStatus n c).time = s.time := rfl

@[simp] theorem State.flagStatus_encs (s : State) (n : Nat) (c : Bool) :
    (s.flagStatus n c).encs = s.encs := rfl

@[simp] theorem State.flagStatus_pid (s : State) (n : Nat) (c : Bool) :
    (s.flagStatus n c).pid = s.pid := rfl

@[simp] theorem State.flagStatus_gains (s : State) (n : Nat) (c : Bool) :
    (s.flagStatus n c).gains = s.gains := rfl

@[simp] theorem State.flagStatus_actLeft (s : State) (n : Nat) (c : Bool) :
    (s.flagStatus n c).actLeft = s.actLeft := rfl

@[simp] theorem State.flagStatus_actRight (s : State) (n : Nat) (c : Bool) :
    (s.flagStatus n c).actRight = s.actRight := rfl

@[simp] theorem State.flagStatus_sched (s : State) (n : Nat) (c : Bool) :
    (s.flagStatus n c).sched = s.sched := rfl

@[simp] theorem State.flagStatus_faultReg (s : State) (n : Nat) (c : Bool) :
    (s.flagStatus n c).faultReg = s.faultReg := rfl

@[simp] theorem State.flagStatus_statusReg (s : State) (n : Nat) (c : Bool) :
    (s.flagStatus n c).statusReg = setSticky s.statusReg n c := rfl

@[simp] theorem State.flagStatus_vtarget (s : State) (n : Nat) (c : Bool) :
    (s.flagStatus n c).vtarget = s.vtarget := rfl

@[simp] theorem State.flagStatus_slip (s : State) (n : Nat) (c : Bool) :
    (s.flagStatus n c).slip = s.slip := rfl

@[simp] theorem State.flagStatus_motorEn (s : State) (n : Nat) (c : Bool) :
    (s.flagStatus n c).motorEn = s.motorEn := rfl

@[simp] theorem State.flagStatus_settings (s : State) (n : Nat) (c : Bool) :
    (s.flagStatus n c).settings = s.settings := rfl

@[simp] theorem State.flagStatus_inputs (s : State) (n : Nat) (c : Bool) :
    (s.flagStatus n c).inputs = s.inputs := rfl

@[simp] theorem State.flagStatus_response (s : State) (n : Nat) (c : Bool) :
    (s.flagStatus n c).response = s.response := rfl

@[simp] theorem State.flagStatus_fifo (s : State) (n : Nat) (c : Bool) (g : Nat) :
    (s.flagStatus n c).fifo? g = s.fifo? g := rfl

@[simp] theorem State.flagStatus_transport (s : State) (n : Nat) (c : Bool) (k : Nat) :
    (s.flagStatus n c).transport? k = s.transport? k := rfl

@[simp] theorem State.flagStatus_enc (s : State) (n : Nat) (c : Bool) (j : Nat) :
    (s.flagStatus n c).enc? j = s.enc? j := rfl

/-! ### `State.setFifo` -/

@[simp] theorem State.setFifo_transports (s : State) (f : Nat) (q : Fifo) :
    (s.setFifo f q).transports = s.transports.modify (f / 2) fun t => if f % 2 = 0 then { t with rx := q } else { t with tx := q } := rfl

@[simp] theorem State.setFifo_time (s : State) (f : Nat) (q : Fifo) :
    (s.setFifo f q).time = s.time := rfl

@[simp] theorem State.setFifo_encs (s : State) (f : Nat) (q : Fifo) :
    (s.setFifo f q).encs = s.encs := rfl

@[simp] theorem State.setFifo_pid (s : State) (f : Nat) (q : Fifo) :
    (s.setFifo f q).pid = s.pid := rfl

@[simp] theorem State.setFifo_gains (s : State) (f : Nat) (q : Fifo) :
    (s.setFifo f q).gains = s.gains := rfl

@[simp] theorem State.setFifo_actLeft (s : State) (f : Nat) (q : Fifo) :
    (s.setFifo f q).actLeft = s.actLeft := rfl

@[simp] theorem State.setFifo_actRight (s : State) (f : Nat) (q : Fifo) :
    (s.setFifo f q).actRight = s.actRight := rfl

@[simp] theorem State.setFifo_sched (s : State) (f : Nat) (q : Fifo) :
    (s.setFifo f q).sched = s.sched := rfl

@[simp] theorem State.setFifo_faultReg (s : State) (f : Nat) (q : Fifo) :
    (s.setFifo f q).faultReg = s.faultReg := rfl

@[simp] theorem State.setFifo_statusReg (s : State) (f : Nat) (q : Fifo) :
    (s.setFifo f q).statusReg = s.statusReg := rfl

@[simp] theorem State.setFifo_vtarget (s : State) (f : Nat) (q : Fifo) :
    (s.setFifo f q).vtarget = s.vtarget := rfl

@[simp] theorem State.setFifo_slip (s : State) (f : Nat) (q : Fifo) :
    (s.setFifo f q).slip = s.slip := rfl

@[simp] theorem State.setFifo_motorEn (s : State) (f : Nat) (q : Fifo) :
    (s.setFifo f q).motorEn = s.motorEn := rfl

@[simp] theorem State.setFifo_settings (s : State) (f : Nat) (q : Fifo) :
    (s.setFifo f q).settings = s.settings := rfl

@[simp] theorem State.setFifo_inputs (s : State) (f : Nat) (q : Fifo) :
    (s.setFifo f q).inputs = s.inputs := rfl

@[simp] theorem State.setFifo_response (s : State) (f : Nat) (q : Fifo) :
    (s.setFifo f q).response = s.response := rfl

@[simp] theorem State.setFifo_enc (s : State) (f : Nat) (q : Fifo) (j : Nat) :
    (s.setFifo f q).enc? j = s.enc? j := rfl

/-! ### `State.setTransport` -/

@[simp] theorem State.setTransport_transports (s : State) (c : Nat) (t : Transport) :
    (s.setTransport c t).transports = s.transports.set c t := rfl

@[simp] theorem State.setTransport_time (s : State) (c : Nat) (t : Transport) :
    (s.setTransport c t).time = s.time := rfl

@[simp] theorem State.setTransport_encs (s : State) (c : Nat) (t : Transport) :
    (s.setTransport c t).encs = s.encs := rfl

@[simp] theorem State.setTransport_pid (s : State) (c : Nat) (t : Transport) :
    (s.setTransport c t).pid = s.pid := rfl

@[simp] theorem State.setTransport_gains (s : State) (c : Nat) (t : Transport) :
    (s.setTransport c t).gains = s.gains := rfl

@[simp] theorem State.setTransport_actLeft (s : State) (c : Nat) (t : Transport) :
    (s.setTransport c t).actLeft = s.actLeft := rfl

@[simp] theorem State.setTransport_actRight (s : State) (c : Nat) (t : Transport) :
    (s.setTransport c t).actRight = s.actRight := rfl

@[simp] theorem State.setTransport_sched (s : State) (c : Nat) (t : Transport) :
    (s.setTransport c t).sched = s.sched := rfl

@[simp] theorem State.setTransport_faultReg (s : State) (c : Nat) (t : Transport) :
    (s.setTransport c t).faultReg = s.faultReg := rfl

@[simp] theorem State.setTransport_statusReg (s : State) (c : Nat) (t : Transport) :
    (s.setTransport c t).statusReg = s.statusReg := rfl

@[simp] theorem State.setTransport_vtarget (s : State) (c : Nat) (t : Transport) :
    (s.setTransport c t).vtarget = s.vtarget := rfl

@[simp] theorem State.setTransport_slip (s : State) (c : Nat) (t : Transport) :
    (s.setTransport c t).slip = s.slip := rfl

@[simp] theorem State.setTransport_motorEn (s : State) (c : Nat) (t : Transport) :
    (s.setTransport c t).motorEn = s.motorEn := rfl

@[simp] theorem State.setTransport_settings (s : State) (c : Nat) (t : Transport) :
    (s.setTransport c t).settings = s.settings := rfl

@[simp] theorem State.setTransport_inputs (s : State) (c : Nat) (t : Transport) :
    (s.setTransport c t).inputs = s.inputs := rfl

@[simp] theorem State.setTransport_response (s : State) (c : Nat) (t : Transport) :
    (s.setTransport c t).response = s.response := rfl

@[simp] theorem State.setTransport_enc (s : State) (c : Nat) (t : Transport) (j : Nat) :
    (s.setTransport c t).enc? j = s.enc? j := rfl

/-! ### `State.setEnc` -/

@[simp] theorem State.setEnc_transports (s : State) (e : Nat) (n : Enc) :
    (s.setEnc e n).transports = s.transports := rfl

@[simp] theorem State.setEnc_time (s : State) (e : Nat) (n : Enc) :
    (s.setEnc e n).time = s.time := rfl

@[simp] theorem State.setEnc_encs (s : State) (e : Nat) (n : Enc) :
    (s.setEnc e n).encs = s.encs.set e n := rfl

@[simp] theorem State.setEnc_pid (s : State) (e : Nat) (n : Enc) :
    (s.setEnc e n).pid = s.pid := rfl

@[simp] theorem State.setEnc_gains (s : State) (e : Nat) (n : Enc) :
    (s.setEnc e n).gains = s.gains := rfl

@[simp] theorem State.setEnc_actLeft (s : State) (e : Nat) (n : Enc) :
    (s.setEnc e n).actLeft = s.actLeft := rfl

@[simp] theorem State.setEnc_actRight (s : State) (e : Nat) (n : Enc) :
    (s.setEnc e n).actRight = s.actRight := rfl

@[simp] theorem State.setEnc_sched (s : State) (e : Nat) (n : Enc) :
    (s.setEnc e n).sched = s.sched := rfl

@[simp] theorem State.setEnc_faultReg (s : State) (e : Nat) (n : Enc) :
    (s.setEnc e n).faultReg = s.faultReg := rfl

@[simp] theorem State.setEnc_statusReg (s : State) (e : Nat) (n : Enc) :
    (s.setEnc e n).statusReg = s.statusReg := rfl

@[simp] theorem State.setEnc_vtarget (s : State) (e : Nat) (n : Enc) :
    (s.setEnc e n).vtarget = s.vtarget := rfl

@[simp] theorem State.setEnc_slip (s : State) (e : Nat) (n : Enc) :
    (s.setEnc e n).slip = s.slip := rfl

@[simp] theorem State.setEnc_motorEn (s : State) (e : Nat) (n : Enc) :
    (s.setEnc e n).motorEn = s.motorEn := rfl

@[simp] theorem State.setEnc_settings (s : State) (e : Nat) (n : Enc) :
    (s.setEnc e n).settings = s.settings := rfl

@[simp] theorem State.setEnc_inputs (s : State) (e : Nat) (n : Enc) :
    (s.setEnc e n).inputs = s.inputs := rfl

@[simp] theorem State.setEnc_response (s : State) (e : Nat) (n : Enc) :
    (s.setEnc e n).response = s.response := rfl

@[simp] theorem State.setEnc_fifo (s : State) (e : Nat) (n : Enc) (g : Nat) :
    (s.setEnc e n).fifo? g = s.fifo? g := rfl

@[simp] theorem State.setEnc_transport (s : State) (e : Nat) (n : Enc) (k : Nat) :
    (s.setEnc e n).transport? k = s.transport? k := rfl

/-! ### `State.offer` -/

@[simp] theorem State.offer_transports (s : State) (i : Input) :
    (s.offer i).transports = s.transports := rfl

@[simp] theorem State.offer_time (s : State) (i : Input) :
    (s.offer i).time = s.time := rfl

@[simp] theorem State.offer_encs (s : State) (i : Input) :
    (s.offer i).encs = s.encs := rfl

@[simp] theorem State.offer_pid (s : State) (i : Input) :
    (s.offer i).pid = s.pid := rfl

@[simp] theorem State.offer_gains (s : State) (i : Input) :
    (s.offer i).gains = s.gains := rfl

@[simp] theorem State.offer_actLeft (s : State) (i : Input) :
    (s.offer i).actLeft = s.actLeft := rfl

@[simp] theorem State.offer_actRight (s : State) (i : Input) :
    (s.offer i).actRight = s.actRight := rfl

@[simp] theorem State.offer_sched (s : State) (i : Input) :
    (s.offer i).sched = s.sched := rfl

@[simp] theorem State.offer_faultReg (s : State) (i : Input) :
    (s.offer i).faultReg = s.faultReg := rfl

@[simp] theorem State.offer_statusReg (s : State) (i : Input) :
    (s.offer i).statusReg = s.statusReg := rfl

@[simp] theorem State.offer_vtarget (s : State) (i : Input) :
    (s.offer i).vtarget = s.vtarget := rfl

@[simp] theorem State.offer_slip (s : State) (i : Input) :
    (s.offer i).slip = s.slip := rfl

@[simp] theorem State.offer_motorEn (s : State) (i : Input) :
    (s.offer i).motorEn = s.motorEn := rfl

@[simp] theorem State.offer_settings (s : State) (i : Input) :
    (s.offer i).settings = s.settings := rfl

@[simp] theorem State.offer_inputs (s : State) (i : Input) :
    (s.offer i).inputs = i :: s.inputs := rfl

@[simp] theorem State.offer_response (s : State) (i : Input) :
    (s.offer i).response = s.response := rfl

@[simp] theorem State.offer_fifo (s : State) (i : Input) (g : Nat) :
    (s.offer i).fifo? g = s.fifo? g := rfl

@[simp] theorem State.offer_transport (s : State) (i : Input) (k : Nat) :
    (s.offer i).transport? k = s.transport? k := rfl

@[simp] theorem State.offer_enc (s : State) (i : Input) (j : Nat) :
    (s.offer i).enc? j = s.enc? j := rfl

/-! ### One value per axis -/

@[simp] theorem PerAxis.get_set {α : Type} (x : PerAxis α) (p r : Axis) (v : α) :
    (x.set p v).get r = if r = p then v else x.get r := by
  cases p <;> cases r <;> rfl

/-! ### Sticky bits -/

@[simp] theorem setSticky_false (w : Word) (n : Nat) : setSticky w n false = w := rfl

/-- A sticky register loses no bit (R46, R47). -/
theorem setSticky_keeps (w : Word) (n : Nat) (c : Bool) : w &&& setSticky w n c = w := by
  cases c
  · exact BitVec.and_self
  · ext i hi
    simp only [setSticky, if_true, BitVec.getElem_and, BitVec.getElem_or]
    cases w[i] <;> simp

end Sys2Proof.Machine
end

