-- ==== Sys2Proof/Laws/Instances.lean ====
section
/-! SUPPORT. Instances: which exist, and what replacing one leaves. -/
namespace Sys2Proof.Machine

/-- `FIFO[f]` exists exactly below `NFIFO` (R83). -/
theorem State.fifo_isSome (s : State) (f : Nat) : (s.fifo? f).isSome = true ↔ f < s.nfifo := by
  simp only [State.fifo?, Option.isSome_map, State.nfifo, isSome_getElem?]
  omega

theorem State.fifo_eq_none (s : State) (f : Nat) : s.fifo? f = none ↔ s.nfifo ≤ f := by
  have h := State.fifo_isSome s f
  cases hq : s.fifo? f with
  | none => simp [hq] at h; simpa using h
  | some q => simp [hq] at h; simpa using h

theorem State.transport_eq_none (s : State) (c : Nat) :
    s.transport? c = none ↔ s.transports.length ≤ c := by
  simp [State.transport?]

theorem State.enc_eq_none (s : State) (e : Nat) : s.enc? e = none ↔ s.encs.length ≤ e := by
  simp [State.enc?]

/-- Reading `FIFO[g]` after replacing `FIFO[f]`: the two are separate unless they are one. -/
theorem State.fifo_setFifo (s : State) (f : Nat) (q : Fifo) (g : Nat) :
    (s.setFifo f q).fifo? g = if g = f then (s.fifo? f).map (fun _ => q) else s.fifo? g := by
  simp only [State.fifo?, State.setFifo, List.getElem?_modify]
  by_cases h : g = f
  · subst h
    simp only [if_true]
    cases s.transports[g / 2]? with
    | none => rfl
    | some t => simp only [Option.map_some, Option.map_eq_map]; split <;> rfl
  · rw [if_neg h]
    cases s.transports[g / 2]? with
    | none => rfl
    | some t =>
      simp only [Option.map_eq_map, Option.map_some, Option.some.injEq]
      by_cases hd : f / 2 = g / 2
      · rw [if_pos hd]
        split <;> split <;> first | rfl | (exfalso; omega)
      · rw [if_neg hd]

@[simp] theorem State.nfifo_setFifo (s : State) (f : Nat) (q : Fifo) :
    (s.setFifo f q).nfifo = s.nfifo := by simp [State.nfifo]

/-- Replacing a FIFO by itself changes nothing. -/
theorem State.setFifo_same (s : State) (f : Nat) (q : Fifo) (h : s.fifo? f = some q) :
    s.setFifo f q = s := by
  have ht : (s.transports.modify (f / 2) fun t =>
      if f % 2 = 0 then { t with rx := q } else { t with tx := q }) = s.transports := by
    apply List.ext_getElem?
    intro i
    rw [List.getElem?_modify]
    simp only [State.fifo?] at h
    by_cases hi : f / 2 = i
    · subst hi
      cases hs : s.transports[f / 2]? with
      | none => rfl
      | some t =>
        rw [hs] at h
        simp only [Option.map_some, Option.some.injEq] at h
        simp only [Option.map_eq_map, Option.map_some, if_true, Option.some.injEq]
        split at h <;> subst h <;> simp [*]
    · simp [hi]
  unfold State.setFifo
  rw [ht]

/-- The CODEC of a transport does not change when a FIFO is replaced (R25). -/
theorem State.codec_setFifo (s : State) (f : Nat) (q : Fifo) (c : Nat) :
    ((s.setFifo f q).transport? c).map (·.codec) = (s.transport? c).map (·.codec) := by
  simp only [State.transport?, State.setFifo, List.getElem?_modify]
  cases s.transports[c]? with
  | none => rfl
  | some t => simp only [Option.map_eq_map, Option.map_some]; split <;> (try split) <;> rfl

/-- Every FIFO of a transport within its rules is within its rules. -/
theorem State.fifo_wf (s : State) (h : ∀ t ∈ s.transports, t.wf = true) (f : Nat) (q : Fifo)
    (hq : s.fifo? f = some q) : q.wf = true := by
  simp only [State.fifo?, Option.map_eq_some_iff] at hq
  obtain ⟨t, ht, rfl⟩ := hq
  have := h t (List.mem_of_getElem? ht)
  simp only [Transport.wf, Bool.and_eq_true] at this
  split
  · exact this.1.1
  · exact this.1.2

theorem State.transport_wf (s : State) (h : ∀ t ∈ s.transports, t.wf = true) (c : Nat) (t : Transport)
    (ht : s.transport? c = some t) : t.wf = true :=
  h t (List.mem_of_getElem? ht)

/-- Reading a transport after replacing one. -/
theorem State.transport_setTransport (s : State) (c : Nat) (t : Transport) (k : Nat) :
    (s.setTransport c t).transport? k =
      if k = c then (s.transport? c).map (fun _ => t) else s.transport? k := by
  simp only [State.transport?, State.setTransport, List.getElem?_set]
  by_cases h : k = c
  · subst h
    simp only [if_true]
    by_cases hl : k < s.transports.length
    · simp [hl]
    · simp [hl]
  · rw [if_neg h, if_neg (Ne.symm h)]

/-- Reading an encoder after replacing one. -/
theorem State.enc_setEnc (s : State) (e : Nat) (n : Enc) (k : Nat) :
    (s.setEnc e n).enc? k = if k = e then (s.enc? e).map (fun _ => n) else s.enc? k := by
  simp only [State.enc?, State.setEnc, List.getElem?_set]
  by_cases h : k = e
  · subst h
    simp only [if_true]
    by_cases hl : k < s.encs.length
    · simp [hl]
    · simp [hl]
  · rw [if_neg h, if_neg (Ne.symm h)]

/-- Replacing a FIFO by a legal one keeps every transport within its rules. -/
theorem State.setFifo_wf (s : State) (f : Nat) (q : Fifo) (hq : q.wf = true)
    (h : ∀ t ∈ s.transports, t.wf = true) : ∀ t ∈ (s.setFifo f q).transports, t.wf = true := by
  intro t ht
  obtain ⟨i, hi⟩ := List.mem_iff_getElem?.mp ht
  rw [State.setFifo_transports, List.getElem?_modify] at hi
  cases hs : s.transports[i]? with
  | none => simp [hs] at hi
  | some u =>
    have hu := h u (List.mem_of_getElem? hs)
    simp only [Transport.wf, Bool.and_eq_true] at hu
    simp only [hs, Option.map_eq_map, Option.map_some, Option.some.injEq] at hi
    subst hi
    split
    · split <;> simp [Transport.wf, hq, hu.1.1, hu.1.2, hu.2]
    · simp [Transport.wf, hu.1.1, hu.1.2, hu.2]

/-- Replacing a transport by a legal one keeps every transport within its rules. -/
theorem State.setTransport_wf (s : State) (c : Nat) (t : Transport) (ht : t.wf = true)
    (h : ∀ u ∈ s.transports, u.wf = true) : ∀ u ∈ (s.setTransport c t).transports, u.wf = true := by
  intro u hu
  rcases List.mem_or_eq_of_mem_set hu with hu | rfl
  · exact h u hu
  · exact ht

/-- The array sizes do not change when a FIFO is replaced by one of the same size (R22, R291). -/
theorem State.sizes_setFifo (s : State) (f : Nat) (q q0 : Fifo) (h : s.fifo? f = some q0)
    (hs : q.size = q0.size) : (s.setFifo f q).params = s.params := by
  have : (s.setFifo f q).transports.map (fun t => (t.rx.size, t.tx.size)) =
      s.transports.map fun t => (t.rx.size, t.tx.size) := by
    apply List.ext_getElem?
    intro i
    rw [State.setFifo_transports, List.getElem?_map, List.getElem?_map, List.getElem?_modify]
    simp only [State.fifo?] at h
    by_cases hi : f / 2 = i
    · subst hi
      cases ht : s.transports[f / 2]? with
      | none => rfl
      | some t =>
        rw [ht] at h
        simp only [Option.map_some, Option.some.injEq] at h
        simp only [Option.map_eq_map, Option.map_some, if_true, Option.some.injEq]
        split <;> simp_all
    · cases s.transports[i]? <;> simp [hi]
  simp only [State.params, this, State.setFifo_encs, State.setFifo_settings]

/-- The array sizes do not change when a transport is replaced by one of the same sizes. -/
theorem State.sizes_setTransport (s : State) (c : Nat) (t t0 : Transport) (h : s.transport? c = some t0)
    (hr : t.rx.size = t0.rx.size) (ht : t.tx.size = t0.tx.size) :
    (s.setTransport c t).params = s.params := by
  have : (s.setTransport c t).transports.map (fun u => (u.rx.size, u.tx.size)) =
      s.transports.map fun u => (u.rx.size, u.tx.size) := by
    apply List.ext_getElem?
    intro i
    rw [State.setTransport_transports, List.getElem?_map, List.getElem?_map, List.getElem?_set]
    simp only [State.transport?] at h
    by_cases hi : c = i
    · subst hi
      have hl : c < s.transports.length := by
        by_contra hl
        simp [List.getElem?_eq_none (Nat.le_of_not_lt hl)] at h
      rw [h]
      simp [hl, hr, ht]
    · simp [hi]
  simp only [State.params, this, State.setTransport_encs, State.setTransport_settings]

end Sys2Proof.Machine
end

