-- ==== Sys2Proof/Laws/Pid.lean ====
section
/-! SUPPORT. The laws of the PID update (43_pid.md R200) and of the actuator stage (R215): what each field of the
state is after one, and the ranges of what the datapath yields. -/
namespace Sys2Proof.Machine

/-! ### `State.actuate` -/

@[simp] theorem State.actuate_transports (s : State) (p : Axis) (cmd : Int) :
    (s.actuate p cmd).transports = s.transports := by cases p <;> rfl

@[simp] theorem State.actuate_time (s : State) (p : Axis) (cmd : Int) :
    (s.actuate p cmd).time = s.time := by cases p <;> rfl

@[simp] theorem State.actuate_encs (s : State) (p : Axis) (cmd : Int) :
    (s.actuate p cmd).encs = s.encs := by cases p <;> rfl

@[simp] theorem State.actuate_pid (s : State) (p : Axis) (cmd : Int) :
    (s.actuate p cmd).pid = s.pid := by cases p <;> rfl

@[simp] theorem State.actuate_gains (s : State) (p : Axis) (cmd : Int) :
    (s.actuate p cmd).gains = s.gains := by cases p <;> rfl

@[simp] theorem State.actuate_sched (s : State) (p : Axis) (cmd : Int) :
    (s.actuate p cmd).sched = s.sched := by cases p <;> rfl

@[simp] theorem State.actuate_faultReg (s : State) (p : Axis) (cmd : Int) :
    (s.actuate p cmd).faultReg = s.faultReg := by cases p <;> rfl

@[simp] theorem State.actuate_statusReg (s : State) (p : Axis) (cmd : Int) :
    (s.actuate p cmd).statusReg = s.statusReg := by cases p <;> rfl

@[simp] theorem State.actuate_vtarget (s : State) (p : Axis) (cmd : Int) :
    (s.actuate p cmd).vtarget = s.vtarget := by cases p <;> rfl

@[simp] theorem State.actuate_slip (s : State) (p : Axis) (cmd : Int) :
    (s.actuate p cmd).slip = s.slip := by cases p <;> rfl

@[simp] theorem State.actuate_motorEn (s : State) (p : Axis) (cmd : Int) :
    (s.actuate p cmd).motorEn = s.motorEn := by cases p <;> rfl

@[simp] theorem State.actuate_settings (s : State) (p : Axis) (cmd : Int) :
    (s.actuate p cmd).settings = s.settings := by cases p <;> rfl

@[simp] theorem State.actuate_inputs (s : State) (p : Axis) (cmd : Int) :
    (s.actuate p cmd).inputs = s.inputs := by cases p <;> rfl

@[simp] theorem State.actuate_response (s : State) (p : Axis) (cmd : Int) :
    (s.actuate p cmd).response = s.response := by cases p <;> rfl

@[simp] theorem State.actuate_actLeft (s : State) (p : Axis) (cmd : Int) :
    (s.actuate p cmd).actLeft =
      if p = .left then actValue (s.motorEn.getLsbD 0) s.settings.actMax cmd else s.actLeft := by
  cases p <;> rfl

@[simp] theorem State.actuate_actRight (s : State) (p : Axis) (cmd : Int) :
    (s.actuate p cmd).actRight =
      if p = .right then actValue (s.motorEn.getLsbD 1) s.settings.actMax cmd else s.actRight := by
  cases p <;> rfl

/-! ### `State.pidUpdate` -/

@[simp] theorem State.pidUpdate_transports (s : State) (p : Axis) (target actual : Int) (dt : Nat) :
    (s.pidUpdate p target actual dt).transports = s.transports := by simp [State.pidUpdate]

@[simp] theorem State.pidUpdate_time (s : State) (p : Axis) (target actual : Int) (dt : Nat) :
    (s.pidUpdate p target actual dt).time = s.time := by simp [State.pidUpdate]

@[simp] theorem State.pidUpdate_encs (s : State) (p : Axis) (target actual : Int) (dt : Nat) :
    (s.pidUpdate p target actual dt).encs = s.encs := by simp [State.pidUpdate]

@[simp] theorem State.pidUpdate_gains (s : State) (p : Axis) (target actual : Int) (dt : Nat) :
    (s.pidUpdate p target actual dt).gains = s.gains := by simp [State.pidUpdate]

@[simp] theorem State.pidUpdate_sched (s : State) (p : Axis) (target actual : Int) (dt : Nat) :
    (s.pidUpdate p target actual dt).sched = s.sched := by simp [State.pidUpdate]

@[simp] theorem State.pidUpdate_faultReg (s : State) (p : Axis) (target actual : Int) (dt : Nat) :
    (s.pidUpdate p target actual dt).faultReg = s.faultReg := by simp [State.pidUpdate]

@[simp] theorem State.pidUpdate_vtarget (s : State) (p : Axis) (target actual : Int) (dt : Nat) :
    (s.pidUpdate p target actual dt).vtarget = s.vtarget := by simp [State.pidUpdate]

@[simp] theorem State.pidUpdate_slip (s : State) (p : Axis) (target actual : Int) (dt : Nat) :
    (s.pidUpdate p target actual dt).slip = s.slip := by simp [State.pidUpdate]

@[simp] theorem State.pidUpdate_motorEn (s : State) (p : Axis) (target actual : Int) (dt : Nat) :
    (s.pidUpdate p target actual dt).motorEn = s.motorEn := by simp [State.pidUpdate]

@[simp] theorem State.pidUpdate_settings (s : State) (p : Axis) (target actual : Int) (dt : Nat) :
    (s.pidUpdate p target actual dt).settings = s.settings := by simp [State.pidUpdate]

@[simp] theorem State.pidUpdate_inputs (s : State) (p : Axis) (target actual : Int) (dt : Nat) :
    (s.pidUpdate p target actual dt).inputs = s.inputs := by simp [State.pidUpdate]

@[simp] theorem State.pidUpdate_response (s : State) (p : Axis) (target actual : Int) (dt : Nat) :
    (s.pidUpdate p target actual dt).response = s.response := by simp [State.pidUpdate]

@[simp] theorem State.pidUpdate_pid (s : State) (p : Axis) (target actual : Int) (dt : Nat) :
    (s.pidUpdate p target actual dt).pid =
      s.pid.set p ⟨u32 (s.pidResult p target actual dt).err, u32 (s.pidResult p target actual dt).integ⟩ := by
  simp [State.pidUpdate]

@[simp] theorem State.pidUpdate_statusReg (s : State) (p : Axis) (target actual : Int) (dt : Nat) :
    (s.pidUpdate p target actual dt).statusReg =
      setSticky s.statusReg p.number (s.pidResult p target actual dt).clipped := by
  simp [State.pidUpdate]

@[simp] theorem State.pidUpdate_actLeft (s : State) (p : Axis) (target actual : Int) (dt : Nat) :
    (s.pidUpdate p target actual dt).actLeft =
      if p = .left then
        actValue (s.motorEn.getLsbD 0) s.settings.actMax (s.pidResult p target actual dt).cmd
      else s.actLeft := by
  simp [State.pidUpdate]

@[simp] theorem State.pidUpdate_actRight (s : State) (p : Axis) (target actual : Int) (dt : Nat) :
    (s.pidUpdate p target actual dt).actRight =
      if p = .right then
        actValue (s.motorEn.getLsbD 1) s.settings.actMax (s.pidResult p target actual dt).cmd
      else s.actRight := by
  simp [State.pidUpdate]

/-- Every value the datapath yields is in the range of its register (R191, R200). -/
theorem pidCompute_ranges (g : Gains) (st : PidState) (target actual : Int) (dt : Nat) :
    (-2147483648 ≤ (pidCompute g st target actual dt).err ∧
        (pidCompute g st target actual dt).err ≤ 2147483647) ∧
      (-2147483648 ≤ (pidCompute g st target actual dt).integ ∧
        (pidCompute g st target actual dt).integ ≤ 2147483647) ∧
      (-2147483648 ≤ (pidCompute g st target actual dt).out ∧
        (pidCompute g st target actual dt).out ≤ 2147483647) ∧
      (-32768 ≤ (pidCompute g st target actual dt).cmd ∧
        (pidCompute g st target actual dt).cmd ≤ 32767) :=
  ⟨satW_range _, satW_range _, satW_range _, sat16_range _⟩

theorem State.pidResult_cmd_range (s : State) (p : Axis) (target actual : Int) (dt : Nat) :
    -32768 ≤ (s.pidResult p target actual dt).cmd ∧ (s.pidResult p target actual dt).cmd ≤ 32767 :=
  (pidCompute_ranges _ _ _ _ _).2.2.2

/-- An update depends on the state only through the gains and the PID state of its axis (R200, R216). -/
theorem State.pidResult_congr (s t : State) (p : Axis) (target actual : Int) (dt : Nat)
    (hg : t.gains.get p = s.gains.get p) (hp : t.pid.get p = s.pid.get p) :
    t.pidResult p target actual dt = s.pidResult p target actual dt := by
  simp only [State.pidResult, hg, hp]

end Sys2Proof.Machine
end

