-- ==== Sys2Proof/Laws/Sched.lean ====
section
/-! SUPPORT. The laws of one dispatched millisecond tick (44_sched.md R233): which counters it moves, and that it
keeps them in 0..9. -/
namespace Sys2Proof.Machine

/-- Everything a tick can do, by how far it reaches (R232, R233). -/
theorem Sched.tick_cases (k : Sched) :
    (k.d10 + 1 ≠ 10 ∧ k.tick = ({ k with lastMs := k.lastMs + 1, d10 := k.d10 + 1 }, 0)) ∨
    (k.d10 + 1 = 10 ∧ k.d100 + 1 ≠ 10 ∧
      k.tick = ({ k with lastMs := k.lastMs + 1, d10 := 0, d100 := k.d100 + 1 }, 1)) ∨
    (k.d10 + 1 = 10 ∧ k.d100 + 1 = 10 ∧ k.d1000 + 1 ≠ 10 ∧
      k.tick = ({ k with lastMs := k.lastMs + 1, d10 := 0, d100 := 0, d1000 := k.d1000 + 1 }, 2)) ∨
    (k.d10 + 1 = 10 ∧ k.d100 + 1 = 10 ∧ k.d1000 + 1 = 10 ∧
      k.tick = ({ k with lastMs := k.lastMs + 1, d10 := 0, d100 := 0, d1000 := 0 }, 3)) := by
  by_cases h1 : k.d10 + 1 = 10 <;> by_cases h2 : k.d100 + 1 = 10 <;> by_cases h3 : k.d1000 + 1 = 10 <;>
    simp [Sched.tick, h1, h2, h3]

theorem Sched.wf_iff (k : Sched) : k.wf = true ↔ k.d10 < 10 ∧ k.d100 < 10 ∧ k.d1000 < 10 := by
  simp [Sched.wf]

/-- A tick keeps the counters in range and leaves the phase (R35, R233). -/
theorem Sched.tick_wf (k : Sched) (h : k.wf = true) : k.tick.1.wf = true ∧ k.tick.1.phase = k.phase := by
  rw [Sched.wf_iff] at h
  rcases Sched.tick_cases k with ⟨a, e⟩ | ⟨a, b, e⟩ | ⟨a, b, c, e⟩ | ⟨a, b, c, e⟩ <;> rw [e] <;>
    refine ⟨(Sched.wf_iff _).mpr ?_, rfl⟩ <;> simp <;> omega

theorem Sched.tick_lastMs (k : Sched) : k.tick.1.lastMs = k.lastMs + 1 := by
  rcases Sched.tick_cases k with ⟨a, e⟩ | ⟨a, b, e⟩ | ⟨a, b, c, e⟩ | ⟨a, b, c, e⟩ <;> rw [e]

end Sys2Proof.Machine
end

