-- ==== Sys2Proof/Laws/Inv.lean ====
section
/-! SUPPORT. What each shared operation does to the invariant of Safety.lean. -/
namespace Sys2Proof.Machine

theorem setSticky_masked (w m : Word) (n : Nat) (c : Bool) (h : w &&& ~~~ m = 0) (hm : bitWord n &&& ~~~ m = 0) :
   setSticky w n c &&& ~~~ m = 0 := by
  cases c
  · exact h
  · have := BitVec.and_or_distrib_right (x := w) (y := bitWord n) (z := ~~~ m)
    simp only [setSticky, if_true]
    rw [this, h, hm]; rfl

/-- Every fault bit is a bit FAULT implements (R46). -/
theorem fault_masked (c : FaultCode) : bitWord c.code &&& ~~~ faultBits = 0 := by cases c <;> decide
theorem axis_masked (p : Axis) (n : Nat) (hn : n ≤ 16) : bitWord p.number &&& ~~~ statusBits n = 0 := by
  have : ∀ m : Fin 17, bitWord p.number &&& ~~~ statusBits m.val = 0 := by cases p <;> decide
  exact this ⟨n, by omega⟩
theorem enc_masked (e n : Nat) (hn : n ≤ 16) (he : e < n) : bitWord (encsatBit e) &&& ~~~ statusBits n = 0 := by
  have : ∀ m : Fin 17, ∀ j : Fin 16, j.val < m.val → bitWord (encsatBit j) &&& ~~~ statusBits m.val = 0 := by decide
  exact this ⟨n, by omega⟩ ⟨e, by omega⟩ he

theorem State.nenc_le (s : State) (h : s.Inv) : s.encs.length ≤ 16 := by
  have := h.params
  simp [Params.wf, State.params] at this
  exact (of_decide_eq_true this.1.2).2
theorem State.legal_actMax (s : State) (h : s.Inv) : legalActMax s.settings.actMax = true := by
  have := h.params
  simp [Params.wf, State.params, Settings.wf] at this
  exact this.2.1

theorem State.raise_inv (s : State) (op) (c) (h : s.Inv) : (s.raise op c).Inv where
  params := h.params
  transports := h.transports
  sched := h.sched
  faultReg := setSticky_masked _ _ _ _ h.faultReg (fault_masked c)
  statusReg := h.statusReg
  actLeft := h.actLeft
  actRight := h.actRight
  inputs := h.inputs
theorem State.respond_inv (s : State) (op r w) (h : s.Inv) : (s.respond op r w).Inv where
  params := h.params
  transports := h.transports
  sched := h.sched
  faultReg := h.faultReg
  statusReg := h.statusReg
  actLeft := h.actLeft
  actRight := h.actRight
  inputs := h.inputs
theorem State.setFifo_inv (s : State) (f q q0) (h : s.Inv) (h0 : s.fifo? f = some q0) (hs : q.size = q0.size) (hw : q.wf = true) : (s.setFifo f q).Inv where
  params := by rw [State.sizes_setFifo s f q q0 h0 hs]; exact h.params
  transports := State.setFifo_wf s f q hw h.transports
  sched := h.sched
  faultReg := h.faultReg
  statusReg := h.statusReg
  actLeft := h.actLeft
  actRight := h.actRight
  inputs := h.inputs
theorem State.setTransport_inv (s : State) (c t t0) (h : s.Inv) (h0 : s.transport? c = some t0) (hs : t.rx.size = t0.rx.size) (hs2 : t.tx.size = t0.tx.size) (hw : t.wf = true) : (s.setTransport c t).Inv where
  params := by rw [State.sizes_setTransport s c t t0 h0 hs hs2]; exact h.params
  transports := State.setTransport_wf s c t hw h.transports
  sched := h.sched
  faultReg := h.faultReg
  statusReg := h.statusReg
  actLeft := h.actLeft
  actRight := h.actRight
  inputs := h.inputs
theorem State.flagStatus_inv (s : State) (n c) (h : s.Inv) (hm : bitWord n &&& ~~~ statusBits s.encs.length = 0) : (s.flagStatus n c).Inv where
  params := h.params
  transports := h.transports
  sched := h.sched
  faultReg := h.faultReg
  statusReg := setSticky_masked _ _ _ _ h.statusReg hm
  actLeft := h.actLeft
  actRight := h.actRight
  inputs := h.inputs
theorem State.setEnc_inv (s : State) (e n) (h : s.Inv) : (s.setEnc e n).Inv where
  params := by simpa [State.params] using h.params
  transports := h.transports
  sched := h.sched
  faultReg := h.faultReg
  statusReg := by simpa using h.statusReg
  actLeft := h.actLeft
  actRight := h.actRight
  inputs := by simpa using h.inputs
theorem State.pidUpdate_inv (s : State) (p t a d) (h : s.Inv) : (s.pidUpdate p t a d).Inv where
  params := by simpa [State.params] using h.params
  transports := by simpa using h.transports
  sched := by simpa using h.sched
  faultReg := by simpa using h.faultReg
  statusReg := by simpa using setSticky_masked _ _ _ _ h.statusReg (axis_masked p _ (State.nenc_le s h))
  actLeft := by
    simp only [State.pidUpdate_actLeft, State.pidUpdate_settings]
    split
    · exact actValue_legal _ _ _ (State.legal_actMax s h) (State.pidResult_cmd_range ..)
    · exact h.actLeft
  actRight := by
    simp only [State.pidUpdate_actRight, State.pidUpdate_settings]
    split
    · exact actValue_legal _ _ _ (State.legal_actMax s h) (State.pidResult_cmd_range ..)
    · exact h.actRight
  inputs := by simpa using h.inputs

theorem State.withSched_inv (s : State) (k) (h : s.Inv) (hk : k.wf = true) : ({s with sched := k} : State).Inv where
  params := h.params
  transports := h.transports
  sched := hk
  faultReg := h.faultReg
  statusReg := h.statusReg
  actLeft := h.actLeft
  actRight := h.actRight
  inputs := h.inputs

theorem State.writeReg_inv (s t : State) (r v) (h : s.Inv) (hw : s.writeReg r v = .ok t) : t.Inv := by
  have mk (u : State) (h1 : u.params = s.params) (h2 : u.transports = s.transports) (h3 : u.sched = s.sched)
     (h4 : u.faultReg = s.faultReg) (h5 : u.statusReg = s.statusReg) (h6 : u.actLeft = s.actLeft) (h7 : u.actRight = s.actRight)
     (h8 : u.inputs = s.inputs) : u.Inv := by
    have hl : u.encs.length = s.encs.length := congrArg Params.nenc h1
    have hs : u.settings = s.settings := congrArg Params.settings h1
    constructor <;> simp only [h1,h2,h3,h4,h5,h6,h7,h8,hl,hs]
    · exact h.params
    · exact h.transports
    · exact h.sched
    · exact h.faultReg
    · exact h.statusReg
    · exact h.actLeft
    · exact h.actRight
    · exact h.inputs
  cases r <;> simp only [State.writeReg] at hw
  case fault => cases hw
  case status => cases hw
  case ppr e =>
    split at hw
    · cases hw
    · split at hw
      · cases hw; exact State.setEnc_inv _ _ _ h
      · cases hw
  case slip => split at hw; cases hw; exact mk _ rfl rfl rfl rfl rfl rfl rfl rfl; cases hw
  case motorEn => split at hw; cases hw; exact mk _ rfl rfl rfl rfl rfl rfl rfl rfl; cases hw
  all_goals cases hw; exact mk _ rfl rfl rfl rfl rfl rfl rfl rfl

end Sys2Proof.Machine
end

