-- ==== Sys2Proof/Laws/Frames.lean ====
section
/-! SUPPORT. What replacing an instance and answering leave unchanged, in the terms of Safety.lean; and the
slots the transmit path stores to. -/
namespace Sys2Proof.Machine

@[simp] theorem State.respond_codec (s : State) (op : Op) (res : Half) (ws : List Word) (c : Nat) :
    (s.respond op res ws).codec? c = s.codec? c := rfl

@[simp] theorem State.respond_fifoByte (s : State) (op : Op) (res : Half) (ws : List Word) (f a : Nat) :
    (s.respond op res ws).fifoByte f a = s.fifoByte f a := rfl

@[simp] theorem State.respond_tokByte (s : State) (op : Op) (res : Half) (ws : List Word) (c a : Nat) :
    (s.respond op res ws).tokByte c a = s.tokByte c a := rfl

@[simp] theorem State.raise_codec (s : State) (op : Byte) (e : FaultCode) (c : Nat) :
    (s.raise op e).codec? c = s.codec? c := rfl

@[simp] theorem State.raise_fifoByte (s : State) (op : Byte) (e : FaultCode) (f a : Nat) :
    (s.raise op e).fifoByte f a = s.fifoByte f a := rfl

@[simp] theorem State.raise_tokByte (s : State) (op : Byte) (e : FaultCode) (c a : Nat) :
    (s.raise op e).tokByte c a = s.tokByte c a := rfl

/-- A byte of an array, read from an instance that exists. -/
theorem State.fifoByte_eq (s : State) (f a : Nat) (q : Fifo) (h : s.fifo? f = some q) :
    s.fifoByte f a = Memory.read q.buf a := by simp [State.fifoByte, h]

/-- A token byte, read from an instance that exists. -/
theorem State.tokByte_eq (s : State) (c a : Nat) (k : Codec) (h : s.codec? c = some k) :
    s.tokByte c a = Memory.read k.tok a := by
  simp only [State.codec?, Option.map_eq_some_iff] at h
  obtain ⟨t, ht, rfl⟩ := h
  simp [State.tokByte, ht]

/-- Token bytes are the same where the CODEC instances are. -/
theorem State.tokByte_congr (s t : State) (c a : Nat) (h : t.codec? c = s.codec? c) :
    t.tokByte c a = s.tokByte c a := by
  simp only [State.codec?] at h
  unfold State.tokByte
  revert h
  cases t.transport? c <;> cases s.transport? c <;> simp
  intro h; rw [h]

/-- Array bytes are the same where the FIFO instances are. -/
theorem State.fifoByte_congr (s t : State) (f a : Nat) (h : t.fifo? f = s.fifo? f) :
    t.fifoByte f a = s.fifoByte f a := by simp [State.fifoByte, h]

/-- A FIFO operation on instance `f` leaves everything else (R110). -/
theorem State.setFifo_frame (s : State) (f : Nat) (q : Fifo) (op : Op) (res : Half) (ws : List Word) :
    s.QueueFrame ((s.setFifo f q).respond op res ws) [f] [] where
  rest := rfl
  fifos g hg := by
    rw [State.respond_fifo, State.fifo_setFifo, if_neg (by simpa using hg)]
  codecs c _ := State.codec_setFifo s f q c

/-- The instance a FIFO operation leaves behind. -/
theorem State.setFifo_fifo (s : State) (f : Nat) (q q0 : Fifo) (h : s.fifo? f = some q0) :
    (s.setFifo f q).fifo? f = some q := by rw [State.fifo_setFifo, if_pos rfl, h]; rfl

/-- The bytes of the arrays after a FIFO operation. -/
theorem State.setFifo_fifoByte (s : State) (f : Nat) (q q0 : Fifo) (h : s.fifo? f = some q0) (g a : Nat) :
    (s.setFifo f q).fifoByte g a = if g = f then Memory.read q.buf a else s.fifoByte g a := by
  by_cases hg : g = f
  · subst hg; rw [if_pos rfl]; exact State.fifoByte_eq _ _ _ _ (State.setFifo_fifo s g q q0 h)
  · rw [if_neg hg]; exact State.fifoByte_congr _ _ _ _ (by rw [State.fifo_setFifo, if_neg hg])

/-- The tokens after a FIFO operation. -/
theorem State.setFifo_tokByte (s : State) (f : Nat) (q : Fifo) (c a : Nat) :
    (s.setFifo f q).tokByte c a = s.tokByte c a :=
  State.tokByte_congr _ _ _ _ (State.codec_setFifo s f q c)

/-- The parts of a transport, by number (R25). -/
theorem State.transport_parts (s : State) (c : Nat) (t : Transport) (h : s.transport? c = some t) :
    s.fifo? (2 * c) = some t.rx ∧ s.fifo? (2 * c + 1) = some t.tx ∧ s.codec? c = some t.codec := by
  simp only [State.transport?] at h
  refine ⟨?_, ?_, ?_⟩
  · simp [State.fifo?, h]
  · have h1 : (2 * c + 1) / 2 = c := by omega
    have h2 : (2 * c + 1) % 2 = 1 := by omega
    simp [State.fifo?, h1, h2, h]
  · simp [State.codec?, State.transport?, h]

/-- Replacing a transport by one with the same receive FIFO leaves the other instances. -/
theorem State.setTransport_frame (s : State) (c : Nat) (t t0 : Transport) (op : Op) (res : Half)
    (ws : List Word) (h : s.transport? c = some t0) (hr : t.rx = t0.rx) :
    s.QueueFrame ((s.setTransport c t).respond op res ws) [2 * c + 1] [c] where
  rest := rfl
  fifos g hg := by
    have hg : g ≠ 2 * c + 1 := by simpa using hg
    simp only [State.fifo?, State.respond_transports, State.setTransport_transports, List.getElem?_set]
    by_cases hc : c = g / 2
    · subst hc
      have hp : g % 2 = 0 := by omega
      simp only [State.transport?] at h
      have hl : g / 2 < s.transports.length := by
        rcases Nat.lt_or_ge (g / 2) s.transports.length with hl | hl
        · exact hl
        · rw [List.getElem?_eq_none hl] at h; cases h
      rw [if_pos rfl, if_pos hl, h]
      simp [hp, hr]
    · rw [if_neg hc]
  codecs k hk := by
    have hk : k ≠ c := by simpa using hk
    simp only [State.codec?, State.respond_transport, State.transport_setTransport, if_neg hk]

/-- The transport left behind, by its parts. -/
theorem State.setTransport_parts (s : State) (c : Nat) (t t0 : Transport) (h : s.transport? c = some t0) :
    (s.setTransport c t).fifo? (2 * c) = some t.rx ∧ (s.setTransport c t).fifo? (2 * c + 1) = some t.tx ∧
      (s.setTransport c t).codec? c = some t.codec :=
  State.transport_parts _ _ _ (by rw [State.transport_setTransport, if_pos rfl, h]; rfl)

/-- The slots a put stores to, and what they then hold (R61, R113). -/
theorem Fifo.put_reads (q : Fifo) (d : List Byte) (q' : Fifo) (n : Nat) (h : q.wf = true)
    (hp : q.put d = some (q', n)) (i : Nat) (hi : i < n) :
    Memory.read q'.buf ((q.stop + i) % q.size) = d.getD i 0 := by
  obtain ⟨hs, h1, h2, -⟩ := (Fifo.wf_iff q).mp h
  obtain ⟨buf, hput, -, -, hread⟩ := Fifo.put_slots q d h
  rw [hput] at hp
  simp only [Option.some.injEq, Prod.mk.injEq] at hp
  obtain ⟨rfl, rfl⟩ := hp
  have hu := Fifo.used_add_free q h
  have hx : (q.stop + i) % q.size < q.size := Nat.mod_lt _ (by omega)
  have ha : q.ahead ((q.stop + i) % q.size) = i := by
    rcases Fifo.ahead_cases q _ hx h2 with h' | h' <;>
      rcases mod_cases (q.stop + i) q.size (by omega) with h'' | h'' <;> omega
  show Memory.read buf _ = _
  rw [hread, ha, if_pos ⟨hx, hi⟩]

/-- Two puts one after the other store to the slots one put of both would (R61, R113). -/
theorem Fifo.put_put (q q1 q2 : Fifo) (d1 d2 : List Byte) (n : Nat) (h : q.wf = true)
    (h1 : q.put d1 = some (q1, d1.length)) (h2 : q1.put d2 = some (q2, n)) :
    q2.stop = (q.stop + (d1 ++ d2.take n).length) % q.size ∧
      (∀ j, j < (d1 ++ d2.take n).length →
        Memory.read q2.buf ((q.stop + j) % q.size) = (d1 ++ d2.take n).getD j 0) ∧
      (∀ a, (∀ j, j < (d1 ++ d2.take n).length → a ≠ (q.stop + j) % q.size) →
        Memory.read q2.buf a = Memory.read q.buf a) := by
  obtain ⟨qa, hpa, hwa, hsa, -, hsta, hua, -⟩ := Fifo.put_spec q d1 h
  rw [hpa] at h1
  simp only [Option.some.injEq, Prod.mk.injEq] at h1
  obtain ⟨rfl, hn1⟩ := h1
  rw [hn1] at hpa hsta hua
  obtain ⟨qb, hpb, hwb, hsb, -, hstb, hub, -⟩ := Fifo.put_spec qa d2 hwa
  have hpb' := hpb
  rw [hpb] at h2
  simp only [Option.some.injEq, Prod.mk.injEq] at h2
  obtain ⟨rfl, hn⟩ := h2
  rw [hn] at hpb hstb hub
  have hlen : (d1 ++ d2.take n).length = d1.length + n := by
    simp only [List.length_append, List.length_take]; omega
  have hslot : ∀ k, (qa.stop + k) % qa.size = (q.stop + (d1.length + k)) % q.size := by
    intro k; rw [hsta, hsa, Nat.mod_add_mod, Nat.add_assoc]
  have hlast := Fifo.used_add_free qb hwb
  have hlt := Fifo.used_lt qb hwb
  have hsz := hsb.trans hsa
  refine ⟨by rw [hstb, hslot, hlen], ?_, ?_⟩
  · intro j hj
    rw [hlen] at hj
    by_cases hjd : j < d1.length
    · rw [Fifo.put_frame qa d2 qb n hwa hpb, Fifo.put_reads q d1 qa d1.length h hpa j hjd]
      · simp [List.getD_eq_getElem?_getD, List.getElem?_append, hjd]
      · intro k hk
        rw [hslot]
        obtain ⟨hs0, hs1, hs2, -⟩ := (Fifo.wf_iff q).mp h
        rcases mod_cases (q.stop + j) q.size (by omega) with h' | h' <;>
          rcases mod_cases (q.stop + (d1.length + k)) q.size (by omega) with h'' | h'' <;> omega
    · obtain ⟨k, rfl⟩ : ∃ k, j = d1.length + k := ⟨j - d1.length, by omega⟩
      have := Fifo.put_reads qa d2 qb n hwa hpb k (by omega)
      rw [hslot] at this
      rw [this]
      simp only [List.getD_eq_getElem?_getD, List.getElem?_append,
        if_neg (show ¬ d1.length + k < d1.length by omega), List.getElem?_take,
        Nat.add_sub_cancel_left, if_pos (show k < n by omega)]
  · intro a ha
    rw [Fifo.put_frame qa d2 qb n hwa hpb, Fifo.put_frame q d1 qa d1.length h hpa]
    · intro k hk; exact ha k (by omega)
    · intro k hk; rw [hslot]; exact ha _ (by omega)

/-- The slots the transmit path stores to, and what they then hold (R61, R149, R150, R152). -/
theorem Transport.emit_slots (t t' : Transport) (eol : List Byte) (ui : Bool) (d out : List Byte) (e : Bool)
    (n : Nat) (h : t.tx.wf = true) (hemit : t.emit eol ui d = some (t', e, n))
    (hout : out = (if e then eol else []) ++ d.take n) :
    t'.tx.stop = (t.tx.stop + out.length) % t.tx.size ∧
      (∀ j, j < out.length → Memory.read t'.tx.buf ((t.tx.stop + j) % t.tx.size) = out.getD j 0) ∧
      (∀ a, (∀ j, j < out.length → a ≠ (t.tx.stop + j) % t.tx.size) →
        Memory.read t'.tx.buf a = Memory.read t.tx.buf a) := by
  subst hout
  obtain ⟨q0, hp0, -⟩ := Fifo.put_spec t.tx [] h
  simp only [List.length_nil, Nat.zero_min] at hp0
  have hq0 : q0 = t.tx := by
    obtain ⟨hs0, hs1, hs2, -⟩ := (Fifo.wf_iff t.tx).mp h
    simp [Fifo.put, Memory.store, Memory.writeAll, Nat.le_of_lt hs2, Nat.mod_eq_of_lt hs2] at hp0
    exact hp0.symm
  rw [hq0] at hp0
  have plain : ∀ q2, t.tx.put d = some (q2, n) → q2 = t'.tx → e = false →
      t'.tx.stop = (t.tx.stop + ((if e then eol else []) ++ d.take n).length) % t.tx.size ∧
      (∀ j, j < ((if e then eol else []) ++ d.take n).length →
        Memory.read t'.tx.buf ((t.tx.stop + j) % t.tx.size) = ((if e then eol else []) ++ d.take n).getD j 0) ∧
      (∀ a, (∀ j, j < ((if e then eol else []) ++ d.take n).length → a ≠ (t.tx.stop + j) % t.tx.size) →
        Memory.read t'.tx.buf a = Memory.read t.tx.buf a) := by
    rintro q2 hq rfl rfl
    exact Fifo.put_put t.tx t.tx t'.tx [] d n h hp0 hq
  unfold Transport.emit at hemit
  by_cases hc : t.codec.inUi ≠ ui ∧ t.codec.sol = false
  · rw [if_pos hc] at hemit
    by_cases hr : eol.length ≤ t.tx.free
    · obtain ⟨q1, hp1, -⟩ := Fifo.put_spec t.tx eol h
      have hm : min eol.length t.tx.free = eol.length := by omega
      rw [hm] at hp1
      simp only [Transport.tryEol, if_pos hr, Transport.txPut, hp1] at hemit
      cases hp2 : q1.put d with
      | none => simp [hp2] at hemit
      | some r =>
        simp only [hp2, Option.some.injEq, Prod.mk.injEq] at hemit
        obtain ⟨rfl, rfl, rfl⟩ := hemit
        exact Fifo.put_put t.tx q1 r.1 eol d r.2 h hp1 hp2
    · simp only [Transport.tryEol, if_neg hr, Transport.txPut] at hemit
      cases hp2 : t.tx.put d with
      | none => simp [hp2] at hemit
      | some r =>
        simp only [hp2, Option.some.injEq, Prod.mk.injEq] at hemit
        obtain ⟨rfl, rfl, rfl⟩ := hemit
        exact plain r.1 hp2 rfl rfl
  · rw [if_neg hc] at hemit
    simp only [Transport.txPut] at hemit
    cases hp2 : t.tx.put d with
    | none => simp [hp2] at hemit
    | some r =>
      simp only [hp2, Option.some.injEq, Prod.mk.injEq] at hemit
      obtain ⟨rfl, rfl, rfl⟩ := hemit
      exact plain r.1 hp2 rfl rfl

end Sys2Proof.Machine
end

