-- ==== Sys2Proof/Laws/PerInstr.lean ====
section
/-! SUPPORT. The family of statements made for each instruction: the packet of a well-formed instruction
spells the row of its operation and carries as many operand words as the row requires (30_encoding.md R84,
R86). -/
namespace Sys2Proof.Laws.EncodesItsRow

/-- The packet of `i` spells the row of its operation, with the number of words the row requires. -/
def Statement (i : Instr) : Prop :=
  i.wf = true →
    i.op.row.spells (encode i).header = true ∧
      (encode i).operands.length = i.op.row.form.wordCount (encode i).header

/-- A header spells a row whose opcode is its own when the must-be-zero bits of the other fields are zero. -/
theorem spells_of_fields (op : Op) (inst : Byte) (imm : Half)
    (h1 : inst &&& instField op.row.mask = 0) (h2 : imm &&& immField op.row.mask = 0) :
    op.row.spells (mkHeader op inst imm) = true := by
  rw [Row.spells_iff, h1, h2]
  cases op <;> decide

/-- A must-be-zero mask of 0 asks nothing of an instance index. -/
theorem and_zero_byte (b : Byte) : b &&& 0 = 0 := BitVec.and_zero

/-- A must-be-zero mask of 0 asks nothing of an immediate. -/
theorem and_zero_half (b : Half) : b &&& 0 = 0 := BitVec.and_zero

theorem cfgrd (reg : Half) : Statement (.cfgrd reg) := fun _ =>
  ⟨spells_of_fields .cfgrd _ _ (by decide) (and_zero_half _), rfl⟩

theorem cfgwr (reg : Half) (value : Word) : Statement (.cfgwr reg value) := fun _ =>
  ⟨spells_of_fields .cfgwr _ _ (by decide) (and_zero_half _), rfl⟩

theorem fpush (f b : Byte) : Statement (.fpush f b) := fun _ =>
  ⟨spells_of_fields .fpush _ _ (and_zero_byte _) (byteImm_masked _), rfl⟩

theorem fpop (f : Byte) : Statement (.fpop f) := fun _ =>
  ⟨spells_of_fields .fpop _ _ (and_zero_byte _) (by decide), rfl⟩

theorem fwrite (f : Byte) (payload : List Word) : Statement (.fwrite f payload) := fun hw =>
  ⟨spells_of_fields .fwrite _ _ (and_zero_byte _) (and_zero_half _), by
    have h : payload.length < 65536 := by simpa [Instr.wf] using hw
    simp only [encode, Instr.op, Op.row, Form.wordCount, immField_mkHeader, BitVec.toNat_ofNat]
    omega⟩

theorem fread (f : Byte) (maxLen : Half) : Statement (.fread f maxLen) := fun _ =>
  ⟨spells_of_fields .fread _ _ (and_zero_byte _) (and_zero_half _), rfl⟩

theorem favail (f : Byte) : Statement (.favail f) := fun _ =>
  ⟨spells_of_fields .favail _ _ (and_zero_byte _) (by decide), rfl⟩

theorem ffree (f : Byte) : Statement (.ffree f) := fun _ =>
  ⟨spells_of_fields .ffree _ _ (and_zero_byte _) (by decide), rfl⟩

theorem esync (e : Byte) : Statement (.esync e) := fun _ =>
  ⟨spells_of_fields .esync _ _ (and_zero_byte _) (by decide), rfl⟩

theorem pupdate (p : Byte) (target actual dt : Word) : Statement (.pupdate p target actual dt) := fun _ =>
  ⟨spells_of_fields .pupdate _ _ (and_zero_byte _) (by decide), rfl⟩

theorem cupdate (vactual lactual ractual dt : Word) : Statement (.cupdate vactual lactual ractual dt) := fun _ =>
  ⟨spells_of_fields .cupdate _ _ (by decide) (by decide), rfl⟩

theorem tpoll : Statement .tpoll := fun _ =>
  ⟨spells_of_fields .tpoll _ _ (by decide) (by decide), rfl⟩

theorem tnext : Statement .tnext := fun _ =>
  ⟨spells_of_fields .tnext _ _ (by decide) (by decide), rfl⟩

theorem crx (c b : Byte) : Statement (.crx c b) := fun _ =>
  ⟨spells_of_fields .crx _ _ (and_zero_byte _) (byteImm_masked _), rfl⟩

theorem csend (c code : Byte) (value : Word) : Statement (.csend c code value) := fun _ =>
  ⟨spells_of_fields .csend _ _ (and_zero_byte _) (byteImm_masked _), rfl⟩

theorem cui (c ch : Byte) : Statement (.cui c ch) := fun _ =>
  ⟨spells_of_fields .cui _ _ (and_zero_byte _) (byteImm_masked _), rfl⟩

end Sys2Proof.Laws.EncodesItsRow
end

