-- ==== Sys2Proof/Tests/Slice0.lean ====
section
/-! SUPPORT. Tests: what WellFormed refuses, the words of every operation (95_test_vectors.md, section 2.1),
one or two steps of every operation against the spec's vectors, and, for every statement that has
hypotheses, states and operands that meet them (`witness_…`). Expected values are the spec's, not the
model's. -/
namespace Sys2Proof.Tests
open Sys2Proof.Machine

/-! ### WellFormed -/

theorem test_wf_payload_longest (n : Nat) (h : n = 65535) :
    (Instr.fwrite 0 (List.replicate n 0)).wf = true :=
  decide_eq_true (by rw [List.length_replicate]; omega)

theorem test_wf_payload_too_long (n : Nat) (h : n = 65536) :
    (Instr.fwrite 0 (List.replicate n 0)).wf = false :=
  decide_eq_false (by rw [List.length_replicate]; omega)

theorem test_wf_fifo_size :
    legalFifoSize 1 = false ∧ legalFifoSize 2 = true ∧ legalFifoSize 65536 = true ∧
      legalFifoSize 65537 = false := by decide

theorem test_wf_actMax :
    legalActMax (some 0) = false ∧ legalActMax (some 1) = true ∧ legalActMax (some 32767) = true ∧
      legalActMax (some 32768) = false ∧ legalActMax none = true := by decide

theorem test_wf_eol :
    legalEol [] = false ∧ legalEol [0x0A] = true ∧ legalEol [0, 0, 0, 0] = true ∧
      legalEol [0, 0, 0, 0, 0] = false := by decide

theorem test_wf_settings :
    Settings.wf { Params.default.settings with actMax := some 0 } = false ∧
      Settings.wf { Params.default.settings with eol := [] } = false := by decide

theorem test_wf_params :
    Params.default.wf = true ∧
      Params.wf { Params.default with fifoSizes := [] } = false ∧
      Params.wf { Params.default with fifoSizes := List.replicate 9 (8, 8) } = false ∧
      Params.wf { Params.default with fifoSizes := [(1, 8)] } = false ∧
      Params.wf { Params.default with nenc := 0 } = false ∧
      Params.wf { Params.default with nenc := 17 } = false := by decide

/-! ### Decode: the words of 95_test_vectors.md, section 2.1, for every operation -/

theorem test_decode_cfgrd : decode ⟨0x01000012, []⟩ = .instr (.cfgrd 0x0012) := by decide
theorem test_decode_cfgwr : decode ⟨0x02000210, [0x00020000]⟩ = .instr (.cfgwr 0x0210 0x00020000) := by decide
theorem test_decode_fpush : decode ⟨0x10000041, []⟩ = .instr (.fpush 0 0x41) := by decide
theorem test_decode_fpop : decode ⟨0x11000000, []⟩ = .instr (.fpop 0) := by decide
theorem test_decode_fwrite :
    decode ⟨0x12010002, [0x00000048, 0x00000069]⟩ = .instr (.fwrite 1 [0x48, 0x69]) := by decide
theorem test_decode_fread : decode ⟨0x13010010, []⟩ = .instr (.fread 1 16) := by decide
theorem test_decode_favail : decode ⟨0x14010000, []⟩ = .instr (.favail 1) := by decide
theorem test_decode_ffree : decode ⟨0x15010000, []⟩ = .instr (.ffree 1) := by decide
theorem test_decode_esync : decode ⟨0x20020000, []⟩ = .instr (.esync 2) := by decide
theorem test_decode_pupdate :
    decode ⟨0x30010000, [0x00050000, 0x00030000, 0x0000000A]⟩
      = .instr (.pupdate 1 0x00050000 0x00030000 10) := by decide
theorem test_decode_cupdate :
    decode ⟨0x31000000, [0x00060000, 0x00050000, 0x00070000, 0x0000000A]⟩
      = .instr (.cupdate 0x00060000 0x00050000 0x00070000 10) := by decide
theorem test_decode_tpoll : decode ⟨0x40000000, []⟩ = .instr .tpoll := by decide
theorem test_decode_tnext : decode ⟨0x41000000, []⟩ = .instr .tnext := by decide
theorem test_decode_crx : decode ⟨0x5000002C, []⟩ = .instr (.crx 0 0x2C) := by decide
theorem test_decode_csend : decode ⟨0x5100004D, [0x00000005]⟩ = .instr (.csend 0 0x4D 5) := by decide
theorem test_decode_cui : decode ⟨0x52000068, []⟩ = .instr (.cui 0 0x68) := by decide

/-- The same words out of the encoder. -/
theorem test_encode :
    encode (.cfgrd 0x0012) = ⟨0x01000012, []⟩ ∧
    encode (.cfgwr 0x0210 0x00020000) = ⟨0x02000210, [0x00020000]⟩ ∧
    encode (.fpush 0 0x41) = ⟨0x10000041, []⟩ ∧
    encode (.fpop 0) = ⟨0x11000000, []⟩ ∧
    encode (.fwrite 1 [0x48, 0x69]) = ⟨0x12010002, [0x48, 0x69]⟩ ∧
    encode (.fread 1 16) = ⟨0x13010010, []⟩ ∧
    encode (.favail 1) = ⟨0x14010000, []⟩ ∧
    encode (.ffree 1) = ⟨0x15010000, []⟩ ∧
    encode (.esync 2) = ⟨0x20020000, []⟩ ∧
    encode (.pupdate 1 5 3 10) = ⟨0x30010000, [5, 3, 10]⟩ ∧
    encode (.cupdate 6 5 7 10) = ⟨0x31000000, [6, 5, 7, 10]⟩ ∧
    encode .tpoll = ⟨0x40000000, []⟩ ∧
    encode .tnext = ⟨0x41000000, []⟩ ∧
    encode (.crx 0 0x2C) = ⟨0x5000002C, []⟩ ∧
    encode (.csend 0 0x4D 5) = ⟨0x5100004D, [5]⟩ ∧
    encode (.cui 0 0x68) = ⟨0x52000068, []⟩ := by decide

/-- The table's numbering of bits: the second word of a packet stands at bits 63..32. -/
theorem test_decodeTableWord :
    decodeTableWord 64 0x0002000002000210 = some (.cfgwr 0x0210 0x00020000) ∧
    decodeTableWord 32 0x12010002 = some (.fwrite 1 [0, 0]) ∧
    decodeTableWord 32 0x11000001 = none := by decide

/-! ### Steps -/

/-- The response and FAULT after an operation; none where it stops. -/
def after (i : Instr) (s : State) : Option (Option Response × Word) :=
  match exec i s with
  | .next t => some (t.response, t.faultReg)
  | .fault _ => none
  | .refused _ => none

/-- The response to a packet, and FAULT after it. -/
def answer (p : Packet) (s : State) : Option (Option Response × Word) :=
  match runCommand p s with
  | .next t => some (t.response, t.faultReg)
  | .fault _ => none
  | .refused _ => none

/-- A state of section 2 of the vectors with `FIFO[0]` holding `text` from slot `start` on, `N[0] = 8`. -/
def withQueue (start : Nat) (text : List Byte) : State :=
  match (Fifo.put { Fifo.init 8 with start := start, stop := start } text) with
  | some (q, _) => State.reset.setFifo 0 q
  | none => State.reset

/-- An encoder as in V-ENC-3, with the sense given. -/
def spinning (sense : Sense) : State :=
  { State.reset with time := 2010 }.setEnc 0
    { count := 8, lastInterval := 1, sense := sense, tEdge := 2009, tSync := 2000, ppr := 100 }

/-- The gains of V-PID-2. -/
def pid2 : State :=
  { State.reset with
    gains := State.reset.gains.set .left { kp := 0x00020000, ki := 0x00008000, kd := 0x00004000 }
    motorEn := 3 }

/-- Setup A of section 2.7. -/
def setupA : State :=
  { State.reset with
    gains :=
      { vehicle := { kp := 0x00020000, ki := 0, kd := 0 }
        left := { kp := 0x00040000, ki := 0x00010000, kd := 0 }
        right := { kp := 0x00040000, ki := 0x00010000, kd := 0 } }
    vtarget := 0x000A0000, slip := 0x00018000, motorEn := 3 }

/-- A parser that holds `X12` (V-SRC-5). -/
def parsed : State :=
  { State.reset with
    transports := State.reset.transports.map fun t =>
      { t with codec := { t.codec with tok := [(0, 0x58), (1, 0x31), (2, 0x32)], len := 3 } } }

/-- A CODEC in UI mode in the middle of a line. -/
def inText : State :=
  { State.reset with
    transports := State.reset.transports.map fun t =>
      { t with codec := { t.codec with inUi := true, sol := false } } }

/-- A tick is due that is the tenth (V-SCHED-1, `CTRL_LEVEL = 1`). -/
def tenthTick : State :=
  { State.reset with time := 10, sched := { State.reset.sched with lastMs := 9, d10 := 9 } }

theorem test_cfgrd_reset : after (.cfgrd 0x0012) State.reset = some (some ⟨0x01000000, [0]⟩, 0) := by decide
theorem test_cfgrd_undefined : after (.cfgrd 0x0140) State.reset = some (some ⟨0x01030000, []⟩, 0x08) := by decide
theorem test_cfgwr_gain :
    (match exec (.cfgwr 0x0210 0x00020000) State.reset with
      | .next t => some (t.response, t.gains.left.kp)
      | .fault _ => none
      | .refused _ => none) = some (some ⟨0x02000000, []⟩, 0x00020000) := by decide
theorem test_cfgwr_slip_negative :
    after (.cfgwr 0x0011 0x80000000) State.reset = some (some ⟨0x02040000, []⟩, 0x10) := by decide
theorem test_fpush_wraps :
    (match exec (.fpush 0 0x41) (withQueue 3 [0x64, 0x65, 0x66, 0x67]) with
      | .next t => some (t.response, t.fifoByte 0 7, (t.fifo? 0).map (·.stop))
      | .fault _ => none
      | .refused _ => none) = some (some ⟨0x10000001, []⟩, 0x41, some 0) := by decide
theorem test_fpush_full :
    after (.fpush 0 0x7A) (withQueue 0 [0x30, 0x31, 0x32, 0x33, 0x34, 0x35, 0x36])
      = some (some ⟨0x10000000, []⟩, 0) := by decide
theorem test_fpop_wraps :
    (match exec (.fpop 0) (withQueue 7 [0x5A, 0x61, 0x62]) with
      | .next t => some (t.response, (t.fifo? 0).map (·.start))
      | .fault _ => none
      | .refused _ => none) = some (some ⟨0x1100015A, []⟩, some 0) := by decide
theorem test_fpop_zero_byte : after (.fpop 0) (withQueue 0 [0]) = some (some ⟨0x11000100, []⟩, 0) := by decide
theorem test_fwrite_two_segments :
    (match exec (.fwrite 0 [0x41, 0x42, 0x43, 0x44, 0x45, 0x46]) (withQueue 4 [0x35, 0x36]) with
      | .next t => some (t.response, t.fifoByte 0 7, t.fifoByte 0 2, (t.fifo? 0).map (·.stop))
      | .fault _ => none
      | .refused _ => none) = some (some ⟨0x12000005, []⟩, 0x42, 0x45, some 3) := by decide
theorem test_fwrite_payload :
    after (.fwrite 0 [0x41, 0x142]) State.reset = some (some ⟨0x12040000, []⟩, 0x10) := by decide
theorem test_fread_two_segments :
    after (.fread 0 16) (withQueue 4 [0x35, 0x36, 0x41, 0x42, 0x43, 0x44, 0x45])
      = some (some ⟨0x13000007, [0x35, 0x36, 0x41, 0x42, 0x43, 0x44, 0x45]⟩, 0) := by decide
theorem test_fread_nothing : after (.fread 0 0) (withQueue 4 [0x35]) = some (some ⟨0x13000000, []⟩, 0) := by decide
theorem test_favail_wrapped :
    after (.favail 0) (withQueue 4 [0x35, 0x36, 0x41, 0x42, 0x43, 0x44, 0x45])
      = some (some ⟨0x14000007, []⟩, 0) := by decide
theorem test_ffree : after (.ffree 0) (withQueue 4 [0x35, 0x36]) = some (some ⟨0x15000005, []⟩, 0) := by decide
theorem test_esync_fast : after (.esync 0) (spinning .plus) = some (some ⟨0x20000001, [0x00020000]⟩, 0) := by decide +kernel
theorem test_esync_backwards : after (.esync 0) (spinning .minus) = some (some ⟨0x20000001, [0xFFFE0000]⟩, 0) := by decide +kernel
theorem test_pupdate :
    after (.pupdate 1 0x00050000 0x00030000 10) pid2 = some (some ⟨0x30000036, [0x00360148]⟩, 0) := by decide
theorem test_pupdate_dt0 :
    after (.pupdate 1 0x00050000 0x00030000 0) pid2 = some (some ⟨0x30060000, []⟩, 0x40) := by decide
theorem test_cupdate_slip :
    after (.cupdate 0x00060000 0x00050000 0x00070000 10) setupA
      = some (some ⟨0x31000000, [0x00078000, 0x0000000A, 0x00000002]⟩, 0) := by decide
theorem test_cupdate_low_edge :
    after (.cupdate 0x00060000 0x00050000 0x00070000 10) { setupA with vtarget := 0xFFF60000 }
      = some (some ⟨0x31000000, [0x00048000, 0xFFFFFFFE, 0xFFFFFFF6]⟩, 0) := by decide
theorem test_tpoll_ctrl :
    (match exec .tpoll tenthTick with
      | .next t => some (t.response, t.sched.d10, t.sched.d100, t.sched.phase)
      | .fault _ => none
      | .refused _ => none) = some (some ⟨0x40000013, []⟩, 0, 1, .sync) := by decide
theorem test_tpoll_busy :
    after .tpoll (tenthTick.withPhase .pid) = some (some ⟨0x40008000, []⟩, 0) := by decide
theorem test_tnext_last : after .tnext (tenthTick.withPhase .txdrain) = some (some ⟨0x41000000, []⟩, 0) := by decide
theorem test_crx_emits : after (.crx 0 0x2C) parsed = some (some ⟨0x50000158, [12]⟩, 0) := by decide
theorem test_crx_instance : after (.crx 1 0x78) parsed = some (some ⟨0x50020000, []⟩, 0x04) := by decide
theorem test_csend_terminator :
    after (.csend 0 0x5A 0) inText = some (some ⟨0x51000102, []⟩, 0) := by decide
theorem test_csend_not_a_letter :
    after (.csend 0 0x31 5) State.reset = some (some ⟨0x51040000, []⟩, 0x10) := by decide
theorem test_cui_first : after (.cui 0 0x61) State.reset = some (some ⟨0x52000001, []⟩, 0) := by decide
theorem test_cui_not_printable : after (.cui 0 0x7F) State.reset = some (some ⟨0x52000000, []⟩, 0) := by decide

/-- 95_test_vectors.md, section 2.10, rows 1, 2, 3, 5, 8, 11, 12, 14. -/
theorem test_faults :
    answer ⟨0x00000000, []⟩ State.reset = some (some ⟨0x00010000, []⟩, 0x02) ∧
    answer ⟨0xFF123456, []⟩ State.reset = some (some ⟨0xFF010000, []⟩, 0x02) ∧
    answer ⟨0x10000141, []⟩ State.reset = some (some ⟨0x10010000, []⟩, 0x02) ∧
    answer ⟨0x16000000, []⟩ State.reset = some (some ⟨0x16010000, []⟩, 0x02) ∧
    answer ⟨0x30030000, [1, 2]⟩ State.reset = some (some ⟨0x30040000, []⟩, 0x10) ∧
    answer ⟨0x12000003, [0x41, 0x42]⟩ State.reset = some (some ⟨0x12040000, []⟩, 0x10) ∧
    answer ⟨0x12050001, [0x100]⟩ State.reset = some (some ⟨0x12020000, []⟩, 0x04) ∧
    answer ⟨0x30030000, [1, 2, 0]⟩ State.reset = some (some ⟨0x30020000, []⟩, 0x04) := by decide

/-- The example of 42_qenc.md R171. -/
theorem test_edgeA :
    Enc.edge { Enc.init with tEdge := 997, count := 4 } 1000 (senseA true false)
      = { Enc.init with tEdge := 1000, count := 5, lastInterval := 3, sense := .minus } := by decide

/-- The example of 42_qenc.md R172. -/
theorem test_edgeB :
    Enc.edge { Enc.init with tEdge := 1000, count := 5 } 1000 (senseB true true)
      = { Enc.init with tEdge := 1000, count := 6, lastInterval := 0, sense := .minus } := by decide

/-- The example of 44_sched.md R231. -/
theorem test_mstick_wraps : (eventMstick { State.reset with time := 0xFFFFFFFF }).time = 0 := by decide

/-- The examples of 43_pid.md R192. -/
theorem test_rdiv :
    rdiv 5 2 = 3 ∧ rdiv (-5) 2 = -3 ∧ rdiv 1 2 = 1 ∧ rdiv (-1) 2 = -1 ∧ rdiv 1 3 = 0 ∧ rdiv 2 3 = 1 := by
  decide

/-- V-CODEC-3c and 3d: the two settings of `PARSE_OVF`, and leading zeros. -/
theorem test_parseUint :
    parseUint .wrap (List.replicate 10 0x39) = 0x540BE3FF ∧
    parseUint .saturate (List.replicate 10 0x39) = 0xFFFFFFFF ∧
    parseUint .wrap [0x30, 0x30, 0x37] = 7 := by decide

/-- V-SRC-16: the expansion of `CCMDPRINT 0, "Hi"`. -/
theorem test_ccmdPrint :
    ccmdPrint 0 [0x48, 0x69] = [.csend 0 0x70 72, .csend 0 0x70 105, .csend 0 0x70 0] := by decide

/-! ### Witnesses: for every statement with hypotheses, states and operands that meet them -/

/-- `FIFO[0]` holds two bytes, its cursors at 4 and 6 (the example of 40_fifo.md R113). -/
def qHalf : State := withQueue 4 [0x35, 0x36]

/-- `FIFO[0]` is full and its occupied region wraps: `start = 4`, `end = 3`. -/
def qFull : State := withQueue 4 [0x35, 0x36, 0x41, 0x42, 0x43, 0x44, 0x45]

/-- `FIFO[0]` is empty with both cursors at the top of the array. -/
def qEmpty : State := withQueue 7 []

/-- `FIFO[0]` holds the frame `M5,` across the top of the array. -/
def qFrame : State := withQueue 6 [0x4D, 0x35, 0x2C]

/-- A tick is due. -/
def tickDue : State := { qEmpty with time := 1 }

/-- The last millisecond before the wrap of `T`, with a backlog of 2. -/
def backlogTwo : State :=
  { qEmpty with time := 0, sched := { qEmpty.sched with lastMs := 0xFFFFFFFE, d10 := 9, d100 := 9, d1000 := 9 } }

theorem inv_qHalf : qHalf.Inv :=
  ⟨by decide, by decide, by decide, by decide, by decide, by decide, by decide, by decide⟩
theorem inv_qFull : qFull.Inv :=
  ⟨by decide, by decide, by decide, by decide, by decide, by decide, by decide, by decide⟩
theorem inv_qEmpty : qEmpty.Inv :=
  ⟨by decide, by decide, by decide, by decide, by decide, by decide, by decide, by decide⟩
theorem inv_qFrame : qFrame.Inv :=
  ⟨by decide, by decide, by decide, by decide, by decide, by decide, by decide, by decide⟩
theorem inv_parsed : parsed.Inv :=
  ⟨by decide, by decide, by decide, by decide, by decide, by decide, by decide, by decide⟩
theorem inv_inText : inText.Inv :=
  ⟨by decide, by decide, by decide, by decide, by decide, by decide, by decide, by decide⟩

theorem witness_DecodeOfEncode : (Instr.fwrite 255 [0xFF, 0x100]).wf = true := by decide
theorem witness_EncodeOfDecode : decode ⟨0x520000FF, []⟩ = .instr (.cui 0 0xFF) := by decide
theorem witness_IllegalHeaderRaisesIllegalOp_row :
    (∀ r ∈ rows, (0x11000001 : Word) &&& r.mask ≠ r.pat) ∧ (∀ r ∈ rows, (0 : Word) &&& r.mask ≠ r.pat) := by
  decide
theorem witness_IllegalHeaderRaisesIllegalOp_opcode :
    ∀ h ∈ ([0x00123456, 0x03000000, 0x0F000000, 0x16000000, 0x53000000, 0xFF000000] : List Word),
      h.extractLsb' 24 8 ∉ ([0x01, 0x02, 0x10, 0x11, 0x12, 0x13, 0x14, 0x15, 0x20, 0x30, 0x31,
        0x40, 0x41, 0x50, 0x51, 0x52] : List Byte) := by simp
theorem witness_WrongWordCountRaisesBadOperand :
    (Instr.fwrite 0 [1, 2]).wf = true ∧ [1, 2, 3].length ≠ (Instr.fwrite 0 [1, 2]).operandWords ∧
      [1].length ≠ (Instr.fwrite 0 [1, 2]).operandWords ∧ [1].length ≠ Instr.tpoll.operandWords := by decide
theorem witness_StepRunsTheDecodedOperation_idle : qEmpty.inputs = [] := by decide
theorem witness_StepRunsTheDecodedOperation_command :
    (qEmpty.offer (.command ⟨0x40000000, []⟩)).inputs = .command ⟨0x40000000, []⟩ :: [] ∧
      decode ⟨0x40000000, []⟩ = .instr .tpoll := by decide
theorem witness_StepRunsTheDecodedOperation_reject :
    (qEmpty.offer (.command ⟨0x40000001, []⟩)).inputs = .command ⟨0x40000001, []⟩ :: [] ∧
      decode ⟨0x40000001, []⟩ = .reject .illegalOp := by decide
theorem witness_StepRunsTheDecodedOperation_table : decodeTableWord 32 0x14010000 = some (.favail 1) := by decide
theorem witness_RaiseSetsItsBitAndAnswers :
    ∀ p ∈ ([(.illegalOp, 1), (.pidDt0, 6)] : List (FaultCode × Nat)),
      p ∈ ([(.illegalOp, 1), (.badInstance, 2), (.badReg, 3), (.badOperand, 4), (.encDiv0, 5),
        (.pidDt0, 6)] : List (FaultCode × Nat)) := by decide
theorem witness_AnswerIsDoneOrOneFault : ∃ t, exec (.fpop 2) qHalf = .next t := ⟨_, rfl⟩
theorem witness_StickyBitsStay :
    (State.offer { qHalf with faultReg := 0x7E } (.command ⟨0x11000001, []⟩)).inputs.head? ≠ some .reset ∧
      ∃ t, step (State.offer { qHalf with faultReg := 0x7E } (.command ⟨0x11000001, []⟩)) = .next t :=
  ⟨by decide, _, rfl⟩

theorem witness_CfgrdReadsTheMap :
    qHalf.encs.length ≤ 16 ∧ (0x0140 : Half).toNat ∉ registerNumbers qHalf.encs.length ∧
      (0x0000 : Half).toNat ∉ registerNumbers qHalf.encs.length ∧
      qHalf.enc? 0 = some Enc.init ∧ (0x0100 : Half).toNat = 0x0100 + 0x10 * 0 ∧
      qHalf.enc? 3 = some Enc.init ∧ (0x0130 : Half).toNat = 0x0100 + 0x10 * 3 ∧
      (0x0200 : Half).toNat = 0x0200 + 0x10 * Axis.vehicle.number ∧
      (0x0211 : Half).toNat = 0x0201 + 0x10 * Axis.left.number ∧
      (0x0222 : Half).toNat = 0x0202 + 0x10 * Axis.right.number := by decide
theorem witness_CfgwrWritesTheMap :
    qHalf.encs.length ≤ 16 ∧ (0x0230 : Half).toNat ∉ registerNumbers qHalf.encs.length ∧
      (0x0001 : Half).toNat = 0x0001 ∧ (0x0002 : Half).toNat = 0x0002 ∧
      (0x80000000 : Word).getLsbD 31 = true ∧ (0x7FFFFFFF : Word).getLsbD 31 = false ∧
      (4 : Word).extractLsb' 2 30 ≠ 0 ∧ (3 : Word).extractLsb' 2 30 = 0 ∧
      qHalf.enc? 3 = some Enc.init ∧ (0x0130 : Half).toNat = 0x0100 + 0x10 * 3 ∧
      (0x10000 : Word).extractLsb' 16 16 ≠ 0 ∧ (0xFFFF : Word).extractLsb' 16 16 = 0 ∧
      (0x0210 : Half).toNat = 0x0200 + 0x10 * Axis.left.number ∧
      (0x0201 : Half).toNat = 0x0201 + 0x10 * Axis.vehicle.number ∧
      (0x0222 : Half).toNat = 0x0202 + 0x10 * Axis.right.number := by decide
theorem witness_ReadAfterWriteOfRegister :
    ∃ t, exec (.cfgwr 0x0011 0x7FFFFFFF) qHalf = .next t ∧
      t.response = some ⟨(0x02 : Byte) ++ (0 : Byte) ++ (0 : Half), []⟩ := ⟨_, rfl, by decide⟩

theorem witness_FpushPutsOneByte :
    qFull.Inv ∧ qHalf.Inv ∧ qHalf.nfifo ≤ (2 : Byte).toNat ∧
      (∃ q, qFull.fifo? 0 = some q ∧ (q.stop + 1) % q.size = q.start) ∧
      (∃ q, qHalf.fifo? 0 = some q ∧ (q.stop + 1) % q.size ≠ q.start) :=
  ⟨inv_qFull, inv_qHalf, by decide, ⟨_, rfl, by decide⟩, ⟨_, rfl, by decide⟩⟩
theorem witness_FpopTakesOneByte :
    qFull.Inv ∧ qEmpty.Inv ∧ qEmpty.nfifo ≤ (2 : Byte).toNat ∧
      (∃ q, qEmpty.fifo? 0 = some q ∧ q.start = q.stop) ∧ (∃ q, qFull.fifo? 0 = some q ∧ q.start ≠ q.stop) :=
  ⟨inv_qFull, inv_qEmpty, by decide, ⟨_, rfl, by decide⟩, ⟨_, rfl, by decide⟩⟩
theorem witness_FwritePutsWhatFits :
    qHalf.Inv ∧ ([0x41, 0xFF] : List Word).length = (2 : Half).toNat ∧
      ([0x41] : List Word).length ≠ (2 : Half).toNat ∧ qHalf.nfifo ≤ (2 : Byte).toNat ∧
      (∃ w ∈ ([0x41, 0x100] : List Word), w.extractLsb' 8 24 ≠ 0) ∧
      (∀ w ∈ ([0x41, 0xFF] : List Word), w.extractLsb' 8 24 = 0) ∧
      (∃ q n, qHalf.fifo? 0 = some q ∧ n = min ([0x41, 0xFF] : List Word).length (q.size - 1 - q.used)) :=
  ⟨inv_qHalf, by decide, by decide, by decide, ⟨0x100, by simp, by decide⟩, by simp, ⟨_, _, rfl, rfl⟩⟩
theorem witness_FreadTakesUpToMaxLen :
    qFull.Inv ∧ qFull.nfifo ≤ (2 : Byte).toNat ∧
      (∃ q n, qFull.fifo? 0 = some q ∧ n = min (0xFFFF : Half).toNat q.used) :=
  ⟨inv_qFull, by decide, ⟨_, _, rfl, rfl⟩⟩
theorem witness_CountsAreUsedAndFree :
    qFull.Inv ∧ qFull.nfifo ≤ (2 : Byte).toNat ∧ (∃ q, qFull.fifo? (1 : Byte).toNat = some q) :=
  ⟨inv_qFull, by decide, ⟨_, rfl⟩⟩
theorem witness_AccountingLaw :
    Reachable { State.build Params.default with inputs := [.mstick] } ∧
      ∃ q, State.fifo? { State.build Params.default with inputs := [.mstick] } (1 : Byte).toNat = some q :=
  ⟨.start Params.default [.mstick] (by decide) (by decide), _, rfl⟩
theorem witness_CapacityLaw :
    qEmpty.Inv ∧ (∃ q, qEmpty.fifo? (0 : Byte).toNat = some q ∧ q.start = q.stop ∧
      q.size - 1 ≤ (List.replicate 7 (0xFF : Word)).length) ∧
      ∀ w ∈ List.replicate 7 (0xFF : Word), w.toNat < 256 :=
  ⟨inv_qEmpty, ⟨_, rfl, by decide, by decide⟩, by simp⟩
theorem witness_FwriteIsSuccessiveFpush :
    qHalf.Inv ∧ (∃ q, qHalf.fifo? (0 : Byte).toNat = some q) ∧
      ∀ w ∈ ([0x41, 0x42, 0x43, 0x44, 0x45, 0xFF] : List Word), w.toNat < 256 :=
  ⟨inv_qHalf, ⟨_, rfl⟩, by simp⟩
theorem witness_FreadIsSuccessiveFpop : qFull.Inv ∧ ∃ q, qFull.fifo? (0 : Byte).toNat = some q :=
  ⟨inv_qFull, _, rfl⟩

/-- The queue of `qEmpty`, elsewhere in the array. -/
theorem witness_SlotsAreNotVisible :
    qEmpty.Inv ∧ (withQueue 2 []).Inv ∧ qEmpty.SameView (withQueue 2 []) ∧
      ∃ t, exec (.fpush 0 0x41) qEmpty = .next t :=
  ⟨inv_qEmpty,
    ⟨by decide, by decide, by decide, by decide, by decide, by decide, by decide, by decide⟩,
    ⟨by decide,
      fun f => match f with
        | 0 => by decide
        | 1 => by decide
        | n + 2 => by
          have h : (n + 2) / 2 = n / 2 + 1 := by omega
          simp only [State.fifo?, h]; rfl,
      fun c => match c with
        | 0 => by decide
        | _ + 1 => rfl⟩,
    _, rfl⟩
theorem witness_PutAndTakeCommute :
    qHalf.Inv ∧ ∃ q, qHalf.fifo? (0 : Byte).toNat = some q ∧ q.empty = false ∧ q.full = false :=
  ⟨inv_qHalf, _, rfl, by decide, by decide⟩

theorem witness_CrxFeedsTheParser :
    parsed.Inv ∧ parsed.transports.length ≤ (1 : Byte).toNat ∧
      ∃ k, parsed.codec? (0 : Byte).toNat = some k ∧ 1 ≤ k.len ∧ k.len ≤ 10 ∧ isDigit 0x39 = true ∧
        isLetter 0x7A = true ∧ isLetter 0x2C = false ∧ isDigit 0x2C = false :=
  ⟨inv_parsed, by decide, _, rfl, by decide, by decide, by decide, by decide, by decide, by decide⟩
theorem witness_ParseUintIsDecimal :
    (fun n : Nat => if n = 0 then 0 else 7) 0 = 0 ∧
      ∀ i, i < ([0x37] : List Byte).length →
        (fun n : Nat => if n = 0 then 0 else 7) (i + 1)
          = (fun n : Nat => if n = 0 then 0 else 7) i * 10 + ((([0x37] : List Byte).getD i 0).toNat - 0x30) := by
  decide
theorem witness_CsendAppendsTheFrame :
    inText.Inv ∧ inText.transports.length ≤ (1 : Byte).toNat ∧
      (∃ k q, inText.codec? (0 : Byte).toNat = some k ∧ inText.fifo? (2 * (0 : Byte).toNat + 1) = some q) ∧
      isLetter 0x5B = false ∧ isLetter 0x5A = true ∧ (10 : Word) ≠ 0 ∧
      (fun n : Nat => [0, 1, 10].getD n 0) 0 = 0 ∧
      ∀ i, i < (dec 10).length → (fun n : Nat => [0, 1, 10].getD n 0) (i + 1)
        = (fun n : Nat => [0, 1, 10].getD n 0) i * 10 + (((dec 10).getD i 0).toNat - 0x30) :=
  ⟨inv_inText, by decide, ⟨_, _, rfl, rfl⟩, by decide, by decide, by decide, by decide, by decide⟩
theorem witness_CuiAppendsPrintables :
    inText.Inv ∧ inText.transports.length ≤ (1 : Byte).toNat ∧
      (∃ k q, inText.codec? (0 : Byte).toNat = some k ∧ inText.fifo? (2 * (0 : Byte).toNat + 1) = some q) ∧
      (0x1F : Byte).toNat < 0x20 ∧ 0x7E < (0x7F : Byte).toNat ∧ 0x20 ≤ (0x7E : Byte).toNat ∧
      (0x7E : Byte).toNat ≤ 0x7E ∧ 0x20 ≤ (0x20 : Byte).toNat :=
  ⟨inv_inText, by decide, ⟨_, _, rfl, rfl⟩, by decide, by decide, by decide, by decide, by decide⟩
theorem witness_FrameParsesBack :
    parsed.Inv ∧ (0 : Byte).toNat < parsed.transports.length ∧ isLetter 0x71 = true :=
  ⟨inv_parsed, by decide, by decide⟩
theorem witness_EleventhDigitDiscards :
    parsed.Inv ∧ (0 : Byte).toNat < parsed.transports.length ∧ isLetter 0x58 = true ∧
      11 ≤ (List.replicate 11 (0x30 : Byte)).length ∧ ∀ d ∈ List.replicate 11 (0x30 : Byte), isDigit d = true :=
  ⟨inv_parsed, by decide, by decide, by decide, by decide⟩
theorem witness_FrameSurvivesTheReceiveFifo :
    qFrame.Inv ∧ isLetter 0x4D = true ∧ ∃ q, qFrame.fifo? (2 * (0 : Byte).toNat) = some q ∧
      q.queue = 0x4D :: ((if (5 : Word) = 0 then [] else dec 5) ++ [0x2C]) ∧ q.used < 4 :=
  ⟨inv_qFrame, by decide, _, rfl, by decide, by decide⟩

theorem witness_EdgesCountAndTimeStamp :
    (qHalf.offer (.edgeA 3 true false)).enc? 3 = some Enc.init ∧
      (qHalf.offer (.edgeA 3 true false)).inputs = .edgeA 3 true false :: [] ∧
      (qHalf.offer (.edgeB 3 true true)).inputs = .edgeB 3 true true :: [] := by decide
theorem witness_EdgeOfAbsentEncoderStops :
    (qHalf.offer (.edgeA 4 true false)).encs.length ≤ 4 ∧
      (qHalf.offer (.edgeA 4 true false)).inputs = .edgeA 4 true false :: [] := by decide

/-- The fields of an encoder at the boundaries of the branches of 42_qenc.md R173. -/
def encAt (count li ppr : Nat) : Enc :=
  { Enc.init with count := BitVec.ofNat 32 count, lastInterval := BitVec.ofNat 32 li, ppr := BitVec.ofNat 16 ppr }

theorem witness_EsyncAppliesTheSpeedPolicy :
    qHalf.encs.length ≤ (4 : Byte).toNat ∧
      (∀ n ∈ [encAt 1 0 0, encAt 2 1 0, encAt 2 1 1, encAt 2 2 0, encAt 2 2 1],
        (qHalf.setEnc 3 n).enc? (3 : Byte).toNat = some n) ∧
      (encAt 1 0 0).count.toNat < 2 ∧
      2 ≤ (encAt 2 1 0).count.toNat ∧ (encAt 2 1 0).lastInterval.toNat < (encAt 2 1 0).count.toNat ∧
      4 * (encAt 2 1 0).ppr.toNat = 0 ∧
      4 * (encAt 2 1 1).ppr.toNat * ((8 : Word) - (encAt 2 1 1).tSync).toNat ≠ 0 ∧
      (encAt 2 2 0).count.toNat ≤ (encAt 2 2 0).lastInterval.toNat ∧ 4 * (encAt 2 2 0).ppr.toNat = 0 ∧
      4 * (encAt 2 2 1).ppr.toNat ≠ 0 := by decide

/-- Both ends of both ranges of 00_scope.md R8, and the values next to them. -/
theorem test_saturation_ends :
    satW 2147483647 = 2147483647 ∧ satW 2147483648 = 2147483647 ∧
      satW (-2147483648) = -2147483648 ∧ satW (-2147483649) = -2147483648 ∧
      sat16 32767 = 32767 ∧ sat16 32768 = 32767 ∧ sat16 (-32768) = -32768 ∧ sat16 (-32769) = -32768 := by decide
/-- V-PID-4, and its mirror by hand: the error, the rate and the command clip at the end the sign gives. -/
theorem test_pid_clips :
    pidCompute { kp := 0x00010000, ki := 0, kd := 0 } PidState.init 2147483647 (-2147483648) 1000
        = { err := 2147483647, integ := 1073741824, out := 2147483647, cmd := 32767, clipped := true } ∧
      pidCompute { kp := 0x00010000, ki := 0, kd := 0 } PidState.init (-2147483648) 2147483647 1000
        = { err := -2147483648, integ := -1073741824, out := -2147483648, cmd := -32768, clipped := true } := by
  decide +kernel
/-- 41_codec.md R149: the longest spelling, and one with zeros inside and at its end. -/
theorem test_dec :
    dec 4294967295 = [0x34, 0x32, 0x39, 0x34, 0x39, 0x36, 0x37, 0x32, 0x39, 0x35] ∧
      dec 10 = [0x31, 0x30] ∧ dec 100200 = [0x31, 0x30, 0x30, 0x32, 0x30, 0x30] := by decide +kernel
/-- Assumption log 19: there is no CRXDRAIN of an instance whose receive FIFO the `inst` field cannot name; at
the last one it can name, FPOP answers BadInstance and the drain ends. -/
theorem test_crxDrain_range :
    crxDrain 128 2 State.reset = none ∧
      (crxDrain 127 2 State.reset).map (fun p => (p.1, p.2.faultReg)) = some ([], 4) := by decide +kernel
theorem witness_RdivIsNearest : 0 < 2 ∧ 2 * ((2 : Int) * rdiv 5 2 - 5).natAbs = 2 := by decide
theorem witness_PupdateRunsTheDatapath :
    3 ≤ (3 : Byte).toNat ∧ (2 : Byte).toNat < 3 ∧ (0 : Word) = 0 ∧ (1 : Byte).toNat = Axis.left.number ∧
      (10 : Word) ≠ 0 := by decide
theorem witness_NoClipMeansRoundingOnly :
    0 < 10 ∧ (pidCompute { kp := 0x00020000, ki := 0x00008000, kd := 0x00004000 } PidState.init
      (0x00050000 : Word).toInt (0x00030000 : Word).toInt 10).clipped = false := by decide +kernel
theorem witness_DocumentTestProperties : 0 < 10 ∧ PidState.init.prevErr = 0 ∧ PidState.init.integ = 0 := by decide
theorem witness_IntegralStaysAtTheRail :
    ({ PidState.init with integ := 0x7FFFFFFF } : PidState).integ = 0x7FFFFFFF ∧
      (0 : Int) ≤ rdiv ((satW (1 - 0) + 0) * 1000) 2000 ∧ rdiv ((satW (0 - 1) + 0) * 1000) 2000 < 0 := by
  decide +kernel
theorem witness_CupdateIsThreeUpdates : (0 : Word) = 0 ∧ (10 : Word) ≠ 0 := by decide
theorem witness_InnerTargetStaysInTheBand : (1 : Word) ≠ 0 ∧ setupA.slip ≠ 0 := by decide

theorem witness_MstickAddsOne : (qHalf.offer .mstick).inputs = .mstick :: [] := by decide
theorem witness_TpollDispatchesOneTick :
    (qHalf.withPhase .txdrain).sched.phase ≠ .idle ∧
      qHalf.sched.phase = .idle ∧ qHalf.time = qHalf.sched.lastMs ∧
      tickDue.sched.phase = .idle ∧ tickDue.time ≠ tickDue.sched.lastMs := by decide
theorem witness_TnextEndsThePhase :
    (Phase.idle, Phase.idle, (0 : Half)) ∈ ([(.idle, .idle, 0), (.sync, .pid, 2), (.pid, .rxdrain, 3),
        (.rxdrain, .txdrain, 4), (.txdrain, .idle, 0)] : List (Phase × Phase × Half)) ∧
      qHalf.sched.phase = .idle ∧
      (Phase.txdrain, Phase.idle, (0 : Half)) ∈ ([(.idle, .idle, 0), (.sync, .pid, 2), (.pid, .rxdrain, 3),
        (.rxdrain, .txdrain, 4), (.txdrain, .idle, 0)] : List (Phase × Phase × Half)) ∧
      (qHalf.withPhase .txdrain).sched.phase = .txdrain := by decide
theorem witness_NoOtherPhaseTransition :
    (State.offer (qHalf.withPhase .sync) (.command ⟨0x41000000, []⟩)).inputs.head? ≠ some .reset ∧
      (State.offer (qHalf.withPhase .sync) (.command ⟨0x41000000, []⟩)).inputs.tail = [] ∧
      ∃ t, step (State.offer (qHalf.withPhase .sync) (.command ⟨0x41000000, []⟩)) = .next t ∧
        t.sched.phase ≠ .sync :=
  ⟨by decide, by decide, _, rfl, by decide⟩
theorem witness_PhaseGatesNothing :
    Instr.fpop 0 ≠ .tpoll ∧ Instr.fpop 0 ≠ .tnext ∧ ∃ t, exec (.fpop 0) qFull = .next t :=
  ⟨by decide, by decide, _, rfl⟩
theorem witness_TickLaw : Sched.init = (fun j : Sched => j.tick.1)^[0] Sched.init := rfl
theorem witness_PollsCatchUp :
    backlogTwo.sched.phase = .idle ∧ backlogTwo.backlog ≠ 0 ∧ 1 ≤ tickDue.backlog ∧
      (∃ t, exec .tpoll backlogTwo = .next t) ∧
      (∃ rs t, execTrace (List.replicate 1 .tpoll) tickDue = some (rs, t) ∧
        ∀ r ∈ rs, (responseRes r).getLsbD 15 = false) :=
  ⟨by decide, by decide, by decide, ⟨_, rfl⟩, ⟨_, _, rfl, by decide⟩⟩

theorem witness_ResetSetsEveryField : (qFull.offer .reset).inputs = .reset :: [] := by decide
theorem witness_UsableAfterReset :
    Params.default.wf = true ∧ (∃ q, (State.build Params.default).fifo? (1 : Byte).toNat = some q) ∧
      (∃ k, (State.build Params.default).codec? 0 = some k) ∧ (3 : Byte).toNat < Params.default.nenc ∧
      (2 : Byte).toNat < 3 ∧ (1 : Word) ≠ 0 :=
  ⟨by decide, ⟨_, rfl⟩, ⟨_, rfl⟩, by decide, by decide, by decide⟩
theorem witness_BuiltStateIsLegal :
    Params.default.wf = true ∧ ∀ i ∈ [Input.edgeA 3 true true, .mstick], legalInput Params.default.nenc i = true := by
  decide
theorem witness_StepKeepsTheInvariant :
    qHalf.Inv ∧ ∃ t, step qHalf = .next t := ⟨inv_qHalf, _, rfl⟩
theorem witness_EveryStepHasANextState : qFull.Inv := inv_qFull
theorem witness_ParametersNeverChange : ∃ t, step (qFull.offer .reset) = .next t := ⟨_, rfl⟩
theorem witness_EncoderFieldsAreOwned :
    (∀ e', Instr.esync 1 = .esync e' → e'.toNat ≠ 0) ∧ (∃ t, exec (.esync 1) qHalf = .next t) ∧
      ∃ n, qHalf.enc? 0 = some n :=
  ⟨fun e' h => by cases h; decide, ⟨_, rfl⟩, _, rfl⟩
theorem witness_StateIsOwned : ∃ t, exec (.fpop 0) qFull = .next t := ⟨_, rfl⟩
theorem witness_MstickCommutes :
    (Instr.fpop 0).op ≠ .esync ∧ (Instr.fpop 0).op ≠ .tpoll ∧ ∃ t, exec (.fpop 0) qFull = .next t :=
  ⟨by decide, by decide, _, rfl⟩
theorem witness_EdgesCommute :
    (∀ e', Instr.esync 1 = .esync e' → e'.toNat ≠ 3) ∧ 3 < qHalf.encs.length ∧
      (∃ t, exec (.esync 1) qHalf = .next t) ∧ (3 : Nat) ≠ 0 ∧ 0 < qHalf.encs.length :=
  ⟨fun e' h => by cases h; decide, by decide, ⟨_, rfl⟩, by decide, by decide⟩

end Sys2Proof.Tests
end

/-! The statements of 00_scope.md: the primitives of R8, one step of R9, the parameters of R6, and the progress of
R11. What an operation can do in any state is said once, by `State.Answered` and `exec_answered`; the statements
about every operation are read off it. -/
namespace Sys2Proof.Machine

/-! ### The integer primitives (R8) -/

/-- The quotient of `rdiv` on magnitudes, between its two bounds: `d * q` lies in `a - d/2 < d * q ≤ a + d/2`. -/
theorem rdiv_quotient_bounds (a d : Nat) (hd : 0 < d) :
    2 * (d * ((2 * a + d) / (2 * d))) ≤ 2 * a + d ∧
      2 * a < 2 * (d * ((2 * a + d) / (2 * d))) + d := by
  have hdiv := Nat.div_add_mod (2 * a + d) (2 * d)
  have hmod := Nat.mod_lt (2 * a + d) (show 0 < 2 * d by omega)
  rw [Nat.mul_assoc] at hdiv
  omega

/-- Of a number that is not negative, `rdiv` is the quotient itself. -/
theorem rdiv_natCast (a d : Nat) (hd : 0 < d) : rdiv (a : Int) d = ((2 * a + d) / (2 * d) : Nat) := by
  rcases Nat.eq_zero_or_pos a with rfl | ha
  · have hq : (2 * 0 + d) / (2 * d) = 0 := Nat.div_eq_of_lt (by omega)
    rw [hq]; exact rdiv_zero d
  · rw [rdiv, Int.sign_eq_one_of_pos (by omega), Int.natAbs_natCast, one_mul]

/-- The rounding error of a number that is not negative is at most half of `d`, and a tie is rounded up. -/
theorem rdiv_natCast_nearest (a d : Nat) (hd : 0 < d) :
    2 * (d * rdiv a d - a).natAbs ≤ d ∧
      (2 * (d * rdiv a d - a).natAbs = d → a < (d * rdiv a d).natAbs) := by
  have hb := rdiv_quotient_bounds a d hd
  rw [rdiv_natCast a d hd, ← Nat.cast_mul]
  omega

/-- The rounding error is at most half of `d`, and a tie goes away from zero: by the symmetry in sign it is enough
to round magnitudes. -/
theorem rdiv_nearest (n : Int) (d : Nat) (hd : 0 < d) :
    2 * (d * rdiv n d - n).natAbs ≤ d ∧
      (2 * (d * rdiv n d - n).natAbs = d → n.natAbs < (d * rdiv n d).natAbs) := by
  have h := rdiv_natCast_nearest n.natAbs d hd
  rcases Int.natAbs_eq n with hn | hn
  · rwa [← hn] at h
  · have herr : d * rdiv n d - n = -(d * rdiv n.natAbs d - n.natAbs) := by
      rw [hn, rdiv_neg, Int.natAbs_neg, Int.natAbs_natCast]; ring
    have hval : d * rdiv n d = -(d * rdiv n.natAbs d) := by
      rw [hn, rdiv_neg, Int.natAbs_neg, Int.natAbs_natCast]; ring
    rwa [herr, hval, Int.natAbs_neg, Int.natAbs_neg]

/-- Settles O34: `rdiv_nearest` with the sign symmetry and the unit divisor of Laws/Arith.lean. -/
theorem rdivIsNearest : Obligations.RdivIsNearest := by
  intro n d hd
  obtain ⟨hle, htie⟩ := rdiv_nearest n d hd
  exact ⟨hle, htie, rdiv_neg n d, rdiv_one n⟩

/-- Settles O59: both narrowings are defined by these bounds. -/
theorem saturationBounds : Obligations.SaturationBounds :=
  ⟨fun _ => rfl, fun _ => rfl⟩

/-! ### The step (R9, R80) -/

/-- With no input to come the step is idle. -/
theorem step_nil (s : State) (h : s.inputs = []) : step s = .next s := by
  rw [step, h]

/-- With an input to come the step takes it and runs it. -/
theorem step_cons (s : State) (i : Input) (rest : List Input) (h : s.inputs = i :: rest) :
    step s = runInput i { s with inputs := rest } := by
  rw [step, h]

/-- The step after an input was put in front runs that input on the state before. -/
theorem step_offer (s : State) (i : Input) : step (s.offer i) = runInput i s := rfl

/-- A packet that spells an operation runs it. -/
theorem runCommand_instr (s : State) (p : Packet) (i : Instr) (h : decode p = .instr i) :
    runCommand p s = exec i s := by
  rw [runCommand, h]

/-- A packet that spells none raises its fault. -/
theorem runCommand_reject (s : State) (p : Packet) (r : Reject) (h : decode p = .reject r) :
    runCommand p s = .next (s.raise (opField p.header) (rejectFault r)) := by
  rw [runCommand, h]

/-- A table word that spells an operation is a packet that decodes to it. -/
theorem decode_of_decodeTableWord (nbits w : Nat) (i : Instr) (h : decodeTableWord nbits w = some i) :
    decode (packetOfBits nbits w) = .instr i := by
  unfold decodeTableWord at h
  split at h
  · next j hj => rw [hj, Option.some.inj h]
  · cases h

/-- Settles O6: the equations of `step`, `runCommand` and `decodeTableWord`, one for each clause. -/
theorem stepRunsTheDecodedOperation : Obligations.StepRunsTheDecodedOperation := by
  intro s
  refine ⟨step_nil s, ?_, ?_, ?_⟩
  · intro p rest i hin hdec
    exact (step_cons s _ rest hin).trans (runCommand_instr _ p i hdec)
  · intro p rest r hin hdec
    exact (step_cons s _ rest hin).trans (runCommand_reject _ p r hdec)
  · intro nbits w i hw
    exact (step_offer s _).trans (runCommand_instr s _ i (decode_of_decodeTableWord nbits w i hw))

/-! ### What an operation can do, in any state -/

/-- What operation `i` can make of state `s` before it answers, when it raises no fault. -/
inductive State.Effect (s : State) : Instr → State → Prop where
  | cfgrd {reg : Half} : Effect s (.cfgrd reg) s
  | cfgwr {reg : Half} {value : Word} {r : Reg} {u : State} (hr : regOf s.encs.length reg = some r)
      (hw : s.writeReg r value = .ok u) : Effect s (.cfgwr reg value) u
  | fpush {f b : Byte} {q q' : Fifo} {accepted : Bool} (hq : s.fifo? f.toNat = some q)
      (hp : q.push b = some (q', accepted)) : Effect s (.fpush f b) (s.setFifo f.toNat q')
  | fpop {f : Byte} {q q' : Fifo} {o : Option Byte} (hq : s.fifo? f.toNat = some q)
      (hp : q.pop = some (q', o)) : Effect s (.fpop f) (s.setFifo f.toNat q')
  | fwrite {f : Byte} {payload : List Word} {q q' : Fifo} {n : Nat} (hq : s.fifo? f.toNat = some q)
      (hl : payload.all legalPayload = true)
      (hp : q.put (payload.map payloadByte) = some (q', n)) :
      Effect s (.fwrite f payload) (s.setFifo f.toNat q')
  | fread {f : Byte} {maxLen : Half} {q q' : Fifo} {d : List Byte} (hq : s.fifo? f.toNat = some q)
      (hp : q.take maxLen.toNat = some (q', d)) : Effect s (.fread f maxLen) (s.setFifo f.toNat q')
  | favail {f : Byte} : Effect s (.favail f) s
  | ffree {f : Byte} : Effect s (.ffree f) s
  | esync {e : Byte} {n : Enc} {branch : SyncBranch} {rate : Int} (hn : s.enc? e.toNat = some n)
      (hr : n.rate s.time = some (branch, rate)) :
      Effect s (.esync e)
        ((s.setEnc e.toNat (n.synced s.time)).flagStatus (encsatBit e.toNat) (satW rate != rate))
  | pupdate {p : Byte} {x : Axis} {target actual dt : Word} (hx : axisOf p = some x) (hdt : dt ≠ 0) :
      Effect s (.pupdate p target actual dt) (s.pidUpdate x (s32 target) (s32 actual) dt.toNat)
  | cupdate {vactual lactual ractual dt : Word} {inner : Int} {clipped : Bool} (hdt : dt ≠ 0)
      (hband : slipClamp (outerValue s.settings.outerRound
          (s.pidResult .vehicle (s32 s.vtarget) (s32 vactual) dt.toNat)) (s32 vactual) s.slip.toNat
        = (inner, clipped)) :
      Effect s (.cupdate vactual lactual ractual dt)
        ((((s.pidUpdate .vehicle (s32 s.vtarget) (s32 vactual) dt.toNat).flagStatus
          Axis.vehicle.number clipped).pidUpdate .left inner (s32 lactual) dt.toNat).pidUpdate
          .right inner (s32 ractual) dt.toNat)
  | tpollNoTick : Effect s .tpoll s
  | tpollTick {ph : Phase} (hidle : s.sched.phase = .idle) (hdue : s.time ≠ s.sched.lastMs) :
      Effect s .tpoll { s with sched := { s.sched.tick.1 with phase := ph } }
  | tnext : Effect s .tnext { s with sched := { s.sched with phase := s.sched.phase.next } }
  | crx {c b : Byte} {t : Transport} {k : Codec} {o : Option (Byte × Word)}
      (ht : s.transport? c.toNat = some t) (hf : t.codec.feed s.settings.parseOvf b = some (k, o)) :
      Effect s (.crx c b) (s.setTransport c.toNat { t with codec := k })
  | csend {c code : Byte} {value : Word} {t t' : Transport} {e : Bool} {n : Nat}
      (ht : s.transport? c.toNat = some t) (hl : isLetter code = true)
      (he : t.emit s.settings.eol false (frame code value) = some (t', e, n)) :
      Effect s (.csend c code value) (s.setTransport c.toNat t')
  | cui {c ch : Byte} {t t' : Transport} {e : Bool} {n : Nat} (ht : s.transport? c.toNat = some t)
      (hc : isPrintable ch = true) (he : t.emit s.settings.eol true [ch] = some (t', e, n)) :
      Effect s (.cui c ch) (s.setTransport c.toNat t')
  | cuiIgnored {c ch : Byte} (hc : isPrintable ch = false) : Effect s (.cui c ch) s

/-- What a next state of operation `i` can be (R261, R82): one fault was raised and nothing else was done, or the
operation had its effect and answered with status 0. -/
inductive State.Answered (s : State) (i : Instr) : State → Prop where
  | raised (c : FaultCode) : Answered s i (s.raise i.op.code c)
  | done {u : State} (h : s.Effect i u) (res : Half) (results : List Word) :
      Answered s i (u.respond i.op res results)

section
variable {s t : State}

theorem execCfgrd_answered {reg : Half} (h : execCfgrd reg s = .next t) : s.Answered (.cfgrd reg) t := by
  unfold execCfgrd at h
  split at h
  · cases h; exact .raised _
  · cases h; exact .done .cfgrd _ _

theorem execCfgwr_answered {reg : Half} {value : Word} (h : execCfgwr reg value s = .next t) :
    s.Answered (.cfgwr reg value) t := by
  unfold execCfgwr at h
  split at h
  · cases h; exact .raised _
  · next hr =>
    split at h
    · cases h; exact .raised _
    · next hw => cases h; exact .done (.cfgwr hr hw) _ _

theorem execFpush_answered {f b : Byte} (h : execFpush f b s = .next t) : s.Answered (.fpush f b) t := by
  unfold execFpush at h
  split at h
  · cases h; exact .raised _
  · next hq =>
    split at h
    · cases h
    · next hp => cases h; exact .done (.fpush hq hp) _ _

theorem execFpop_answered {f : Byte} (h : execFpop f s = .next t) : s.Answered (.fpop f) t := by
  unfold execFpop at h
  split at h
  · cases h; exact .raised _
  · next hq =>
    split at h
    · cases h
    · next hp => cases h; exact .done (.fpop hq hp) _ _
    · next hp => cases h; exact .done (.fpop hq hp) _ _

theorem execFwrite_answered {f : Byte} {payload : List Word} (h : execFwrite f payload s = .next t) :
    s.Answered (.fwrite f payload) t := by
  unfold execFwrite at h
  split at h
  · cases h; exact .raised _
  · next hq =>
    split at h
    · next hl =>
      split at h
      · cases h
      · next hp => cases h; exact .done (.fwrite hq hl hp) _ _
    · cases h; exact .raised _

theorem execFread_answered {f : Byte} {maxLen : Half} (h : execFread f maxLen s = .next t) :
    s.Answered (.fread f maxLen) t := by
  unfold execFread at h
  split at h
  · cases h; exact .raised _
  · next hq =>
    split at h
    · cases h
    · next hp => cases h; exact .done (.fread hq hp) _ _

theorem execFavail_answered {f : Byte} (h : execFavail f s = .next t) : s.Answered (.favail f) t := by
  unfold execFavail at h
  split at h
  · cases h; exact .raised _
  · cases h; exact .done .favail _ _

theorem execFfree_answered {f : Byte} (h : execFfree f s = .next t) : s.Answered (.ffree f) t := by
  unfold execFfree at h
  split at h
  · cases h; exact .raised _
  · cases h; exact .done .ffree _ _

theorem execEsync_answered {e : Byte} (h : execEsync e s = .next t) : s.Answered (.esync e) t := by
  unfold execEsync at h
  split at h
  · cases h; exact .raised _
  · next hn =>
    split at h
    · cases h; exact .raised _
    · next hr => cases h; exact .done (.esync hn hr) _ _

theorem execPupdate_answered {p : Byte} {target actual dt : Word}
    (h : execPupdate p target actual dt s = .next t) : s.Answered (.pupdate p target actual dt) t := by
  unfold execPupdate at h
  split at h
  · cases h; exact .raised _
  · next hx =>
    split at h
    · cases h; exact .raised _
    · next hdt => cases h; exact .done (.pupdate hx hdt) _ _

theorem execCupdate_answered {vactual lactual ractual dt : Word}
    (h : execCupdate vactual lactual ractual dt s = .next t) :
    s.Answered (.cupdate vactual lactual ractual dt) t := by
  unfold execCupdate at h
  split at h
  · cases h; exact .raised _
  · next hdt => cases h; exact .done (.cupdate hdt rfl) _ _

theorem execTpoll_answered (h : execTpoll s = .next t) : s.Answered .tpoll t := by
  unfold execTpoll at h
  split at h
  · cases h; exact .done .tpollNoTick _ _
  · next hidle =>
    split at h
    · cases h; exact .done .tpollNoTick _ _
    · next hdue =>
      dsimp only at h
      split at h
      · cases h; exact .done (.tpollTick (not_not.mp hidle) hdue) _ _
      · cases h; exact .done (.tpollTick (ph := s.sched.tick.1.phase) (not_not.mp hidle) hdue) _ _

theorem execTnext_answered (h : execTnext s = .next t) : s.Answered .tnext t := by
  cases h; exact .done .tnext _ _

theorem execCrx_answered {c b : Byte} (h : execCrx c b s = .next t) : s.Answered (.crx c b) t := by
  unfold execCrx at h
  split at h
  · cases h; exact .raised _
  · next ht =>
    split at h
    · cases h
    · next hf => cases h; exact .done (.crx ht hf) _ _
    · next hf => cases h; exact .done (.crx ht hf) _ _

theorem execCsend_answered {c code : Byte} {value : Word} (h : execCsend c code value s = .next t) :
    s.Answered (.csend c code value) t := by
  unfold execCsend at h
  split at h
  · cases h; exact .raised _
  · next ht =>
    split at h
    · next hl =>
      split at h
      · cases h
      · next he => cases h; exact .done (.csend ht hl he) _ _
    · cases h; exact .raised _

theorem execCui_answered {c ch : Byte} (h : execCui c ch s = .next t) : s.Answered (.cui c ch) t := by
  unfold execCui at h
  split at h
  · cases h; exact .raised _
  · next ht =>
    split at h
    · next hc =>
      split at h
      · cases h
      · next he => cases h; exact .done (.cui ht hc he) _ _
    · next hc => cases h; exact .done (.cuiIgnored (Bool.eq_false_of_not_eq_true hc)) _ _

/-- The inversion lemma of `exec`: in any state, whatever an operation answers is one of the cases of
`State.Answered`. -/
theorem exec_answered {i : Instr} (h : exec i s = .next t) : s.Answered i t := by
  cases i with
  | cfgrd reg => exact execCfgrd_answered h
  | cfgwr reg value => exact execCfgwr_answered h
  | fpush f b => exact execFpush_answered h
  | fpop f => exact execFpop_answered h
  | fwrite f payload => exact execFwrite_answered h
  | fread f maxLen => exact execFread_answered h
  | favail f => exact execFavail_answered h
  | ffree f => exact execFfree_answered h
  | esync e => exact execEsync_answered h
  | pupdate p target actual dt => exact execPupdate_answered h
  | cupdate vactual lactual ractual dt => exact execCupdate_answered h
  | tpoll => exact execTpoll_answered h
  | tnext => exact execTnext_answered h
  | crx c b => exact execCrx_answered h
  | csend c code value => exact execCsend_answered h
  | cui c ch => exact execCui_answered h

/-- Every next state of an operation carries its response (R80, R82). -/
theorem State.Answered.response {i : Instr} (h : s.Answered i t) : ∃ r, t.response = some r := by
  cases h with
  | raised c => exact ⟨_, State.raise_response s i.op.code c⟩
  | done _ res results => exact ⟨_, State.respond_response _ i.op res results⟩

/-! ### Array sizes (R22): no queue operation changes one, in any state -/

theorem Fifo.push_size {q q' : Fifo} {b : Byte} {accepted : Bool} (h : q.push b = some (q', accepted)) :
    q'.size = q.size := by
  unfold Fifo.push at h
  split at h
  · cases h; rfl
  · split at h
    · cases h
    · cases h; rfl

theorem Fifo.pop_size {q q' : Fifo} {o : Option Byte} (h : q.pop = some (q', o)) : q'.size = q.size := by
  unfold Fifo.pop at h
  split at h
  · cases h; rfl
  · split at h
    · cases h
    · cases h; rfl

theorem Fifo.put_size {q q' : Fifo} {d : List Byte} {n : Nat} (h : q.put d = some (q', n)) :
    q'.size = q.size := by
  unfold Fifo.put at h
  dsimp only at h
  split at h
  · cases h
  · split at h
    · cases h
    · cases h; rfl

theorem Fifo.take_size {q q' : Fifo} {m : Nat} {d : List Byte} (h : q.take m = some (q', d)) :
    q'.size = q.size := by
  unfold Fifo.take at h
  dsimp only at h
  split at h
  · cases h
  · split at h
    · cases h
    · cases h; rfl

/-- The two arrays of a transport have the sizes they had. -/
def Transport.SameSizes (t t' : Transport) : Prop := t'.rx.size = t.rx.size ∧ t'.tx.size = t.tx.size

theorem Transport.txPut_sameSizes {t t' : Transport} {d : List Byte} {n : Nat}
    (h : t.txPut d = some (t', n)) : t.SameSizes t' := by
  unfold Transport.txPut at h
  split at h
  · cases h
  · next hp => cases h; exact ⟨rfl, Fifo.put_size hp⟩

theorem Transport.tryEol_sameSizes {t t' : Transport} {eol : List Byte} {e : Bool}
    (h : t.tryEol eol = some (t', e)) : t.SameSizes t' := by
  unfold Transport.tryEol at h
  split at h
  · split at h
    · cases h
    · next hp =>
      have hs := Transport.txPut_sameSizes hp
      cases h; exact hs
  · cases h; exact ⟨rfl, rfl⟩

theorem Transport.emit_sameSizes {t t' : Transport} {eol d : List Byte} {ui e : Bool} {n : Nat}
    (h : t.emit eol ui d = some (t', e, n)) : t.SameSizes t' := by
  unfold Transport.emit at h
  split at h
  · cases h
  · next t1 e1 h1 =>
    have hs1 : t.SameSizes t1 := by
      split at h1
      · exact Transport.tryEol_sameSizes h1
      · cases h1; exact ⟨rfl, rfl⟩
    split at h
    · cases h
    · next hp =>
      have hs2 := Transport.txPut_sameSizes hp
      cases h
      exact ⟨hs2.1.trans hs1.1, hs2.2.trans hs1.2⟩

/-! ### The parameters (R6) and the inputs still to come -/

/-- The parameters and the inputs still to come are those they were. -/
structure State.SameSetup (s t : State) : Prop where
  params : t.params = s.params
  inputs : t.inputs = s.inputs

theorem State.SameSetup.refl (s : State) : s.SameSetup s := ⟨rfl, rfl⟩

theorem State.SameSetup.trans {u : State} (h1 : s.SameSetup t) (h2 : t.SameSetup u) : s.SameSetup u :=
  ⟨h2.params.trans h1.params, h2.inputs.trans h1.inputs⟩

theorem State.raise_sameSetup (s : State) (op : Byte) (c : FaultCode) : s.SameSetup (s.raise op c) :=
  ⟨rfl, rfl⟩

theorem State.respond_sameSetup (s : State) (op : Op) (res : Half) (results : List Word) :
    s.SameSetup (s.respond op res results) := ⟨rfl, rfl⟩

theorem State.flagStatus_sameSetup (s : State) (n : Nat) (c : Bool) : s.SameSetup (s.flagStatus n c) :=
  ⟨rfl, rfl⟩

theorem State.setFifo_sameSetup {f : Nat} {q q' : Fifo} (hq : s.fifo? f = some q) (hs : q'.size = q.size) :
    s.SameSetup (s.setFifo f q') := ⟨State.sizes_setFifo s f q' q hq hs, rfl⟩

theorem State.setTransport_sameSetup {c : Nat} {x x' : Transport} (hx : s.transport? c = some x)
    (hs : x.SameSizes x') : s.SameSetup (s.setTransport c x') :=
  ⟨State.sizes_setTransport s c x' x hx hs.1 hs.2, rfl⟩

theorem State.setEnc_sameSetup (s : State) (e : Nat) (n : Enc) : s.SameSetup (s.setEnc e n) :=
  ⟨by simp [State.params], rfl⟩

theorem State.pidUpdate_sameSetup (s : State) (p : Axis) (target actual : Int) (dt : Nat) :
    s.SameSetup (s.pidUpdate p target actual dt) :=
  ⟨by simp [State.params], State.pidUpdate_inputs ..⟩

theorem State.writeReg_sameSetup {r : Reg} {v : Word} (h : s.writeReg r v = .ok t) : s.SameSetup t := by
  cases r with
  | fault => cases h
  | status => cases h
  | vtarget => cases h; exact ⟨rfl, rfl⟩
  | slip =>
    simp only [State.writeReg] at h
    split at h
    · cases h; exact ⟨rfl, rfl⟩
    · cases h
  | motorEn =>
    simp only [State.writeReg] at h
    split at h
    · cases h; exact ⟨rfl, rfl⟩
    · cases h
  | ppr e =>
    simp only [State.writeReg] at h
    split at h
    · cases h
    · split at h
      · cases h; exact State.setEnc_sameSetup ..
      · cases h
  | kp p => cases h; exact ⟨rfl, rfl⟩
  | ki p => cases h; exact ⟨rfl, rfl⟩
  | kd p => cases h; exact ⟨rfl, rfl⟩

theorem State.Effect.sameSetup {i : Instr} (h : s.Effect i t) : s.SameSetup t := by
  cases h with
  | cfgrd => exact .refl s
  | cfgwr _ hw => exact State.writeReg_sameSetup hw
  | fpush hq hp => exact State.setFifo_sameSetup hq (Fifo.push_size hp)
  | fpop hq hp => exact State.setFifo_sameSetup hq (Fifo.pop_size hp)
  | fwrite hq _ hp => exact State.setFifo_sameSetup hq (Fifo.put_size hp)
  | fread hq hp => exact State.setFifo_sameSetup hq (Fifo.take_size hp)
  | favail => exact .refl s
  | ffree => exact .refl s
  | esync _ _ => exact (State.setEnc_sameSetup ..).trans (State.flagStatus_sameSetup ..)
  | pupdate _ _ => exact State.pidUpdate_sameSetup ..
  | cupdate _ _ =>
    exact (((State.pidUpdate_sameSetup ..).trans (State.flagStatus_sameSetup ..)).trans
      (State.pidUpdate_sameSetup ..)).trans (State.pidUpdate_sameSetup ..)
  | tpollNoTick => exact .refl s
  | tpollTick _ _ => exact ⟨rfl, rfl⟩
  | tnext => exact ⟨rfl, rfl⟩
  | crx ht _ => exact State.setTransport_sameSetup ht ⟨rfl, rfl⟩
  | csend ht _ he => exact State.setTransport_sameSetup ht (Transport.emit_sameSizes he)
  | cui ht _ he => exact State.setTransport_sameSetup ht (Transport.emit_sameSizes he)
  | cuiIgnored _ => exact .refl s

theorem State.Answered.sameSetup {i : Instr} (h : s.Answered i t) : s.SameSetup t := by
  cases h with
  | raised c => exact State.raise_sameSetup ..
  | done he res results => exact he.sameSetup.trans (State.respond_sameSetup ..)

theorem runCommand_sameSetup {p : Packet} (h : runCommand p s = .next t) : s.SameSetup t := by
  cases hd : decode p with
  | instr i =>
    rw [runCommand_instr s p i hd] at h
    exact (exec_answered h).sameSetup
  | reject r =>
    rw [runCommand_reject s p r hd] at h
    cases h; exact State.raise_sameSetup ..

theorem eventEdge_sameSetup {e : Nat} {sense : Sense} (h : eventEdge e sense s = .next t) :
    s.SameSetup t := by
  unfold eventEdge at h
  split at h
  · cases h
  · cases h; exact (State.setEnc_sameSetup ..).trans ⟨rfl, rfl⟩

/-- RESET clears the arrays and the encoders in place: their number and sizes stay (R290, R291). -/
theorem eventReset_sameSetup (s : State) : s.SameSetup (eventReset s) :=
  ⟨by simp [State.params, eventReset, Fifo.cleared], rfl⟩

theorem runInput_sameSetup {i : Input} (h : runInput i s = .next t) : s.SameSetup t := by
  cases i with
  | command p => exact runCommand_sameSetup h
  | edgeA e a b => exact eventEdge_sameSetup h
  | edgeB e a b => exact eventEdge_sameSetup h
  | mstick => cases h; exact ⟨rfl, rfl⟩
  | reset => cases h; exact eventReset_sameSetup s

end

/-- Settles O54: a step is idle or runs the first input on the state that holds the others, and no input changes
the parameters or those others. -/
theorem parametersNeverChange : Obligations.ParametersNeverChange := by
  intro s t h
  cases hin : s.inputs with
  | nil =>
    rw [step_nil s hin] at h
    cases h; exact ⟨rfl, hin⟩
  | cons i rest =>
    rw [step_cons s i rest hin] at h
    exact ⟨(runInput_sameSetup h).params, (runInput_sameSetup h).inputs⟩

/-! ### The state after reset (R6, R54) -/

/-- A machine carries the parameters it is built with. -/
theorem State.params_build (p : Params) : (State.build p).params = p := by
  simp [State.params, State.build, Fifo.init, Function.comp_def]

theorem Fifo.init_wf (size : Nat) (h : legalFifoSize size = true) : (Fifo.init size).wf = true := by
  have hs : 2 ≤ size ∧ size ≤ 65536 := of_decide_eq_true h
  exact (Fifo.wf_iff _).mpr ⟨hs, show 0 < size by omega, show 0 < size by omega, rfl, rfl⟩

/-- Legal parameters give every array a legal size (R6). -/
theorem Params.legalFifoSizes (p : Params) (h : p.wf = true) :
    ∀ n ∈ p.fifoSizes, legalFifoSize n.1 = true ∧ legalFifoSize n.2 = true := by
  simp only [Params.wf, Bool.and_eq_true, List.all_eq_true] at h
  obtain ⟨⟨⟨-, hsizes⟩, -⟩, -⟩ := h
  exact hsizes

theorem State.build_transports_wf (p : Params) (h : p.wf = true) :
    ∀ t ∈ (State.build p).transports, t.wf = true := by
  intro t ht
  obtain ⟨n, hn, rfl⟩ := List.mem_map.mp ht
  obtain ⟨hrx, htx⟩ := Params.legalFifoSizes p h n hn
  have hcodec : Codec.init.wf = true := by decide
  simp [Transport.wf, Fifo.init_wf _ hrx, Fifo.init_wf _ htx, hcodec]

/-- An actuator output of 0 is in every range (R215). -/
theorem legalAct_zero (actMax : Option Nat) : legalAct actMax 0 = true := by
  cases actMax with
  | none => rfl
  | some m => simp [legalAct]

/-- Settles O51: field by field, with `State.params_build` and `State.build_transports_wf`. -/
theorem builtStateIsLegal : Obligations.BuiltStateIsLegal := by
  intro p inputs hp hi
  exact
    { params := (congrArg Params.wf (State.params_build p)).trans hp
      transports := State.build_transports_wf p hp
      sched := rfl
      faultReg := BitVec.zero_and
      statusReg := BitVec.zero_and
      actLeft := legalAct_zero _
      actRight := legalAct_zero _
      inputs := by simpa [State.build] using hi }

/-! ### Progress (R11): in a legal state nothing stops -/

section
variable {s : State}

theorem execFpush_next (h : s.Inv) (f b : Byte) : ∃ t, execFpush f b s = .next t := by
  unfold execFpush
  cases hq : s.fifo? f.toNat with
  | none => exact ⟨_, rfl⟩
  | some q =>
    obtain ⟨q', hp, -⟩ := Fifo.push_spec q b (State.fifo_wf s h.transports _ q hq)
    simp only [hp]; exact ⟨_, rfl⟩

theorem execFpop_next (h : s.Inv) (f : Byte) : ∃ t, execFpop f s = .next t := by
  unfold execFpop
  cases hq : s.fifo? f.toNat with
  | none => exact ⟨_, rfl⟩
  | some q =>
    obtain ⟨q', hp, -⟩ := Fifo.pop_spec q (State.fifo_wf s h.transports _ q hq)
    simp only [hp]
    cases q.queue.head? with
    | none => exact ⟨_, rfl⟩
    | some b => exact ⟨_, rfl⟩

theorem execFwrite_next (h : s.Inv) (f : Byte) (payload : List Word) :
    ∃ t, execFwrite f payload s = .next t := by
  unfold execFwrite
  cases hq : s.fifo? f.toNat with
  | none => exact ⟨_, rfl⟩
  | some q =>
    obtain ⟨q', hp, -⟩ := Fifo.put_spec q (payload.map payloadByte) (State.fifo_wf s h.transports _ q hq)
    simp only [hp]
    split
    · exact ⟨_, rfl⟩
    · exact ⟨_, rfl⟩

theorem execFread_next (h : s.Inv) (f : Byte) (maxLen : Half) : ∃ t, execFread f maxLen s = .next t := by
  unfold execFread
  cases hq : s.fifo? f.toNat with
  | none => exact ⟨_, rfl⟩
  | some q =>
    obtain ⟨q', hp, -⟩ := Fifo.take_spec q maxLen.toNat (State.fifo_wf s h.transports _ q hq)
    simp only [hp]; exact ⟨_, rfl⟩

theorem Transport.wf_iff (t : Transport) :
    t.wf = true ↔ t.rx.wf = true ∧ t.tx.wf = true ∧ t.codec.wf = true := by
  simp only [Transport.wf, Bool.and_eq_true, and_assoc]

theorem execCrx_next (h : s.Inv) (c b : Byte) : ∃ t, execCrx c b s = .next t := by
  unfold execCrx
  cases ht : s.transport? c.toNat with
  | none => exact ⟨_, rfl⟩
  | some t =>
    obtain ⟨-, -, hk⟩ := (Transport.wf_iff t).mp (State.transport_wf s h.transports _ t ht)
    obtain ⟨k, o, hf, -⟩ := Codec.feed_spec t.codec s.settings.parseOvf b hk
    simp only [hf]
    cases o with
    | none => exact ⟨_, rfl⟩
    | some cmd => exact ⟨_, rfl⟩

theorem execCsend_next (h : s.Inv) (c code : Byte) (value : Word) :
    ∃ t, execCsend c code value s = .next t := by
  unfold execCsend
  cases ht : s.transport? c.toNat with
  | none => exact ⟨_, rfl⟩
  | some t =>
    obtain ⟨-, htx, -⟩ := (Transport.wf_iff t).mp (State.transport_wf s h.transports _ t ht)
    obtain ⟨t', he, -⟩ := Transport.emit_spec t s.settings.eol false (frame code value) htx
    simp only [he]
    split
    · exact ⟨_, rfl⟩
    · exact ⟨_, rfl⟩

theorem execCui_next (h : s.Inv) (c ch : Byte) : ∃ t, execCui c ch s = .next t := by
  unfold execCui
  cases ht : s.transport? c.toNat with
  | none => exact ⟨_, rfl⟩
  | some t =>
    obtain ⟨-, htx, -⟩ := (Transport.wf_iff t).mp (State.transport_wf s h.transports _ t ht)
    obtain ⟨t', he, -⟩ := Transport.emit_spec t s.settings.eol true [ch] htx
    simp only [he]
    split
    · exact ⟨_, rfl⟩
    · exact ⟨_, rfl⟩

theorem execCfgrd_next (s : State) (reg : Half) : ∃ t, execCfgrd reg s = .next t := by
  unfold execCfgrd
  split
  · exact ⟨_, rfl⟩
  · exact ⟨_, rfl⟩

theorem execCfgwr_next (s : State) (reg : Half) (value : Word) : ∃ t, execCfgwr reg value s = .next t := by
  unfold execCfgwr
  split
  · exact ⟨_, rfl⟩
  · split
    · exact ⟨_, rfl⟩
    · exact ⟨_, rfl⟩

theorem execFavail_next (s : State) (f : Byte) : ∃ t, execFavail f s = .next t := by
  unfold execFavail
  split
  · exact ⟨_, rfl⟩
  · exact ⟨_, rfl⟩

theorem execFfree_next (s : State) (f : Byte) : ∃ t, execFfree f s = .next t := by
  unfold execFfree
  split
  · exact ⟨_, rfl⟩
  · exact ⟨_, rfl⟩

theorem execEsync_next (s : State) (e : Byte) : ∃ t, execEsync e s = .next t := by
  unfold execEsync
  split
  · exact ⟨_, rfl⟩
  · split
    · exact ⟨_, rfl⟩
    · exact ⟨_, rfl⟩

theorem execPupdate_next (s : State) (p : Byte) (target actual dt : Word) :
    ∃ t, execPupdate p target actual dt s = .next t := by
  unfold execPupdate
  split
  · exact ⟨_, rfl⟩
  · split
    · exact ⟨_, rfl⟩
    · exact ⟨_, rfl⟩

theorem execCupdate_next (s : State) (vactual lactual ractual dt : Word) :
    ∃ t, execCupdate vactual lactual ractual dt s = .next t := by
  unfold execCupdate
  split
  · exact ⟨_, rfl⟩
  · exact ⟨_, rfl⟩

theorem execTpoll_next (s : State) : ∃ t, execTpoll s = .next t := by
  unfold execTpoll
  split
  · exact ⟨_, rfl⟩
  · split
    · exact ⟨_, rfl⟩
    · dsimp only
      split
      · exact ⟨_, rfl⟩
      · exact ⟨_, rfl⟩

/-- In a legal state every operation has a next state. The legality is needed by the operations on arrays alone:
it keeps their accesses inside (R8). -/
theorem exec_next (h : s.Inv) (i : Instr) : ∃ t, exec i s = .next t := by
  cases i with
  | cfgrd reg => exact execCfgrd_next s reg
  | cfgwr reg value => exact execCfgwr_next s reg value
  | fpush f b => exact execFpush_next h f b
  | fpop f => exact execFpop_next h f
  | fwrite f payload => exact execFwrite_next h f payload
  | fread f maxLen => exact execFread_next h f maxLen
  | favail f => exact execFavail_next s f
  | ffree f => exact execFfree_next s f
  | esync e => exact execEsync_next s e
  | pupdate p target actual dt => exact execPupdate_next s p target actual dt
  | cupdate vactual lactual ractual dt => exact execCupdate_next s vactual lactual ractual dt
  | tpoll => exact execTpoll_next s
  | tnext => exact ⟨_, rfl⟩
  | crx c b => exact execCrx_next h c b
  | csend c code value => exact execCsend_next h c code value
  | cui c ch => exact execCui_next h c ch

/-- In a legal state an operation has a next state that carries its response. -/
theorem exec_responds (h : s.Inv) (i : Instr) : ∃ t r, exec i s = .next t ∧ t.response = some r := by
  obtain ⟨t, ht⟩ := exec_next h i
  obtain ⟨r, hr⟩ := (exec_answered ht).response
  exact ⟨t, r, ht, hr⟩

/-- An edge of an encoder that exists has a next state (R170). -/
theorem eventEdge_next (s : State) (e : Nat) (sense : Sense) (he : e < s.encs.length) :
    ∃ t, eventEdge e sense s = .next t := by
  unfold eventEdge
  cases hn : s.enc? e with
  | none =>
    have hge := (State.enc_eq_none s e).mp hn
    omega
  | some n => exact ⟨_, rfl⟩

/-- In a legal state every input that can occur has a next state. -/
theorem runInput_next (h : s.Inv) (i : Input) (hi : legalInput s.encs.length i = true) :
    ∃ t, runInput i s = .next t := by
  cases i with
  | command p =>
    cases hd : decode p with
    | instr j =>
      obtain ⟨t, ht⟩ := exec_next h j
      exact ⟨t, (runCommand_instr s p j hd).trans ht⟩
    | reject r => exact ⟨_, runCommand_reject s p r hd⟩
  | edgeA e a b => exact eventEdge_next s e _ (of_decide_eq_true hi)
  | edgeB e a b => exact eventEdge_next s e _ (of_decide_eq_true hi)
  | mstick => exact ⟨_, rfl⟩
  | reset => exact ⟨_, rfl⟩

/-- The invariant does not need more inputs than are still to come. -/
theorem State.Inv.withInputs (h : s.Inv) {inputs : List Input} (hsub : inputs ⊆ s.inputs) :
    State.Inv { s with inputs := inputs } :=
  { h with inputs := fun i hi => h.inputs i (hsub hi) }

/-- In a legal state the step has a next state: the input it takes can occur. -/
theorem step_next (h : s.Inv) : ∃ t, step s = .next t := by
  cases hin : s.inputs with
  | nil => exact ⟨s, step_nil s hin⟩
  | cons i rest =>
    have hrest : State.Inv { s with inputs := rest } := h.withInputs (by simp [hin])
    have hi : legalInput s.encs.length i = true := h.inputs i (by simp [hin])
    obtain ⟨t, ht⟩ := runInput_next hrest i hi
    exact ⟨t, (step_cons s i rest hin).trans ht⟩

end

/-- Settles O53: `step_next` for the step, `exec_responds` for every operation. -/
theorem everyStepHasANextState : Obligations.EveryStepHasANextState :=
  fun _ h => ⟨step_next h, exec_responds h⟩

end Sys2Proof.Machine

/-! The statements of 10_state.md. Which operation writes which state is read off `State.Effect`, the cases of the
inversion lemma `exec_answered`; the sticky bits and the invariant are shown for each shared operation, then for an
effect, an input and a step. Two states that show the same are compared unit by unit: a FIFO by its size and its
queue, a parser by its token, a transport by its parts. -/
namespace Sys2Proof.Machine

/-- Settles O50: `State.reset` is the machine built with the default parameters, which are legal. -/
theorem resetStateIsLegal : Obligations.ResetStateIsLegal :=
  builtStateIsLegal Params.default [] (by decide) (by simp)

/-! ### What one operation leaves of one unit, in any state -/

section
variable {s t : State}

/-- Everything CFGWR can do (R252): it writes PPR of one encoder, or registers that belong to no encoder. -/
theorem State.writeReg_cases {r : Reg} {v : Word} (h : s.writeReg r v = .ok t) :
    (∃ e n, s.enc? e = some n ∧ t = s.setEnc e { n with ppr := v.setWidth 16 }) ∨
      t = { s with gains := t.gains, vtarget := t.vtarget, slip := t.slip, motorEn := t.motorEn } := by
  cases r with
  | fault => cases h
  | status => cases h
  | vtarget => cases h; exact .inr rfl
  | slip =>
    simp only [State.writeReg] at h
    split at h
    · cases h; exact .inr rfl
    · cases h
  | motorEn =>
    simp only [State.writeReg] at h
    split at h
    · cases h; exact .inr rfl
    · cases h
  | ppr e =>
    simp only [State.writeReg] at h
    split at h
    · cases h
    · next n hn =>
      split at h
      · cases h; exact .inl ⟨e, n, hn, rfl⟩
      · cases h
  | kp p => cases h; exact .inr rfl
  | ki p => cases h; exact .inr rfl
  | kd p => cases h; exact .inr rfl

/-- What CFGWR leaves: every unit but PPR of the encoders, and the read-only registers (R252). -/
theorem State.writeReg_rest {r : Reg} {v : Word} (h : s.writeReg r v = .ok t) :
    t = { s with encs := t.encs, gains := t.gains, vtarget := t.vtarget, slip := t.slip,
                 motorEn := t.motorEn } := by
  rcases State.writeReg_cases h with ⟨e, n, -, rfl⟩ | hr
  · rfl
  · rw [hr]

/-- Of an encoder CFGWR writes PPR alone (R52, R252). -/
theorem State.writeReg_enc {r : Reg} {v : Word} {e : Nat} {n : Enc} (h : s.writeReg r v = .ok t)
    (hn : s.enc? e = some n) : ∃ n', t.enc? e = some n' ∧ n' = { n with ppr := n'.ppr } := by
  rcases State.writeReg_cases h with ⟨j, m, hm, rfl⟩ | hr
  · rw [State.enc_setEnc]
    by_cases hj : e = j
    · subst hj
      cases hm.symm.trans hn
      exact ⟨_, by rw [if_pos rfl, hm]; rfl, rfl⟩
    · exact ⟨n, by rw [if_neg hj, hn], rfl⟩
  · exact ⟨n, by rw [hr]; exact hn, rfl⟩

theorem Fifo.pop_buf {q q' : Fifo} {o : Option Byte} (h : q.pop = some (q', o)) : q'.buf = q.buf := by
  unfold Fifo.pop at h
  split at h
  · cases h; rfl
  · split at h
    · cases h
    · cases h; rfl

theorem Fifo.take_buf {q q' : Fifo} {m : Nat} {d : List Byte} (h : q.take m = some (q', d)) :
    q'.buf = q.buf := by
  unfold Fifo.take at h
  dsimp only at h
  split at h
  · cases h
  · split at h
    · cases h
    · cases h; rfl

theorem Transport.txPut_codec {t t' : Transport} {d : List Byte} {n : Nat}
    (h : t.txPut d = some (t', n)) : t'.codec = t.codec := by
  unfold Transport.txPut at h
  split at h
  · cases h
  · cases h; rfl

theorem Transport.tryEol_tok {t t' : Transport} {eol : List Byte} {e : Bool}
    (h : t.tryEol eol = some (t', e)) : t'.codec.tok = t.codec.tok := by
  unfold Transport.tryEol at h
  split at h
  · split at h
    · cases h
    · next hp =>
      have hk := Transport.txPut_codec hp
      cases h; rw [← hk]
  · cases h; rfl

/-- The transmit path stores to no token buffer (R37). -/
theorem Transport.emit_tok {t t' : Transport} {eol d : List Byte} {ui e : Bool} {n : Nat}
    (h : t.emit eol ui d = some (t', e, n)) : t'.codec.tok = t.codec.tok := by
  unfold Transport.emit at h
  split at h
  · cases h
  · next t1 e1 h1 =>
    have ht1 : t1.codec.tok = t.codec.tok := by
      split at h1
      · exact Transport.tryEol_tok h1
      · cases h1; rfl
    split at h
    · cases h
    · next hp =>
      have hk := congrArg Codec.tok (Transport.txPut_codec hp)
      cases h; exact hk.trans ht1

/-- FIFO instances are the same where the transports are. -/
theorem State.fifo_congr (h : t.transports = s.transports) (f : Nat) : t.fifo? f = s.fifo? f := by
  simp only [State.fifo?, h]

/-- CODEC instances are the same where the transports are. -/
theorem State.codec_congr (h : t.transports = s.transports) (c : Nat) : t.codec? c = s.codec? c := by
  simp only [State.codec?, State.transport?, h]

/-- A transport replaced by one with the same FIFOs leaves every FIFO. -/
theorem State.setTransport_fifo {c : Nat} {x x' : Transport} (hx : s.transport? c = some x)
    (hrx : x'.rx = x.rx) (htx : x'.tx = x.tx) (f : Nat) : (s.setTransport c x').fifo? f = s.fifo? f := by
  by_cases hf : f = 2 * c + 1
  · obtain ⟨-, h', -⟩ := State.setTransport_parts s c x' x hx
    obtain ⟨-, h, -⟩ := State.transport_parts s c x hx
    rw [hf, h', h, htx]
  · exact (State.setTransport_frame s c x' x .crx 0 [] hx hrx).fifos f (by simpa using hf)

/-- A transport replaced by one with the same token buffer leaves every token byte. -/
theorem State.setTransport_tokByte {c : Nat} {x x' : Transport} (hx : s.transport? c = some x)
    (hk : x'.codec.tok = x.codec.tok) (d a : Nat) : (s.setTransport c x').tokByte d a = s.tokByte d a := by
  simp only [State.tokByte, State.transport_setTransport]
  by_cases hd : d = c
  · subst hd; simp [hx, hk]
  · rw [if_neg hd]

/-- A FIFO replaced by one with the same array leaves every byte. -/
theorem State.setFifo_fifoByte_same {f : Nat} {q q' : Fifo} (hq : s.fifo? f = some q)
    (hb : q'.buf = q.buf) (g a : Nat) : (s.setFifo f q').fifoByte g a = s.fifoByte g a := by
  rw [State.setFifo_fifoByte s f q' q hq]
  split
  · next hg => subst hg; rw [hb, State.fifoByte_eq s g a q hq]
  · rfl

/-! ### Who writes what (R22 to R60), in any state -/

variable {i : Instr}

theorem State.Effect.time (h : s.Effect i t) : t.time = s.time := by
  cases h with
  | cfgwr _ hw => rw [State.writeReg_rest hw]
  | pupdate _ _ => exact State.pidUpdate_time ..
  | cupdate _ _ => simp
  | _ => rfl

/-- The scheduler is written by TPOLL and TNEXT (R35). -/
theorem State.Effect.sched (h : s.Effect i t) (hpoll : i.op ≠ .tpoll) (hnext : i.op ≠ .tnext) :
    t.sched = s.sched := by
  cases h with
  | cfgwr _ hw => rw [State.writeReg_rest hw]
  | pupdate _ _ => exact State.pidUpdate_sched ..
  | cupdate _ _ => simp
  | tpollTick _ _ => exact absurd rfl hpoll
  | tnext => exact absurd rfl hnext
  | _ => rfl

/-- PID state and actuators are written by the updates (R32, R34). -/
theorem State.Effect.pidAndActuators (h : s.Effect i t) (hp : i.op ≠ .pupdate) (hc : i.op ≠ .cupdate) :
    t.pid = s.pid ∧ t.actLeft = s.actLeft ∧ t.actRight = s.actRight := by
  cases h with
  | cfgwr _ hw =>
    rw [State.writeReg_rest hw]
    exact ⟨rfl, rfl, rfl⟩
  | pupdate _ _ => exact absurd rfl hp
  | cupdate _ _ => exact absurd rfl hc
  | _ => exact ⟨rfl, rfl, rfl⟩

/-- The configuration is written by CFGWR (R45). -/
theorem State.Effect.config (h : s.Effect i t) (hw : i.op ≠ .cfgwr) :
    t.vtarget = s.vtarget ∧ t.slip = s.slip ∧ t.motorEn = s.motorEn ∧ t.gains = s.gains := by
  cases h with
  | cfgwr _ _ => exact absurd rfl hw
  | pupdate _ _ => simp
  | cupdate _ _ => simp
  | _ => exact ⟨rfl, rfl, rfl, rfl⟩

/-- STATUS is written by the updates and by ESYNC (R47). -/
theorem State.Effect.statusReg (h : s.Effect i t) (hp : i.op ≠ .pupdate) (hc : i.op ≠ .cupdate)
    (he : i.op ≠ .esync) : t.statusReg = s.statusReg := by
  cases h with
  | cfgwr _ hw => rw [State.writeReg_rest hw]
  | esync _ _ => exact absurd rfl he
  | pupdate _ _ => exact absurd rfl hp
  | cupdate _ _ => exact absurd rfl hc
  | _ => rfl

/-- A FIFO is written by the four FIFO operations that move a cursor and by the transmit path (R22, R23). -/
theorem State.Effect.fifos (h : s.Effect i t)
    (hi : i.op ∉ [Op.fpush, .fpop, .fwrite, .fread, .csend, .cui]) (f : Nat) : t.fifo? f = s.fifo? f := by
  cases h with
  | cfgwr _ hw => exact State.fifo_congr (by rw [State.writeReg_rest hw]) f
  | fpush _ _ => simp [Instr.op] at hi
  | fpop _ _ => simp [Instr.op] at hi
  | fwrite _ _ _ => simp [Instr.op] at hi
  | fread _ _ => simp [Instr.op] at hi
  | pupdate _ _ => exact State.fifo_congr (State.pidUpdate_transports ..) f
  | cupdate _ _ => exact State.fifo_congr (by simp) f
  | crx ht _ => exact State.setTransport_fifo ht (by rfl) (by rfl) f
  | csend _ _ _ => simp [Instr.op] at hi
  | cui _ _ _ => simp [Instr.op] at hi
  | _ => rfl

/-- A CODEC is written by the three CODEC operations (R37, R38). -/
theorem State.Effect.codecs (h : s.Effect i t) (hi : i.op ∉ [Op.crx, .csend, .cui]) (c : Nat) :
    t.codec? c = s.codec? c := by
  cases h with
  | cfgwr _ hw => exact State.codec_congr (by rw [State.writeReg_rest hw]) c
  | fpush _ _ => exact State.codec_setFifo ..
  | fpop _ _ => exact State.codec_setFifo ..
  | fwrite _ _ _ => exact State.codec_setFifo ..
  | fread _ _ => exact State.codec_setFifo ..
  | pupdate _ _ => exact State.codec_congr (State.pidUpdate_transports ..) c
  | cupdate _ _ => exact State.codec_congr (by simp) c
  | crx _ _ => simp [Instr.op] at hi
  | csend _ _ _ => simp [Instr.op] at hi
  | cui _ _ _ => simp [Instr.op] at hi
  | _ => rfl

/-- A byte of an array is stored by the puts alone: FPOP and FREAD move a cursor (R22, R60, R66). -/
theorem State.Effect.fifoByte (h : s.Effect i t) (hi : i.op ∉ [Op.fpush, .fwrite, .csend, .cui])
    (f a : Nat) : t.fifoByte f a = s.fifoByte f a := by
  by_cases hm : i.op ∈ [Op.fpop, .fread]
  · cases h with
    | fpop hq hp => exact State.setFifo_fifoByte_same hq (Fifo.pop_buf hp) f a
    | fread hq hp => exact State.setFifo_fifoByte_same hq (Fifo.take_buf hp) f a
    | _ => simp [Instr.op] at hm
  · refine State.fifoByte_congr _ _ _ _ (h.fifos ?_ f)
    simp only [List.mem_cons, List.not_mem_nil, or_false, not_or] at hi hm ⊢
    tauto

/-- A token byte is stored by CRX alone (R37, R60). -/
theorem State.Effect.tokByte (h : s.Effect i t) (hi : i.op ≠ .crx) (c a : Nat) :
    t.tokByte c a = s.tokByte c a := by
  by_cases hm : i.op ∈ [Op.csend, .cui]
  · cases h with
    | csend ht _ he => exact State.setTransport_tokByte ht (Transport.emit_tok he) c a
    | cui ht _ he => exact State.setTransport_tokByte ht (Transport.emit_tok he) c a
    | cuiIgnored _ => rfl
    | _ => simp [Instr.op] at hm
  · refine State.tokByte_congr _ _ _ _ (h.codecs ?_ c)
    simp only [List.mem_cons, List.not_mem_nil, or_false, not_or] at hm ⊢
    tauto

/-- An encoder is written by ESYNC of its own number and by CFGWR (R27 to R31, R52). -/
theorem State.Effect.enc (h : s.Effect i t) {e : Nat} (hi : ∀ e', i = .esync e' → e'.toNat ≠ e)
    (hw : i.op ≠ .cfgwr) : t.enc? e = s.enc? e := by
  cases h with
  | cfgwr _ _ => exact absurd rfl hw
  | @esync e' _ _ _ _ _ =>
    rw [State.flagStatus_enc, State.enc_setEnc, if_neg (Ne.symm (hi e' rfl))]
  | pupdate _ _ => simp [State.enc?]
  | cupdate _ _ => simp [State.enc?]
  | _ => rfl

end

/-- Settles O55: a fault leaves the encoders; CFGWR writes PPR alone, and the other effects are those of
`State.Effect.enc`. -/
theorem encoderFieldsAreOwned : Obligations.EncoderFieldsAreOwned := by
  intro i s t e n hi ht hn
  cases exec_answered ht with
  | raised c => exact ⟨n, hn, rfl, fun _ => rfl⟩
  | done he res results =>
    by_cases hw : i.op = .cfgwr
    · cases he with
      | cfgwr _ hr =>
        obtain ⟨n', hn', hppr⟩ := State.writeReg_enc hr hn
        exact ⟨n', hn', hppr, fun h => absurd rfl h⟩
      | _ => cases hw
    · exact ⟨n, (he.enc hi hw).trans hn, rfl, fun _ => rfl⟩

/-- Settles O56: a fault writes FAULT alone, and every clause on an effect is one of the lemmas above. -/
theorem stateIsOwned : Obligations.StateIsOwned := by
  intro i s t ht
  cases exec_answered ht with
  | raised c =>
    exact ⟨rfl, fun _ _ => rfl, fun _ _ => ⟨rfl, rfl, rfl⟩, fun _ => ⟨rfl, rfl, rfl, rfl⟩,
      fun _ _ _ => rfl, fun _ _ => rfl, fun _ _ => rfl, fun _ _ _ => rfl, fun _ _ _ => rfl⟩
  | done he res results =>
    exact ⟨he.time, he.sched, he.pidAndActuators, he.config, he.statusReg, he.fifos, he.codecs,
      he.fifoByte, he.tokByte⟩

/-! ### Sticky bits (R46, R47) -/

/-- No bit of FAULT or STATUS that stands in `s` is clear in `t`. -/
structure State.KeepsSticky (s t : State) : Prop where
  faultReg : s.faultReg &&& t.faultReg = s.faultReg
  statusReg : s.statusReg &&& t.statusReg = s.statusReg

section
variable {s t : State}

/-- A word whose set bits stay set twice keeps them. -/
theorem word_keeps_trans {a b c : Word} (hab : a &&& b = a) (hbc : b &&& c = b) : a &&& c = a :=
  calc a &&& c = a &&& b &&& c := by rw [hab]
    _ = a &&& (b &&& c) := BitVec.and_assoc ..
    _ = a := by rw [hbc, hab]

theorem State.KeepsSticky.of_eq (hf : t.faultReg = s.faultReg) (hs : t.statusReg = s.statusReg) :
    s.KeepsSticky t := ⟨by rw [hf, BitVec.and_self], by rw [hs, BitVec.and_self]⟩

theorem State.KeepsSticky.trans {u : State} (h1 : s.KeepsSticky t) (h2 : t.KeepsSticky u) :
    s.KeepsSticky u :=
  ⟨word_keeps_trans h1.faultReg h2.faultReg, word_keeps_trans h1.statusReg h2.statusReg⟩

theorem State.raise_keepsSticky (s : State) (op : Byte) (c : FaultCode) : s.KeepsSticky (s.raise op c) :=
  ⟨setSticky_keeps _ _ _, BitVec.and_self⟩

theorem State.flagStatus_keepsSticky (s : State) (n : Nat) (c : Bool) :
    s.KeepsSticky (s.flagStatus n c) := ⟨BitVec.and_self, setSticky_keeps _ _ _⟩

theorem State.pidUpdate_keepsSticky (s : State) (p : Axis) (target actual : Int) (dt : Nat) :
    s.KeepsSticky (s.pidUpdate p target actual dt) :=
  ⟨by rw [State.pidUpdate_faultReg, BitVec.and_self],
    by rw [State.pidUpdate_statusReg]; exact setSticky_keeps _ _ _⟩

theorem State.Effect.keepsSticky {i : Instr} (h : s.Effect i t) : s.KeepsSticky t := by
  cases h with
  | cfgwr _ hw =>
    rw [State.writeReg_rest hw]
    exact .of_eq rfl rfl
  | esync _ _ =>
    exact .trans (t := s.setEnc _ _) (.of_eq rfl rfl) (State.flagStatus_keepsSticky ..)
  | pupdate _ _ => exact State.pidUpdate_keepsSticky ..
  | cupdate _ _ =>
    exact (((State.pidUpdate_keepsSticky ..).trans (State.flagStatus_keepsSticky ..)).trans
      (State.pidUpdate_keepsSticky ..)).trans (State.pidUpdate_keepsSticky ..)
  | _ => exact .of_eq rfl rfl

theorem State.Answered.keepsSticky {i : Instr} (h : s.Answered i t) : s.KeepsSticky t := by
  cases h with
  | raised c => exact State.raise_keepsSticky ..
  | done he res results => exact he.keepsSticky.trans (.of_eq rfl rfl)

theorem runCommand_keepsSticky {p : Packet} (h : runCommand p s = .next t) : s.KeepsSticky t := by
  cases hd : decode p with
  | instr i =>
    rw [runCommand_instr s p i hd] at h
    exact (exec_answered h).keepsSticky
  | reject r =>
    rw [runCommand_reject s p r hd] at h
    cases h; exact State.raise_keepsSticky ..

/-- What an edge does (R171, R172): one encoder that exists records it, and no response is left. -/
theorem eventEdge_eq_next {e : Nat} {sense : Sense} (h : eventEdge e sense s = .next t) :
    ∃ n, s.enc? e = some n ∧ t = { s.setEnc e (n.edge s.time sense) with response := none } := by
  unfold eventEdge at h
  split at h
  · cases h
  · next n hn => cases h; exact ⟨n, hn, rfl⟩

theorem eventEdge_keepsSticky {e : Nat} {sense : Sense} (h : eventEdge e sense s = .next t) :
    s.KeepsSticky t := by
  obtain ⟨n, -, rfl⟩ := eventEdge_eq_next h
  exact .of_eq rfl rfl

theorem runInput_keepsSticky {i : Input} (hi : i ≠ .reset) (h : runInput i s = .next t) :
    s.KeepsSticky t := by
  cases i with
  | command p => exact runCommand_keepsSticky h
  | edgeA e a b => exact eventEdge_keepsSticky h
  | edgeB e a b => exact eventEdge_keepsSticky h
  | mstick => cases h; exact .of_eq rfl rfl
  | reset => exact absurd rfl hi

end

/-- Settles O9: a step is idle or runs an input that is not RESET. -/
theorem stickyBitsStay : Obligations.StickyBitsStay := by
  intro s t hhead h
  have hk : s.KeepsSticky t := by
    cases hin : s.inputs with
    | nil =>
      rw [step_nil s hin] at h
      cases h; exact .of_eq rfl rfl
    | cons i rest =>
      rw [step_cons s i rest hin] at h
      have hi : i ≠ .reset := by
        rintro rfl; exact hhead (by rw [hin]; rfl)
      exact .trans (t := { s with inputs := rest }) (.of_eq rfl rfl) (runInput_keepsSticky hi h)
  exact ⟨hk.faultReg, hk.statusReg⟩

/-! ### Every step keeps the invariant -/

section
variable {s t : State}

theorem Fifo.push_wf {q q' : Fifo} {b : Byte} {accepted : Bool} (h : q.wf = true)
    (hp : q.push b = some (q', accepted)) : q'.wf = true := by
  obtain ⟨q1, h1, hw, -⟩ := Fifo.push_spec q b h
  cases h1.symm.trans hp; exact hw

theorem Fifo.pop_wf {q q' : Fifo} {o : Option Byte} (h : q.wf = true) (hp : q.pop = some (q', o)) :
    q'.wf = true := by
  obtain ⟨q1, h1, hw, -⟩ := Fifo.pop_spec q h
  cases h1.symm.trans hp; exact hw

theorem Fifo.put_wf {q q' : Fifo} {d : List Byte} {n : Nat} (h : q.wf = true)
    (hp : q.put d = some (q', n)) : q'.wf = true := by
  obtain ⟨q1, h1, hw, -⟩ := Fifo.put_spec q d h
  cases h1.symm.trans hp; exact hw

theorem Fifo.take_wf {q q' : Fifo} {m : Nat} {d : List Byte} (h : q.wf = true)
    (hp : q.take m = some (q', d)) : q'.wf = true := by
  obtain ⟨q1, h1, hw, -⟩ := Fifo.take_spec q m h
  cases h1.symm.trans hp; exact hw

theorem Codec.feed_wf {k k' : Codec} {ovf : ParseOvf} {b : Byte} {o : Option (Byte × Word)}
    (h : k.wf = true) (hf : k.feed ovf b = some (k', o)) : k'.wf = true := by
  obtain ⟨k1, o1, h1, hw, -⟩ := Codec.feed_spec k ovf b h
  cases h1.symm.trans hf; exact hw

/-- The rules of a CODEC speak of its receive side alone (R37). -/
theorem Codec.wf_withFlags (k : Codec) (ui sol : Bool) (h : k.wf = true) :
    Codec.wf { k with inUi := ui, sol := sol } = true := h

theorem Transport.emit_wf {x x' : Transport} {eol d : List Byte} {ui e : Bool} {n : Nat}
    (h : x.wf = true) (he : x.emit eol ui d = some (x', e, n)) : x'.wf = true := by
  obtain ⟨hrx, htx, hk⟩ := (Transport.wf_iff x).mp h
  obtain ⟨x1, h1, hw, -, -, hr, -, hc⟩ := Transport.emit_spec x eol ui d htx
  cases h1.symm.trans he
  exact (Transport.wf_iff x').mpr ⟨hr ▸ hrx, hw, hc ▸ Codec.wf_withFlags _ _ _ hk⟩

/-- A FIFO operation that keeps its FIFO within its rules keeps the invariant. -/
theorem State.Inv.setFifo (h : s.Inv) {f : Nat} {q q' : Fifo} (hq : s.fifo? f = some q)
    (hs : q'.size = q.size) (hw : q.wf = true → q'.wf = true) : (s.setFifo f q').Inv :=
  State.setFifo_inv s f q' q h hq hs (hw (State.fifo_wf s h.transports f q hq))

/-- A CODEC operation that keeps its transport within its rules keeps the invariant. -/
theorem State.Inv.setTransport (h : s.Inv) {c : Nat} {x x' : Transport} (hx : s.transport? c = some x)
    (hs : x.SameSizes x') (hw : x.wf = true → x'.wf = true) : (s.setTransport c x').Inv :=
  State.setTransport_inv s c x' x h hx hs.1 hs.2 (hw (State.transport_wf s h.transports c x hx))

/-- ENCSAT of an encoder that exists is a bit STATUS implements (R47). -/
theorem State.Inv.encsat_masked (h : s.Inv) {e : Nat} {n : Enc} (hn : s.enc? e = some n) :
    bitWord (encsatBit e) &&& ~~~ statusBits s.encs.length = 0 :=
  enc_masked e _ (State.nenc_le s h) (List.getElem?_eq_some_iff.mp hn).1

theorem State.Inv.pidUpdate (h : s.Inv) (p : Axis) (target actual : Int) (dt : Nat) :
    (s.pidUpdate p target actual dt).Inv := State.pidUpdate_inv s p target actual dt h

/-- PIDSAT of any axis is a bit STATUS implements (R47). -/
theorem State.Inv.pidsat (h : s.Inv) (p : Axis) (clipped : Bool) : (s.flagStatus p.number clipped).Inv :=
  State.flagStatus_inv s _ clipped h (axis_masked p _ (State.nenc_le s h))

theorem State.Inv.esync (h : s.Inv) {e : Nat} {n n' : Enc} (hn : s.enc? e = some n) (clipped : Bool) :
    ((s.setEnc e n').flagStatus (encsatBit e) clipped).Inv :=
  State.flagStatus_inv _ _ _ (State.setEnc_inv s e n' h) (by simpa using h.encsat_masked hn)

theorem State.Effect.inv {i : Instr} (h : s.Effect i t) (hs : s.Inv) : t.Inv := by
  cases h with
  | cfgrd => exact hs
  | cfgwr _ hw => exact State.writeReg_inv s t _ _ hs hw
  | fpush hq hp => exact hs.setFifo hq (Fifo.push_size hp) (Fifo.push_wf · hp)
  | fpop hq hp => exact hs.setFifo hq (Fifo.pop_size hp) (Fifo.pop_wf · hp)
  | fwrite hq _ hp => exact hs.setFifo hq (Fifo.put_size hp) (Fifo.put_wf · hp)
  | fread hq hp => exact hs.setFifo hq (Fifo.take_size hp) (Fifo.take_wf · hp)
  | favail => exact hs
  | ffree => exact hs
  | esync hn _ => exact hs.esync hn _
  | pupdate _ _ => exact hs.pidUpdate ..
  | cupdate _ _ =>
    exact (((hs.pidUpdate ..).pidsat .vehicle _).pidUpdate ..).pidUpdate ..
  | tpollNoTick => exact hs
  | tpollTick _ _ => exact State.withSched_inv s _ hs (Sched.tick_wf s.sched hs.sched).1
  | tnext => exact State.withSched_inv s _ hs hs.sched
  | crx hx hf =>
    refine hs.setTransport hx ⟨rfl, rfl⟩ fun hw => ?_
    obtain ⟨hrx, htx, hk⟩ := (Transport.wf_iff _).mp hw
    exact (Transport.wf_iff _).mpr ⟨hrx, htx, Codec.feed_wf hk hf⟩
  | csend hx _ he => exact hs.setTransport hx (Transport.emit_sameSizes he) (Transport.emit_wf · he)
  | cui hx _ he => exact hs.setTransport hx (Transport.emit_sameSizes he) (Transport.emit_wf · he)
  | cuiIgnored _ => exact hs

theorem State.Answered.inv {i : Instr} (h : s.Answered i t) (hs : s.Inv) : t.Inv := by
  cases h with
  | raised c => exact State.raise_inv s _ c hs
  | done he res results => exact State.respond_inv _ _ res results (he.inv hs)

theorem runCommand_inv {p : Packet} (hs : s.Inv) (h : runCommand p s = .next t) : t.Inv := by
  cases hd : decode p with
  | instr i =>
    rw [runCommand_instr s p i hd] at h
    exact (exec_answered h).inv hs
  | reject r =>
    rw [runCommand_reject s p r hd] at h
    cases h; exact State.raise_inv s _ _ hs

/-- The invariant does not speak of the response. -/
theorem State.Inv.withResponse (h : s.Inv) (r : Option Response) : State.Inv { s with response := r } :=
  { h with }

theorem eventEdge_inv {e : Nat} {sense : Sense} (hs : s.Inv) (h : eventEdge e sense s = .next t) :
    t.Inv := by
  obtain ⟨n, -, rfl⟩ := eventEdge_eq_next h
  exact (State.setEnc_inv s e _ hs).withResponse none

theorem eventMstick_inv (hs : s.Inv) : (eventMstick s).Inv := { hs with }

/-- RESET empties a FIFO and keeps it within its rules (R290, R291). -/
theorem Fifo.cleared_wf (q : Fifo) (h : q.wf = true) : q.cleared.wf = true := by
  obtain ⟨hs, -⟩ := (Fifo.wf_iff q).mp h
  exact Fifo.init_wf q.size (decide_eq_true hs)

theorem eventReset_transports_wf (h : ∀ x ∈ s.transports, x.wf = true) :
    ∀ x ∈ (eventReset s).transports, x.wf = true := by
  intro x hx
  obtain ⟨y, hy, rfl⟩ := List.mem_map.mp hx
  obtain ⟨hrx, htx, -⟩ := (Transport.wf_iff y).mp (h y hy)
  exact (Transport.wf_iff _).mpr ⟨y.rx.cleared_wf hrx, y.tx.cleared_wf htx, rfl⟩

theorem eventReset_inv (hs : s.Inv) : (eventReset s).Inv where
  params := (congrArg Params.wf (eventReset_sameSetup s).params).trans hs.params
  transports := eventReset_transports_wf hs.transports
  sched := rfl
  faultReg := BitVec.zero_and
  statusReg := BitVec.zero_and
  actLeft := legalAct_zero _
  actRight := legalAct_zero _
  inputs := by simpa [eventReset] using hs.inputs

theorem runInput_inv {i : Input} (hs : s.Inv) (h : runInput i s = .next t) : t.Inv := by
  cases i with
  | command p => exact runCommand_inv hs h
  | edgeA e a b => exact eventEdge_inv hs h
  | edgeB e a b => exact eventEdge_inv hs h
  | mstick => cases h; exact eventMstick_inv hs
  | reset => cases h; exact eventReset_inv hs

end

/-- Settles O52: a step is idle or runs an input on the legal state that holds the other inputs. -/
theorem stepKeepsTheInvariant : Obligations.StepKeepsTheInvariant := by
  intro s t hs h
  cases hin : s.inputs with
  | nil =>
    rw [step_nil s hin] at h
    cases h; exact hs
  | cons i rest =>
    rw [step_cons s i rest hin] at h
    exact runInput_inv (hs.withInputs (by simp [hin])) h

end Sys2Proof.Machine

/-! ### Two states that show the same (R22, R23, R37): units -/
namespace Sys2Proof.Machine

/-- The FIFOs have the same size and hold the same bytes in queue order, wherever those stand. -/
structure Fifo.SameView (q q' : Fifo) : Prop where
  size : q'.size = q.size
  queue : q'.queue = q.queue

/-- The CODECs hold the same token and the same flags, whatever stands after the token. -/
structure Codec.SameView (k k' : Codec) : Prop where
  token : k'.token = k.token
  inUi : k'.inUi = k.inUi
  sol : k'.sol = k.sol

/-- The parts of the transports show the same. -/
structure Transport.SameView (x x' : Transport) : Prop where
  rx : x.rx.SameView x'.rx
  tx : x.tx.SameView x'.tx
  codec : x.codec.SameView x'.codec

theorem Transport.SameView.withCodec {x x' : Transport} (hv : x.SameView x') {k k' : Codec}
    (hk : k.SameView k') : Transport.SameView { x with codec := k } { x' with codec := k' } :=
  ⟨hv.rx, hv.tx, hk⟩

section
variable {q q' p : Fifo}

theorem Fifo.SameView.used (hv : q.SameView q') : q'.used = q.used := by
  rw [← Fifo.queue_length, ← Fifo.queue_length, hv.queue]

theorem Fifo.SameView.free (hv : q.SameView q') : q'.free = q.free := by
  rw [Fifo.free, Fifo.free, hv.size, hv.used]

theorem Fifo.SameView.put (hv : q.SameView q') (h : q.wf = true) (h' : q'.wf = true) {d : List Byte}
    {n : Nat} (hp : q.put d = some (p, n)) : ∃ p', q'.put d = some (p', n) ∧ p.SameView p' := by
  obtain ⟨p1, h1, -, hs1, -, -, -, hq1⟩ := Fifo.put_spec q d h
  obtain ⟨p2, h2, -, hs2, -, -, -, hq2⟩ := Fifo.put_spec q' d h'
  cases h1.symm.trans hp
  exact ⟨p2, by rw [h2, hv.free], by rw [hs2, hv.size, hs1], by rw [hq2, hv.queue, hv.free, hq1]⟩

/-- A push is a put of one byte. -/
theorem Fifo.SameView.push (hv : q.SameView q') (h : q.wf = true) (h' : q'.wf = true) {b : Byte}
    {accepted : Bool} (hp : q.push b = some (p, accepted)) :
    ∃ p', q'.push b = some (p', accepted) ∧ p.SameView p' := by
  rw [Fifo.push_eq_put q b h] at hp
  obtain ⟨⟨p1, n⟩, hput, heq⟩ := Option.map_eq_some_iff.mp hp
  cases heq
  obtain ⟨p', hput', hv'⟩ := hv.put h h' hput
  exact ⟨p', by rw [Fifo.push_eq_put q' b h', hput']; rfl, hv'⟩

theorem Fifo.SameView.pop (hv : q.SameView q') (h : q.wf = true) (h' : q'.wf = true) {o : Option Byte}
    (hp : q.pop = some (p, o)) : ∃ p', q'.pop = some (p', o) ∧ p.SameView p' := by
  obtain ⟨p1, h1, -, hs1, -, -, -, -, hq1⟩ := Fifo.pop_spec q h
  obtain ⟨p2, h2, -, hs2, -, -, -, -, hq2⟩ := Fifo.pop_spec q' h'
  cases h1.symm.trans hp
  exact ⟨p2, by rw [h2, hv.queue], by rw [hs2, hv.size, hs1], by rw [hq2, hv.queue, hq1]⟩

theorem Fifo.SameView.take (hv : q.SameView q') (h : q.wf = true) (h' : q'.wf = true) {m : Nat}
    {d : List Byte} (hp : q.take m = some (p, d)) : ∃ p', q'.take m = some (p', d) ∧ p.SameView p' := by
  obtain ⟨p1, h1, -, hs1, -, -, -, -, hq1⟩ := Fifo.take_spec q m h
  obtain ⟨p2, h2, -, hs2, -, -, -, -, hq2⟩ := Fifo.take_spec q' m h'
  cases h1.symm.trans hp
  exact ⟨p2, by rw [h2, hv.queue, hv.used], by rw [hs2, hv.size, hs1],
    by rw [hq2, hv.queue, hv.used, hq1]⟩

end

section
variable {k k' k1 : Codec}

theorem Codec.SameView.len (hv : k.SameView k') : k'.len = k.len := by
  rw [← Codec.token_length, ← Codec.token_length, hv.token]

theorem Codec.SameView.idle (hv : k.SameView k') : k.idle.SameView k'.idle :=
  ⟨rfl, hv.inUi, hv.sol⟩

/-- One received byte: in each class of R141 the answer depends on the token alone. -/
theorem Codec.SameView.feed (hv : k.SameView k') (h : k.wf = true) (h' : k'.wf = true) {ovf : ParseOvf}
    {b : Byte} {o : Option (Byte × Word)} (hf : k.feed ovf b = some (k1, o)) :
    ∃ k1', k'.feed ovf b = some (k1', o) ∧ k1.SameView k1' := by
  by_cases hl : isLetter b = true
  · obtain ⟨tok, h1, -, ht, -⟩ := Codec.feed_letter k ovf b h hl
    obtain ⟨tok', h1', -, ht', -⟩ := Codec.feed_letter k' ovf b h' hl
    cases h1.symm.trans hf
    exact ⟨_, h1', by rw [ht', ht], hv.inUi, hv.sol⟩
  · by_cases hd : isDigit b = true
    · obtain ⟨hroom, hdrop⟩ := Codec.feed_digit k ovf b h hd
      obtain ⟨hroom', hdrop'⟩ := Codec.feed_digit k' ovf b h' hd
      rw [hv.len] at hroom' hdrop'
      by_cases hr : 1 ≤ k.len ∧ k.len ≤ 10
      · obtain ⟨tok, h1, -, ht, -⟩ := hroom hr
        obtain ⟨tok', h1', -, ht', -⟩ := hroom' hr
        cases h1.symm.trans hf
        exact ⟨_, h1', by rw [ht', hv.token, ht], hv.inUi, hv.sol⟩
      · cases (hdrop hr).symm.trans hf
        exact ⟨_, hdrop' hr, hv.idle⟩
    · by_cases hc : b = comma
      · subst hc
        cases (Codec.feed_comma k ovf h).symm.trans hf
        refine ⟨_, ?_, hv.idle⟩
        rw [Codec.feed_comma k' ovf h', hv.token]
      · have hother : ∀ j : Codec, j.feed ovf b = some (j.idle, none) := fun j =>
          Codec.feed_other j ovf b (by simpa using hl) (by simpa using hd) hc
        cases (hother k).symm.trans hf
        exact ⟨_, hother k', hv.idle⟩

end

section
variable {x x' y : Transport}

theorem Transport.SameView.eolFirst (hv : x.SameView x') (eol : List Byte) (ui : Bool) :
    x'.eolFirst eol ui = x.eolFirst eol ui := by
  rw [Transport.eolFirst, Transport.eolFirst, hv.codec.inUi, hv.codec.sol, hv.tx.free]

theorem Transport.SameView.roomAfter (hv : x.SameView x') (eol : List Byte) (ui : Bool) :
    x'.roomAfter eol ui = x.roomAfter eol ui := by
  rw [Transport.roomAfter, Transport.roomAfter, hv.eolFirst, hv.tx.free]

/-- New flags keep the token. -/
theorem Codec.SameView.withFlags {k k' : Codec} (hv : k.SameView k') (ui sol : Bool) :
    Codec.SameView { k with inUi := ui, sol := sol } { k' with inUi := ui, sol := sol } :=
  ⟨hv.token, rfl, rfl⟩

/-- The transmit path depends on the room in the FIFO and on the flags. -/
theorem Transport.SameView.emit (hv : x.SameView x') (h : x.wf = true) (h' : x'.wf = true)
    {eol d : List Byte} {ui e : Bool} {n : Nat} (hp : x.emit eol ui d = some (y, e, n)) :
    ∃ y', x'.emit eol ui d = some (y', e, n) ∧ y.SameView y' := by
  obtain ⟨-, htx, -⟩ := (Transport.wf_iff x).mp h
  obtain ⟨-, htx', -⟩ := (Transport.wf_iff x').mp h'
  obtain ⟨y1, h1, -, hs1, -, hr1, hq1, hc1⟩ := Transport.emit_spec x eol ui d htx
  obtain ⟨y2, h2, -, hs2, -, hr2, hq2, hc2⟩ := Transport.emit_spec x' eol ui d htx'
  cases h1.symm.trans hp
  rw [hv.eolFirst, hv.roomAfter] at h2 hq2 hc2
  rw [hv.codec.sol] at hc2
  refine ⟨y2, h2, ?_, ⟨by rw [hs2, hv.tx.size, hs1], by rw [hq2, hv.tx.queue, hq1]⟩, ?_⟩
  · rw [hr1, hr2]; exact hv.rx
  · rw [hc1, hc2]; exact hv.codec.withFlags _ _

end

/-! ### Two states that show the same: reading and replacing a part -/

section
variable {s s' : State}

theorem State.SameView.fifo_none (hv : s.SameView s') {f : Nat} (h : s.fifo? f = none) :
    s'.fifo? f = none := by
  have hf := hv.fifos f
  rw [h, Option.map_none] at hf
  exact Option.map_eq_none_iff.mp hf.symm

theorem State.SameView.fifo_some (hv : s.SameView s') {f : Nat} {q : Fifo} (h : s.fifo? f = some q) :
    ∃ q', s'.fifo? f = some q' ∧ q.SameView q' := by
  have hf := hv.fifos f
  rw [h, Option.map_some] at hf
  obtain ⟨q', hq', heq⟩ := Option.map_eq_some_iff.mp hf.symm
  obtain ⟨hsize, hqueue⟩ := Prod.mk.inj heq
  exact ⟨q', hq', hsize, hqueue⟩

theorem State.SameView.codec_some (hv : s.SameView s') {c : Nat} {k : Codec} (h : s.codec? c = some k) :
    ∃ k', s'.codec? c = some k' ∧ k.SameView k' := by
  have hk := hv.codecs c
  rw [h, Option.map_some] at hk
  obtain ⟨k', hk', heq⟩ := Option.map_eq_some_iff.mp hk.symm
  obtain ⟨htok, hflags⟩ := Prod.mk.inj heq
  obtain ⟨hui, hsol⟩ := Prod.mk.inj hflags
  exact ⟨k', hk', htok, hui, hsol⟩

theorem State.SameView.transport_none (hv : s.SameView s') {c : Nat} (h : s.transport? c = none) :
    s'.transport? c = none := by
  have hk := hv.codecs c
  rw [State.codec?, h, Option.map_none, Option.map_none] at hk
  exact Option.map_eq_none_iff.mp (Option.map_eq_none_iff.mp hk.symm)

/-- A transport and its counterpart show the same: its FIFOs and its CODEC are those of its number (R25). -/
theorem State.SameView.transport_some (hv : s.SameView s') {c : Nat} {x : Transport}
    (h : s.transport? c = some x) : ∃ x', s'.transport? c = some x' ∧ x.SameView x' := by
  obtain ⟨hrx, htx, hk⟩ := State.transport_parts s c x h
  obtain ⟨k', hk', hkv⟩ := hv.codec_some hk
  obtain ⟨x', hx', rfl⟩ := Option.map_eq_some_iff.mp hk'
  obtain ⟨hrx', htx', -⟩ := State.transport_parts s' c x' hx'
  obtain ⟨q, hq, hqv⟩ := hv.fifo_some hrx
  obtain ⟨r, hr, hrv⟩ := hv.fifo_some htx
  cases hrx'.symm.trans hq
  cases htx'.symm.trans hr
  exact ⟨x', hx', hqv, hrv, hkv⟩

/-- In legal states a FIFO and its counterpart are within their rules. -/
theorem State.SameView.fifo_legal (hv : s.SameView s') (h : s.Inv) (h' : s'.Inv) {f : Nat} {q : Fifo}
    (hq : s.fifo? f = some q) :
    ∃ q', s'.fifo? f = some q' ∧ q.SameView q' ∧ q.wf = true ∧ q'.wf = true := by
  obtain ⟨q', hq', hqv⟩ := hv.fifo_some hq
  exact ⟨q', hq', hqv, State.fifo_wf s h.transports f q hq, State.fifo_wf s' h'.transports f q' hq'⟩

/-- In legal states a transport and its counterpart are within their rules. -/
theorem State.SameView.transport_legal (hv : s.SameView s') (h : s.Inv) (h' : s'.Inv) {c : Nat}
    {x : Transport} (hx : s.transport? c = some x) :
    ∃ x', s'.transport? c = some x' ∧ x.SameView x' ∧ x.wf = true ∧ x'.wf = true := by
  obtain ⟨x', hx', hxv⟩ := hv.transport_some hx
  exact ⟨x', hx', hxv, State.transport_wf s h.transports c x hx, State.transport_wf s' h'.transports c x' hx'⟩

theorem State.SameView.setFifo (hv : s.SameView s') {f : Nat} {q q' p p' : Fifo}
    (hq : s.fifo? f = some q) (hq' : s'.fifo? f = some q') (hp : p.SameView p') :
    (s.setFifo f p).SameView (s'.setFifo f p') where
  rest := by rw [hv.rest]; rfl
  fifos g := by
    rw [State.fifo_setFifo, State.fifo_setFifo]
    by_cases hg : g = f
    · rw [if_pos hg, if_pos hg, hq, hq']; simp [hp.size, hp.queue]
    · rw [if_neg hg, if_neg hg, hv.fifos g]
  codecs c := by
    have hc : (s.setFifo f p).codec? c = s.codec? c := State.codec_setFifo s f p c
    have hc' : (s'.setFifo f p').codec? c = s'.codec? c := State.codec_setFifo s' f p' c
    rw [hc, hc', hv.codecs c]

/-- `FIFO[g]` is the receive or the transmit FIFO of its transport (R25). -/
theorem State.fifo_eq (s : State) (g : Nat) :
    s.fifo? g = (s.transport? (g / 2)).map fun x => if g % 2 = 0 then x.rx else x.tx := rfl

theorem State.SameView.setTransport (hv : s.SameView s') {c : Nat} {x x' y y' : Transport}
    (hx : s.transport? c = some x) (hx' : s'.transport? c = some x') (hy : y.SameView y') :
    (s.setTransport c y).SameView (s'.setTransport c y') where
  rest := by rw [hv.rest]; rfl
  fifos g := by
    rw [State.fifo_eq, State.fifo_eq, State.transport_setTransport, State.transport_setTransport]
    by_cases hg : g / 2 = c
    · rw [if_pos hg, if_pos hg, hx, hx']
      simp only [Option.map_some, Option.some.injEq, Prod.mk.injEq]
      split
      · exact ⟨hy.rx.size.symm, hy.rx.queue.symm⟩
      · exact ⟨hy.tx.size.symm, hy.tx.queue.symm⟩
    · rw [if_neg hg, if_neg hg]; exact hv.fifos g
  codecs d := by
    rw [State.codec?, State.codec?, State.transport_setTransport, State.transport_setTransport]
    by_cases hd : d = c
    · rw [if_pos hd, if_pos hd, hx, hx']
      simp [hy.codec.token, hy.codec.inUi, hy.codec.sol]
    · rw [if_neg hd, if_neg hd]; exact hv.codecs d

theorem State.SameView.respond (hv : s.SameView s') (op : Op) (res : Half) (results : List Word) :
    (s.respond op res results).SameView (s'.respond op res results) :=
  ⟨by rw [hv.rest]; rfl, hv.fifos, hv.codecs⟩

theorem State.SameView.raise (hv : s.SameView s') (op : Byte) (c : FaultCode) :
    (s.raise op c).SameView (s'.raise op c) :=
  ⟨by rw [hv.rest]; rfl, hv.fifos, hv.codecs⟩

end

/-! ### The same answer -/

/-- The outcome is a next state with the response of `t`, which shows the same as `t`. -/
def State.SameAnswer (t : State) (o : Host.Outcome State Fault Refusal) : Prop :=
  ∃ t', o = .next t' ∧ t'.response = t.response ∧ t.SameView t'

section
variable {s s' t : State}

theorem State.SameView.sameAnswer_respond (hv : s.SameView s') (op : Op) (res : Half)
    (results : List Word) :
    (s.respond op res results).SameAnswer (.next (s'.respond op res results)) :=
  ⟨_, rfl, rfl, hv.respond op res results⟩

theorem State.SameView.sameAnswer_raise (hv : s.SameView s') (op : Byte) (c : FaultCode) :
    (s.raise op c).SameAnswer (.next (s'.raise op c)) :=
  ⟨_, rfl, rfl, hv.raise op c⟩

/-! The FIFO operations -/

theorem execFpush_sameAnswer (h : s.Inv) (h' : s'.Inv) (hv : s.SameView s') {f b : Byte}
    (ht : execFpush f b s = .next t) : t.SameAnswer (execFpush f b s') := by
  unfold execFpush at ht ⊢
  split at ht
  · next hq =>
    cases ht; rw [hv.fifo_none hq]; exact hv.sameAnswer_raise ..
  · next q hq =>
    obtain ⟨q', hq', hqv, hw, hw'⟩ := hv.fifo_legal h h' hq
    split at ht
    · cases ht
    · next hp =>
      obtain ⟨p', hp', hpv⟩ := hqv.push hw hw' hp
      cases ht; simp only [hq', hp']
      exact (hv.setFifo hq hq' hpv).sameAnswer_respond ..

theorem execFpop_sameAnswer (h : s.Inv) (h' : s'.Inv) (hv : s.SameView s') {f : Byte}
    (ht : execFpop f s = .next t) : t.SameAnswer (execFpop f s') := by
  unfold execFpop at ht ⊢
  split at ht
  · next hq =>
    cases ht; rw [hv.fifo_none hq]; exact hv.sameAnswer_raise ..
  · next q hq =>
    obtain ⟨q', hq', hqv, hw, hw'⟩ := hv.fifo_legal h h' hq
    split at ht
    · cases ht
    · next hp =>
      obtain ⟨p', hp', hpv⟩ := hqv.pop hw hw' hp
      cases ht; simp only [hq', hp']
      exact (hv.setFifo hq hq' hpv).sameAnswer_respond ..
    · next hp =>
      obtain ⟨p', hp', hpv⟩ := hqv.pop hw hw' hp
      cases ht; simp only [hq', hp']
      exact (hv.setFifo hq hq' hpv).sameAnswer_respond ..

theorem execFwrite_sameAnswer (h : s.Inv) (h' : s'.Inv) (hv : s.SameView s') {f : Byte}
    {payload : List Word} (ht : execFwrite f payload s = .next t) :
    t.SameAnswer (execFwrite f payload s') := by
  unfold execFwrite at ht ⊢
  split at ht
  · next hq =>
    cases ht; rw [hv.fifo_none hq]; exact hv.sameAnswer_raise ..
  · next q hq =>
    obtain ⟨q', hq', hqv, hw, hw'⟩ := hv.fifo_legal h h' hq
    split at ht
    · next hl =>
      split at ht
      · cases ht
      · next hp =>
        obtain ⟨p', hp', hpv⟩ := hqv.put hw hw' hp
        cases ht; simp only [hq', hl, hp', if_true]
        exact (hv.setFifo hq hq' hpv).sameAnswer_respond ..
    · next hl =>
      cases ht; simp only [hq', hl]
      exact hv.sameAnswer_raise ..

theorem execFread_sameAnswer (h : s.Inv) (h' : s'.Inv) (hv : s.SameView s') {f : Byte} {maxLen : Half}
    (ht : execFread f maxLen s = .next t) : t.SameAnswer (execFread f maxLen s') := by
  unfold execFread at ht ⊢
  split at ht
  · next hq =>
    cases ht; rw [hv.fifo_none hq]; exact hv.sameAnswer_raise ..
  · next q hq =>
    obtain ⟨q', hq', hqv, hw, hw'⟩ := hv.fifo_legal h h' hq
    split at ht
    · cases ht
    · next hp =>
      obtain ⟨p', hp', hpv⟩ := hqv.take hw hw' hp
      cases ht; simp only [hq', hp']
      exact (hv.setFifo hq hq' hpv).sameAnswer_respond ..

theorem execFavail_sameAnswer (hv : s.SameView s') {f : Byte} (ht : execFavail f s = .next t) :
    t.SameAnswer (execFavail f s') := by
  unfold execFavail at ht ⊢
  split at ht
  · next hq =>
    cases ht; rw [hv.fifo_none hq]; exact hv.sameAnswer_raise ..
  · next hq =>
    obtain ⟨q', hq', hqv⟩ := hv.fifo_some hq
    cases ht; simp only [hq', hqv.used]
    exact hv.sameAnswer_respond ..

theorem execFfree_sameAnswer (hv : s.SameView s') {f : Byte} (ht : execFfree f s = .next t) :
    t.SameAnswer (execFfree f s') := by
  unfold execFfree at ht ⊢
  split at ht
  · next hq =>
    cases ht; rw [hv.fifo_none hq]; exact hv.sameAnswer_raise ..
  · next hq =>
    obtain ⟨q', hq', hqv⟩ := hv.fifo_some hq
    cases ht; simp only [hq', hqv.free]
    exact hv.sameAnswer_respond ..

/-! The CODEC operations -/

/-- The settings are the same in two states that show the same. -/
theorem State.SameView.settings (hv : s.SameView s') : s'.settings = s.settings := by rw [hv.rest]

theorem execCrx_sameAnswer (h : s.Inv) (h' : s'.Inv) (hv : s.SameView s') {c b : Byte}
    (ht : execCrx c b s = .next t) : t.SameAnswer (execCrx c b s') := by
  unfold execCrx at ht ⊢
  split at ht
  · next hx =>
    cases ht; rw [hv.transport_none hx]; exact hv.sameAnswer_raise ..
  · next x hx =>
    obtain ⟨x', hx', hxv, hw, hw'⟩ := hv.transport_legal h h' hx
    obtain ⟨-, -, hk⟩ := (Transport.wf_iff x).mp hw
    obtain ⟨-, -, hk'⟩ := (Transport.wf_iff x').mp hw'
    split at ht
    · cases ht
    · next hf =>
      obtain ⟨k', hf', hkv⟩ := hxv.codec.feed hk hk' hf
      cases ht; simp only [hx', hv.settings, hf']
      exact (hv.setTransport hx hx' (hxv.withCodec hkv)).sameAnswer_respond ..
    · next hf =>
      obtain ⟨k', hf', hkv⟩ := hxv.codec.feed hk hk' hf
      cases ht; simp only [hx', hv.settings, hf']
      exact (hv.setTransport hx hx' (hxv.withCodec hkv)).sameAnswer_respond ..

theorem execCsend_sameAnswer (h : s.Inv) (h' : s'.Inv) (hv : s.SameView s') {c code : Byte} {value : Word}
    (ht : execCsend c code value s = .next t) : t.SameAnswer (execCsend c code value s') := by
  unfold execCsend at ht ⊢
  split at ht
  · next hx =>
    cases ht; rw [hv.transport_none hx]; exact hv.sameAnswer_raise ..
  · next x hx =>
    obtain ⟨x', hx', hxv, hw, hw'⟩ := hv.transport_legal h h' hx
    split at ht
    · next hl =>
      split at ht
      · cases ht
      · next he =>
        obtain ⟨y', he', hyv⟩ := hxv.emit hw hw' he
        cases ht; simp only [hx', hl, hv.settings, he', if_true]
        exact (hv.setTransport hx hx' hyv).sameAnswer_respond ..
    · next hl =>
      cases ht; simp only [hx', hl]
      exact hv.sameAnswer_raise ..

theorem execCui_sameAnswer (h : s.Inv) (h' : s'.Inv) (hv : s.SameView s') {c ch : Byte}
    (ht : execCui c ch s = .next t) : t.SameAnswer (execCui c ch s') := by
  unfold execCui at ht ⊢
  split at ht
  · next hx =>
    cases ht; rw [hv.transport_none hx]; exact hv.sameAnswer_raise ..
  · next x hx =>
    obtain ⟨x', hx', hxv, hw, hw'⟩ := hv.transport_legal h h' hx
    split at ht
    · next hl =>
      split at ht
      · cases ht
      · next he =>
        obtain ⟨y', he', hyv⟩ := hxv.emit hw hw' he
        cases ht; simp only [hx', hl, hv.settings, he', if_true]
        exact (hv.setTransport hx hx' hyv).sameAnswer_respond ..
    · next hl =>
      cases ht; simp only [hx', hl]
      exact hv.sameAnswer_respond ..

end

/-! ### Operations that read no FIFO and no CODEC

They run alike on any transports. -/

/-- The state with other transports. -/
def State.withTransports (s : State) (xs : List Transport) : State := { s with transports := xs }

section
variable {s s' t : State}

theorem State.readReg_withTransports (s : State) (xs : List Transport) (r : Reg) :
    (s.withTransports xs).readReg r = s.readReg r := by cases r <;> rfl

theorem State.writeReg_withTransports {r : Reg} {v : Word} (xs : List Transport) :
    (s.withTransports xs).writeReg r v = (s.writeReg r v).map (State.withTransports · xs) := by
  cases r with
  | slip => simp only [State.writeReg]; split <;> rfl
  | motorEn => simp only [State.writeReg]; split <;> rfl
  | ppr e =>
    have he : (s.withTransports xs).enc? e = s.enc? e := rfl
    simp only [State.writeReg, he]
    split
    · rfl
    · split <;> rfl
  | _ => rfl

theorem State.pidUpdate_withTransports (s : State) (xs : List Transport) (p : Axis) (target actual : Int)
    (dt : Nat) :
    (s.withTransports xs).pidUpdate p target actual dt = (s.pidUpdate p target actual dt).withTransports xs := by
  cases p <;> rfl

theorem execCfgrd_withTransports {reg : Half} (xs : List Transport) (h : execCfgrd reg s = .next t) :
    execCfgrd reg (s.withTransports xs) = .next (t.withTransports xs) := by
  unfold execCfgrd at h ⊢
  have he : (s.withTransports xs).encs = s.encs := rfl
  rw [he]
  split at h
  · next hr => cases h; rfl
  · cases h; simp only [State.readReg_withTransports]; rfl

theorem execCfgwr_withTransports {reg : Half} {value : Word} (xs : List Transport)
    (h : execCfgwr reg value s = .next t) :
    execCfgwr reg value (s.withTransports xs) = .next (t.withTransports xs) := by
  unfold execCfgwr at h ⊢
  have he : (s.withTransports xs).encs = s.encs := rfl
  rw [he]
  split at h
  · cases h; rfl
  · simp only [State.writeReg_withTransports]
    split at h
    · next hw => cases h; simp only [hw]; rfl
    · next hw => cases h; simp only [hw]; rfl

theorem execEsync_withTransports {e : Byte} (xs : List Transport) (h : execEsync e s = .next t) :
    execEsync e (s.withTransports xs) = .next (t.withTransports xs) := by
  unfold execEsync at h ⊢
  have he : (s.withTransports xs).enc? e.toNat = s.enc? e.toNat := rfl
  have htime : (s.withTransports xs).time = s.time := rfl
  rw [he]
  split at h
  · cases h; rfl
  · simp only [htime]
    split at h
    · cases h; rfl
    · cases h; rfl

theorem execPupdate_withTransports {p : Byte} {target actual dt : Word} (xs : List Transport)
    (h : execPupdate p target actual dt s = .next t) :
    execPupdate p target actual dt (s.withTransports xs) = .next (t.withTransports xs) := by
  unfold execPupdate at h ⊢
  split at h
  · cases h; rfl
  · split at h
    · next hdt => cases h; simp only [hdt, if_true]; rfl
    · next hdt => cases h; simp only [hdt, if_false, State.pidUpdate_withTransports]; rfl

/-- The cascade is three updates and a flag, each of which leaves the transports to one side. -/
theorem execCupdate_withTransports {vactual lactual ractual dt : Word} (xs : List Transport)
    (h : execCupdate vactual lactual ractual dt s = .next t) :
    execCupdate vactual lactual ractual dt (s.withTransports xs) = .next (t.withTransports xs) := by
  have hflag : ∀ (u : State) (n : Nat) (c : Bool),
      (u.withTransports xs).flagStatus n c = (u.flagStatus n c).withTransports xs := fun _ _ _ => rfl
  unfold execCupdate at h ⊢
  split at h
  · next hdt => cases h; rw [if_pos hdt]; rfl
  · next hdt =>
    cases h
    simp only [if_neg hdt, State.pidUpdate_withTransports, hflag]
    rfl

theorem execTpoll_withTransports (xs : List Transport) (h : execTpoll s = .next t) :
    execTpoll (s.withTransports xs) = .next (t.withTransports xs) := by
  unfold execTpoll at h ⊢
  have hsched : (s.withTransports xs).sched = s.sched := rfl
  have htime : (s.withTransports xs).time = s.time := rfl
  have hset : (s.withTransports xs).settings = s.settings := rfl
  simp only [hsched, htime, hset]
  split at h
  · next hb => cases h; rw [if_pos hb]; rfl
  · next hb =>
    rw [if_neg hb]
    split at h
    · next hd => cases h; rw [if_pos hd]; rfl
    · next hd =>
      rw [if_neg hd]
      dsimp only at h
      split at h
      · next hm => cases h; rw [if_pos hm]; rfl
      · next hm => cases h; rw [if_neg hm]; rfl

theorem execTnext_withTransports (xs : List Transport) (h : execTnext s = .next t) :
    execTnext (s.withTransports xs) = .next (t.withTransports xs) := by
  cases h; rfl

/-- An operation that writes no queue and no CODEC and runs alike on any transports gives the same answer: what
it leaves of the queues and tokens is what it found. -/
theorem State.SameView.sameAnswer_of_withTransports (hv : s.SameView s') {i : Instr}
    (hi : i.op ∉ [Op.fpush, .fpop, .fwrite, .fread, .csend, .cui, .crx]) (ht : exec i s = .next t)
    (h : exec i (s.withTransports s'.transports) = .next (t.withTransports s'.transports)) :
    t.SameAnswer (exec i s') := by
  obtain ⟨-, -, -, -, -, hfifos, hcodecs, -⟩ := stateIsOwned i s t ht
  have hsub : i.op ∉ [Op.fpush, .fpop, .fwrite, .fread, .csend, .cui] ∧ i.op ∉ [Op.crx, .csend, .cui] := by
    simp only [List.mem_cons, List.not_mem_nil, or_false, not_or] at hi ⊢
    tauto
  have hs' : s' = s.withTransports s'.transports := hv.rest
  refine ⟨t.withTransports s'.transports, by rw [hs']; exact h, rfl, rfl, fun f => ?_, fun c => ?_⟩
  · rw [hfifos hsub.1 f]; exact hv.fifos f
  · rw [hcodecs hsub.2 c]; exact hv.codecs c

end

/-- Settles O22: the queue and CODEC operations by what they do to a queue and a token, the others because they run
alike on any transports. -/
theorem slotsAreNotVisible : Obligations.SlotsAreNotVisible := by
  intro i s s' t h h' hv ht
  show t.SameAnswer (exec i s')
  cases i with
  | cfgrd reg => exact hv.sameAnswer_of_withTransports (by simp [Instr.op]) ht (execCfgrd_withTransports _ ht)
  | cfgwr reg value => exact hv.sameAnswer_of_withTransports (by simp [Instr.op]) ht (execCfgwr_withTransports _ ht)
  | fpush f b => exact execFpush_sameAnswer h h' hv ht
  | fpop f => exact execFpop_sameAnswer h h' hv ht
  | fwrite f payload => exact execFwrite_sameAnswer h h' hv ht
  | fread f maxLen => exact execFread_sameAnswer h h' hv ht
  | favail f => exact execFavail_sameAnswer hv ht
  | ffree f => exact execFfree_sameAnswer hv ht
  | esync e => exact hv.sameAnswer_of_withTransports (by simp [Instr.op]) ht (execEsync_withTransports _ ht)
  | pupdate p target actual dt =>
    exact hv.sameAnswer_of_withTransports (by simp [Instr.op]) ht (execPupdate_withTransports _ ht)
  | cupdate vactual lactual ractual dt =>
    exact hv.sameAnswer_of_withTransports (by simp [Instr.op]) ht (execCupdate_withTransports _ ht)
  | tpoll => exact hv.sameAnswer_of_withTransports (by simp [Instr.op]) ht (execTpoll_withTransports _ ht)
  | tnext => exact hv.sameAnswer_of_withTransports (by simp [Instr.op]) ht (execTnext_withTransports _ ht)
  | crx c b => exact execCrx_sameAnswer h h' hv ht
  | csend c code value => exact execCsend_sameAnswer h h' hv ht
  | cui c ch => exact execCui_sameAnswer h h' hv ht

end Sys2Proof.Machine

/-! The statements of 20_memory.md. A register reads back what was written to it; a put and a take on one queue
commute because they move different cursors; and an event other than RESET commutes with the operations, because each
of them runs alike whatever the time counter holds and whatever an edge left in an encoder. -/
namespace Sys2Proof.Machine

/-! ### Reading after writing a register (R68, R251, R252) -/

/-- A word with no bit from `k` on is kept by a register of `k` bits. -/
theorem word_setWidth_of_lt (v : Word) (k : Nat) (h : v.toNat < 2 ^ k) : (v.setWidth k).setWidth 32 = v := by
  apply BitVec.eq_of_toNat_eq
  rw [BitVec.toNat_setWidth, BitVec.toNat_setWidth, Nat.mod_eq_of_lt h, Nat.mod_eq_of_lt v.isLt]

/-- The header of a fault is never that of an answer with status 0: no fault has code 0 (R46, R261). -/
theorem respHeader_fault_ne (op op' : Byte) (c : FaultCode) (res res' : Half) :
    respHeader op (BitVec.ofNat 8 c.code) res ≠ respHeader op' 0 res' := by
  intro h
  obtain ⟨-, hstatus, -⟩ := append_inj h
  revert hstatus
  cases c <;> decide

section
variable {s t : State}

@[simp] theorem State.readReg_respond (s : State) (op : Op) (res : Half) (ws : List Word) (r : Reg) :
    (s.respond op res ws).readReg r = s.readReg r := by cases r <;> rfl

/-- A write to a register that is not refused stores the word whole (R251, R252). -/
theorem State.readReg_of_writeReg {r : Reg} {v : Word} (h : s.writeReg r v = .ok t) : t.readReg r = v := by
  cases r with
  | fault => cases h
  | status => cases h
  | vtarget => cases h; rfl
  | slip =>
    simp only [State.writeReg] at h
    split at h
    · next hv => cases h; exact word_setWidth_of_lt v 31 hv
    · cases h
  | motorEn =>
    simp only [State.writeReg] at h
    split at h
    · next hv => cases h; exact word_setWidth_of_lt v 2 hv
    · cases h
  | ppr e =>
    simp only [State.writeReg] at h
    split at h
    · cases h
    · next n hn =>
      split at h
      · next hv =>
        cases h
        simp only [State.readReg, State.enc_setEnc, if_true, hn, Option.map_some]
        exact word_setWidth_of_lt v 16 hv
      · cases h
  | kp p => cases h; simp [State.readReg]
  | ki p => cases h; simp [State.readReg]
  | kd p => cases h; simp [State.readReg]

end

/-- Settles O12: a status of 0 rules the faults out, so the word was written to the register that the same number
names afterwards. -/
theorem readAfterWriteOfRegister : Obligations.ReadAfterWriteOfRegister := by
  intro s t reg v ht hresp
  cases exec_answered ht with
  | raised c =>
    have hheader := congrArg Response.header (Option.some.inj hresp)
    exact absurd hheader (respHeader_fault_ne _ 0x02 c 0 0)
  | @done u he res results =>
    cases he with
    | cfgwr hr hw =>
      have hlen : u.encs.length = s.encs.length := congrArg Params.nenc (State.writeReg_sameSetup hw).params
      show execCfgrd reg _ = _
      rw [execCfgrd, State.respond_encs, hlen, hr]
      simp only [State.readReg_respond, State.readReg_of_writeReg hw]

/-! ### A put and a take on one queue (R70) -/

/-- The FIFO after a byte was put where there was room (R111). -/
def Fifo.pushed (q : Fifo) (b : Byte) : Fifo :=
  { q with buf := Memory.write q.buf q.stop b, stop := (q.stop + 1) % q.size }

/-- The FIFO after a byte was taken where there was one (R112). -/
def Fifo.popped (q : Fifo) : Fifo := { q with start := (q.start + 1) % q.size }

theorem Fifo.push_of_not_full (q : Fifo) (b : Byte) (hstop : q.stop < q.size) (hf : q.full = false) :
    q.push b = some (q.pushed b, true) := by
  have hin : q.stop + [b].length ≤ q.size := hstop
  simp only [Fifo.push, hf, Memory.store, if_pos hin]
  rfl

theorem Fifo.pop_of_not_empty (q : Fifo) (hstart : q.start < q.size) (he : q.empty = false) :
    q.pop = some (q.popped, some (Memory.read q.buf q.start)) := by
  have hin : q.start + 1 ≤ q.size := hstart
  simp only [Fifo.pop, he, Memory.load, if_pos hin]
  rfl

/-- A queue that was not full is not empty after a put: `end + 1` has not reached `start` (R24). -/
theorem Fifo.pushed_empty (q : Fifo) (b : Byte) (hf : q.full = false) : (q.pushed b).empty = false := by
  simp only [Fifo.full, beq_eq_false_iff_ne] at hf
  simpa [Fifo.empty, Fifo.pushed] using Ne.symm hf

/-- A queue that was not empty is not full after a take (R24). -/
theorem Fifo.popped_full (q : Fifo) (h : q.wf = true) (he : q.empty = false) : q.popped.full = false := by
  obtain ⟨hsize, hstart, hstop, -⟩ := (Fifo.wf_iff q).mp h
  have hne : q.start ≠ q.stop := by simpa [Fifo.empty] using he
  have hmod : (q.stop + 1) % q.size ≠ (q.start + 1) % q.size := by
    rcases mod_cases (q.stop + 1) q.size (by omega) with h1 | h1 <;>
      rcases mod_cases (q.start + 1) q.size (by omega) with h2 | h2 <;> omega
  simpa [Fifo.full, Fifo.popped] using hmod

/-- The put does not store to the slot the take reads. -/
theorem Fifo.pushed_head (q : Fifo) (b : Byte) (h : q.wf = true) (he : q.empty = false) :
    Memory.read (q.pushed b).buf (q.pushed b).start = Memory.read q.buf q.start := by
  obtain ⟨-, -, -, hbuf, -⟩ := (Fifo.wf_iff q).mp h
  have hne : q.start ≠ q.stop := by simpa [Fifo.empty] using he
  exact (Memory.read_write q.buf q.stop b q.start hbuf).trans (if_neg hne)

/-- The second of two replacements of one FIFO stands. -/
theorem State.setFifo_setFifo (s : State) (f : Nat) (q q' : Fifo) :
    (s.setFifo f q).setFifo f q' = s.setFifo f q' := by
  simp only [State.setFifo, List.modify_modify_eq]
  congr 2
  funext t
  by_cases hf : f % 2 = 0
  · simp [hf]
  · simp [hf]

/-- Replacing a FIFO does not look at the response. -/
theorem State.setFifo_respond (s : State) (f : Nat) (q : Fifo) (op : Op) (res : Half) (ws : List Word) :
    (s.respond op res ws).setFifo f q = (s.setFifo f q).respond op res ws := rfl

/-- The second of two answers stands. -/
theorem State.respond_respond (s : State) (op op' : Op) (res res' : Half) (ws ws' : List Word) :
    (s.respond op res ws).respond op' res' ws' = s.respond op' res' ws' := rfl

theorem exec_fpush_of_push {s : State} {f b : Byte} {q q' : Fifo} (hq : s.fifo? f.toNat = some q)
    (hp : q.push b = some (q', true)) :
    exec (.fpush f b) s = .next ((s.setFifo f.toNat q').respond .fpush 1 []) := by
  simp only [exec, execFpush, hq, hp, if_true]

theorem exec_fpop_of_pop {s : State} {f x : Byte} {q q' : Fifo} (hq : s.fifo? f.toNat = some q)
    (hp : q.pop = some (q', some x)) :
    exec (.fpop f) s = .next ((s.setFifo f.toNat q').respond .fpop (0x0100 ||| byteImm x) []) := by
  simp only [exec, execFpop, hq, hp]

/-- The responses of two operations, one after the other. -/
theorem execTrace_pair {i j : Instr} {s s1 s2 : State} {r1 r2 : Response} (h1 : exec i s = .next s1)
    (hr1 : s1.response = some r1) (h2 : exec j s1 = .next s2) (hr2 : s2.response = some r2) :
    execTrace [i, j] s = some ([r1, r2], s2) := by
  simp only [execTrace, h1, h2, hr1, hr2]
  rfl

/-- Settles O23: each of the two runs is a put and a take that both succeed, and they leave the same FIFO. -/
theorem putAndTakeCommute : Obligations.PutAndTakeCommute := by
  intro s f b q hs hq he hf
  have hw := State.fifo_wf s hs.transports f.toNat q hq
  obtain ⟨hsize, hstart, hstop, -⟩ := (Fifo.wf_iff q).mp hw
  have hput := exec_fpush_of_push hq (q.push_of_not_full b hstop hf)
  have htake := exec_fpop_of_pop hq (q.pop_of_not_empty hstart he)
  have htake' := exec_fpop_of_pop
    (s := (s.setFifo f.toNat (q.pushed b)).respond .fpush 1 [])
    (State.setFifo_fifo s f.toNat (q.pushed b) q hq)
    ((q.pushed b).pop_of_not_empty hstart (q.pushed_empty b hf))
  have hput' := exec_fpush_of_push
    (s := (s.setFifo f.toNat q.popped).respond .fpop (0x0100 ||| byteImm (Memory.read q.buf q.start)) [])
    (State.setFifo_fifo s f.toNat q.popped q hq)
    (q.popped.push_of_not_full b hstop (q.popped_full hw he))
  rw [q.pushed_head b hw he] at htake'
  refine ⟨_, _, _, _, execTrace_pair hput rfl htake' rfl, execTrace_pair htake rfl hput' rfl, ?_⟩
  simp only [State.setFifo_respond, State.setFifo_setFifo, State.respond_respond]
  rfl

end Sys2Proof.Machine

/-! ### Events other than RESET and the operations (R69)

An edge changes one encoder, the strobe changes the time counter, and both leave no response. Both are
`State.afterEvent`, of which one statement, `exec_afterEvent`, says that every operation runs alike before and after
it. -/
namespace Sys2Proof.Machine

/-- The state with time `tm` and encoder `e` changed by `f`. -/
def State.withClockAndEnc (s : State) (tm : Word) (e : Nat) (f : Enc → Enc) : State :=
  { s with time := tm, encs := s.encs.modify e f }

/-- The state after an event that sets the time counter to `tm` and changes encoder `e` by `f`. -/
def State.afterEvent (s : State) (tm : Word) (e : Nat) (f : Enc → Enc) : State :=
  { s.withClockAndEnc tm e f with response := none }

/-- The outcome with its next state changed by `g`. -/
def mapNext (g : State → State) : Host.Outcome State Fault Refusal → Host.Outcome State Fault Refusal
  | .next s => .next (g s)
  | .fault r => .fault r
  | .refused r => .refused r

/-- The change of an encoder leaves PPR to one side (R27, R52). -/
def LeavesPpr (f : Enc → Enc) : Prop := ∀ n ppr, f { n with ppr := ppr } = { f n with ppr := ppr }

theorem LeavesPpr.ppr {f : Enc → Enc} (hf : LeavesPpr f) (n : Enc) : (f n).ppr = n.ppr := by
  have h : (f { n with ppr := n.ppr }).ppr = n.ppr := by rw [hf]
  exact h

theorem leavesPpr_id : LeavesPpr id := fun _ _ => rfl

/-- An edge neither reads nor writes PPR (R171, R172). -/
theorem leavesPpr_edge (tm : Word) (sense : Sense) : LeavesPpr (Enc.edge · tm sense) := fun _ _ => rfl

/-- What the event makes of encoder `j`: `f` where `j` is the encoder it changes. -/
def encChange (e : Nat) (f : Enc → Enc) (j : Nat) (n : Enc) : Enc := if e = j then f n else n

theorem encChange_ne {e j : Nat} (f : Enc → Enc) (n : Enc) (h : j ≠ e) : encChange e f j n = n :=
  if_neg (Ne.symm h)

theorem LeavesPpr.encChange {f : Enc → Enc} (hf : LeavesPpr f) (e j : Nat) : LeavesPpr (encChange e f j) := by
  intro n ppr
  unfold Machine.encChange
  split
  · exact hf n ppr
  · rfl

section
variable (s : State) (tm : Word) (e : Nat) (f : Enc → Enc)

/-! What the event leaves, and what it makes of an encoder -/

@[simp] theorem State.afterEvent_fifo (g : Nat) : (s.afterEvent tm e f).fifo? g = s.fifo? g := rfl

@[simp] theorem State.afterEvent_transport (c : Nat) :
    (s.afterEvent tm e f).transport? c = s.transport? c := rfl

@[simp] theorem State.afterEvent_settings : (s.afterEvent tm e f).settings = s.settings := rfl

@[simp] theorem State.afterEvent_sched : (s.afterEvent tm e f).sched = s.sched := rfl

@[simp] theorem State.afterEvent_vtarget : (s.afterEvent tm e f).vtarget = s.vtarget := rfl

@[simp] theorem State.afterEvent_slip : (s.afterEvent tm e f).slip = s.slip := rfl

@[simp] theorem State.afterEvent_time : (s.afterEvent tm e f).time = tm := rfl

@[simp] theorem State.afterEvent_nenc : (s.afterEvent tm e f).encs.length = s.encs.length :=
  List.length_modify ..

@[simp] theorem State.afterEvent_enc (j : Nat) :
    (s.afterEvent tm e f).enc? j = (s.enc? j).map (encChange e f j) := List.getElem?_modify ..

/-! The updates of the state go through the event -/

theorem State.afterEvent_respond (op : Op) (res : Half) (ws : List Word) :
    (s.afterEvent tm e f).respond op res ws = (s.respond op res ws).withClockAndEnc tm e f := rfl

theorem State.afterEvent_raise (op : Byte) (c : FaultCode) :
    (s.afterEvent tm e f).raise op c = (s.raise op c).withClockAndEnc tm e f := rfl

theorem State.afterEvent_setFifo (g : Nat) (q : Fifo) :
    (s.afterEvent tm e f).setFifo g q = (s.setFifo g q).afterEvent tm e f := rfl

theorem State.afterEvent_setTransport (c : Nat) (t : Transport) :
    (s.afterEvent tm e f).setTransport c t = (s.setTransport c t).afterEvent tm e f := rfl

theorem State.afterEvent_flagStatus (n : Nat) (c : Bool) :
    (s.afterEvent tm e f).flagStatus n c = (s.flagStatus n c).afterEvent tm e f := rfl

theorem State.afterEvent_pidResult (p : Axis) (target actual : Int) (dt : Nat) :
    (s.afterEvent tm e f).pidResult p target actual dt = s.pidResult p target actual dt := rfl

theorem State.afterEvent_pidUpdate (p : Axis) (target actual : Int) (dt : Nat) :
    (s.afterEvent tm e f).pidUpdate p target actual dt = (s.pidUpdate p target actual dt).afterEvent tm e f := by
  cases p <;> rfl

/-- Replacing an encoder by what the event makes of `n` is replacing it by `n` before the event. -/
theorem State.afterEvent_setEnc (j : Nat) (n : Enc) :
    (s.afterEvent tm e f).setEnc j (encChange e f j n) = (s.setEnc j n).afterEvent tm e f := by
  have hencs : (s.encs.modify e f).set j (encChange e f j n) = (s.encs.set j n).modify e f := by
    by_cases hj : e = j
    · subst hj
      rw [List.set_eq_modify, List.set_eq_modify, List.modify_modify_eq, List.modify_modify_eq]
      simp [Function.comp_def, encChange]
    · rw [encChange_ne f n (Ne.symm hj), List.set_eq_modify, List.set_eq_modify, List.modify_modify_ne _ _ _ hj]
  simp only [State.setEnc, State.afterEvent, State.withClockAndEnc, hencs]

/-! The register space -/

theorem State.afterEvent_readReg (hf : LeavesPpr f) (r : Reg) : (s.afterEvent tm e f).readReg r = s.readReg r := by
  cases r with
  | ppr j =>
    simp only [State.readReg, State.afterEvent_enc]
    cases s.enc? j with
    | none => rfl
    | some n => simp only [Option.map_some, (hf.encChange e j).ppr n]
  | _ => rfl

theorem State.afterEvent_writeReg (hf : LeavesPpr f) (r : Reg) (v : Word) :
    (s.afterEvent tm e f).writeReg r v = (s.writeReg r v).map (State.afterEvent · tm e f) := by
  cases r with
  | slip => simp only [State.writeReg]; split <;> rfl
  | motorEn => simp only [State.writeReg]; split <;> rfl
  | ppr j =>
    simp only [State.writeReg, State.afterEvent_enc]
    cases s.enc? j with
    | none => rfl
    | some n =>
      simp only [Option.map_some, ← hf.encChange e j n, State.afterEvent_setEnc]
      split <;> rfl
  | _ => rfl

/-! ### The three answers of TPOLL (R233) -/

theorem execTpoll_of_busy (h : s.sched.phase ≠ .idle) :
    execTpoll s = .next (s.respond .tpoll 0x8000 []) := if_pos h

theorem execTpoll_of_noTick (h : s.sched.phase = .idle) (hdue : s.time = s.sched.lastMs) :
    execTpoll s = .next (s.respond .tpoll 0x0000 []) := by
  rw [execTpoll, if_neg (not_not.mpr h), if_pos hdue]

/-- The tick that is due is dispatched; the control sequence starts when the tick reaches `CTRL_LEVEL`. -/
theorem execTpoll_of_tick (h : s.sched.phase = .idle) (hdue : s.time ≠ s.sched.lastMs) :
    execTpoll s =
      (let k := s.sched.tick.1
       let m := tickMask s.sched.tick.2
       let control := m.getLsbD (levelBit s.settings.ctrlLevel)
       .next ({ s with sched := if control then { k with phase := .sync } else k }.respond .tpoll
         (if control then m ||| 0x0010 else m) [])) := by
  rw [execTpoll, if_neg (not_not.mpr h), if_neg hdue]
  dsimp only
  split
  · rfl
  · rfl

/-! ### Each operation and the event -/

theorem execCfgrd_afterEvent (hf : LeavesPpr f) (reg : Half) :
    execCfgrd reg (s.afterEvent tm e f) = mapNext (State.withClockAndEnc · tm e f) (execCfgrd reg s) := by
  simp only [execCfgrd, State.afterEvent_nenc, s.afterEvent_readReg tm e f hf]
  cases regOf s.encs.length reg with
  | none => rfl
  | some r => rfl

theorem execCfgwr_afterEvent (hf : LeavesPpr f) (reg : Half) (v : Word) :
    execCfgwr reg v (s.afterEvent tm e f) = mapNext (State.withClockAndEnc · tm e f) (execCfgwr reg v s) := by
  simp only [execCfgwr, State.afterEvent_nenc, s.afterEvent_writeReg tm e f hf]
  cases regOf s.encs.length reg with
  | none => rfl
  | some r =>
    dsimp only
    cases s.writeReg r v with
    | error c => rfl
    | ok u => rfl

theorem execFpush_afterEvent (g b : Byte) :
    execFpush g b (s.afterEvent tm e f) = mapNext (State.withClockAndEnc · tm e f) (execFpush g b s) := by
  simp only [execFpush, State.afterEvent_fifo]
  cases s.fifo? g.toNat with
  | none => rfl
  | some q =>
    dsimp only
    cases q.push b with
    | none => rfl
    | some r => rfl

theorem execFpop_afterEvent (g : Byte) :
    execFpop g (s.afterEvent tm e f) = mapNext (State.withClockAndEnc · tm e f) (execFpop g s) := by
  simp only [execFpop, State.afterEvent_fifo]
  cases s.fifo? g.toNat with
  | none => rfl
  | some q =>
    dsimp only
    split <;> rfl

theorem execFwrite_afterEvent (g : Byte) (payload : List Word) :
    execFwrite g payload (s.afterEvent tm e f) =
      mapNext (State.withClockAndEnc · tm e f) (execFwrite g payload s) := by
  simp only [execFwrite, State.afterEvent_fifo]
  cases s.fifo? g.toNat with
  | none => rfl
  | some q =>
    dsimp only
    split
    · cases q.put (payload.map payloadByte) with
      | none => rfl
      | some r => rfl
    · rfl

theorem execFread_afterEvent (g : Byte) (maxLen : Half) :
    execFread g maxLen (s.afterEvent tm e f) =
      mapNext (State.withClockAndEnc · tm e f) (execFread g maxLen s) := by
  simp only [execFread, State.afterEvent_fifo]
  cases s.fifo? g.toNat with
  | none => rfl
  | some q =>
    dsimp only
    cases q.take maxLen.toNat with
    | none => rfl
    | some r => rfl

theorem execFavail_afterEvent (g : Byte) :
    execFavail g (s.afterEvent tm e f) = mapNext (State.withClockAndEnc · tm e f) (execFavail g s) := by
  simp only [execFavail, State.afterEvent_fifo]
  cases s.fifo? g.toNat with
  | none => rfl
  | some q => rfl

theorem execFfree_afterEvent (g : Byte) :
    execFfree g (s.afterEvent tm e f) = mapNext (State.withClockAndEnc · tm e f) (execFfree g s) := by
  simp only [execFfree, State.afterEvent_fifo]
  cases s.fifo? g.toNat with
  | none => rfl
  | some q => rfl

/-- ESYNC of another encoder, at the same time: the sync reads and writes its own encoder and reads the time. -/
theorem execEsync_afterEvent (j : Byte) (hj : j.toNat ≠ e) :
    execEsync j (s.afterEvent s.time e f) = mapNext (State.withClockAndEnc · s.time e f) (execEsync j s) := by
  have hset : ∀ n, (s.afterEvent s.time e f).setEnc j.toNat n = (s.setEnc j.toNat n).afterEvent s.time e f := by
    intro n
    rw [← State.afterEvent_setEnc, encChange_ne f n hj]
  simp only [execEsync, State.afterEvent_enc, State.afterEvent_time, hset]
  cases s.enc? j.toNat with
  | none => rfl
  | some n =>
    simp only [Option.map_some, encChange_ne f n hj]
    cases n.rate s.time with
    | none => rfl
    | some r => rfl

theorem execPupdate_afterEvent (p : Byte) (target actual dt : Word) :
    execPupdate p target actual dt (s.afterEvent tm e f) =
      mapNext (State.withClockAndEnc · tm e f) (execPupdate p target actual dt s) := by
  simp only [execPupdate, State.afterEvent_pidResult, State.afterEvent_pidUpdate]
  cases axisOf p with
  | none => rfl
  | some x =>
    dsimp only
    split <;> rfl

/-- The cascade is three updates and a flag, each of which goes through the event. -/
theorem execCupdate_afterEvent (vactual lactual ractual dt : Word) :
    execCupdate vactual lactual ractual dt (s.afterEvent tm e f) =
      mapNext (State.withClockAndEnc · tm e f) (execCupdate vactual lactual ractual dt s) := by
  simp only [execCupdate, State.afterEvent_vtarget, State.afterEvent_slip, State.afterEvent_settings,
    State.afterEvent_pidResult, State.afterEvent_pidUpdate, State.afterEvent_flagStatus]
  split <;> rfl

/-- TPOLL at the same time: of what an event changes it reads the time alone. -/
theorem execTpoll_afterEvent :
    execTpoll (s.afterEvent s.time e f) = mapNext (State.withClockAndEnc · s.time e f) (execTpoll s) := by
  by_cases hidle : s.sched.phase = .idle
  · by_cases hdue : s.time = s.sched.lastMs
    · rw [execTpoll_of_noTick (s.afterEvent s.time e f) hidle hdue, execTpoll_of_noTick s hidle hdue]
      rfl
    · rw [execTpoll_of_tick (s.afterEvent s.time e f) hidle hdue, execTpoll_of_tick s hidle hdue]
      rfl
  · rw [execTpoll_of_busy (s.afterEvent s.time e f) hidle, execTpoll_of_busy s hidle]
    rfl

theorem execTnext_afterEvent :
    execTnext (s.afterEvent tm e f) = mapNext (State.withClockAndEnc · tm e f) (execTnext s) := rfl

theorem execCrx_afterEvent (c b : Byte) :
    execCrx c b (s.afterEvent tm e f) = mapNext (State.withClockAndEnc · tm e f) (execCrx c b s) := by
  simp only [execCrx, State.afterEvent_transport, State.afterEvent_settings]
  cases s.transport? c.toNat with
  | none => rfl
  | some t =>
    dsimp only
    split <;> rfl

theorem execCsend_afterEvent (c code : Byte) (value : Word) :
    execCsend c code value (s.afterEvent tm e f) =
      mapNext (State.withClockAndEnc · tm e f) (execCsend c code value s) := by
  simp only [execCsend, State.afterEvent_transport, State.afterEvent_settings]
  cases s.transport? c.toNat with
  | none => rfl
  | some t =>
    dsimp only
    split
    · cases t.emit s.settings.eol false (frame code value) with
      | none => rfl
      | some r => rfl
    · rfl

theorem execCui_afterEvent (c ch : Byte) :
    execCui c ch (s.afterEvent tm e f) = mapNext (State.withClockAndEnc · tm e f) (execCui c ch s) := by
  simp only [execCui, State.afterEvent_transport, State.afterEvent_settings]
  cases s.transport? c.toNat with
  | none => rfl
  | some t =>
    dsimp only
    split
    · cases t.emit s.settings.eol true [ch] with
      | none => rfl
      | some r => rfl
    · rfl

end

/-- Every operation runs alike before and after an event that leaves PPR, but for two: ESYNC reads the time and its
encoder, TPOLL reads the time. -/
theorem exec_afterEvent (i : Instr) (s : State) {tm : Word} {e : Nat} {f : Enc → Enc} (hf : LeavesPpr f)
    (hsync : ∀ e', i = .esync e' → e'.toNat ≠ e ∧ tm = s.time) (hpoll : i = .tpoll → tm = s.time) :
    exec i (s.afterEvent tm e f) = mapNext (State.withClockAndEnc · tm e f) (exec i s) := by
  cases i with
  | cfgrd reg => exact execCfgrd_afterEvent s tm e f hf reg
  | cfgwr reg value => exact execCfgwr_afterEvent s tm e f hf reg value
  | fpush g b => exact execFpush_afterEvent s tm e f g b
  | fpop g => exact execFpop_afterEvent s tm e f g
  | fwrite g payload => exact execFwrite_afterEvent s tm e f g payload
  | fread g maxLen => exact execFread_afterEvent s tm e f g maxLen
  | favail g => exact execFavail_afterEvent s tm e f g
  | ffree g => exact execFfree_afterEvent s tm e f g
  | esync j =>
    obtain ⟨hj, rfl⟩ := hsync j rfl
    exact execEsync_afterEvent s e f j hj
  | pupdate p target actual dt => exact execPupdate_afterEvent s tm e f p target actual dt
  | cupdate vactual lactual ractual dt => exact execCupdate_afterEvent s tm e f vactual lactual ractual dt
  | tpoll =>
    obtain rfl := hpoll rfl
    exact execTpoll_afterEvent s e f
  | tnext => exact execTnext_afterEvent s tm e f
  | crx c b => exact execCrx_afterEvent s tm e f c b
  | csend c code value => exact execCsend_afterEvent s tm e f c code value
  | cui c ch => exact execCui_afterEvent s tm e f c ch

/-- The strobe advances the time and leaves the encoders (R231). -/
theorem eventMstick_eq_afterEvent (s : State) : eventMstick s = s.afterEvent (s.time + 1) 0 id := by
  simp only [eventMstick, State.afterEvent, State.withClockAndEnc, List.modify_id]

/-- An edge of an encoder that exists changes that encoder and leaves the time (R171, R172). -/
theorem eventEdge_eq_afterEvent (s : State) (e : Nat) (sense : Sense) (he : e < s.encs.length) :
    eventEdge e sense s = .next (s.afterEvent s.time e (Enc.edge · s.time sense)) := by
  have hn : s.enc? e = some s.encs[e] := List.getElem?_eq_getElem he
  have hset : s.encs.set e (s.encs[e].edge s.time sense) = s.encs.modify e (Enc.edge · s.time sense) :=
    (List.modify_eq_set_get (Enc.edge · s.time sense) he).symm
  simp only [eventEdge, hn, State.setEnc, State.afterEvent, State.withClockAndEnc, hset]

/-- No operation writes the time counter (R26). -/
theorem exec_time {i : Instr} {s t : State} (h : exec i s = .next t) : t.time = s.time :=
  (stateIsOwned i s t h).1

/-- Settles O57: the strobe is an event that changes no encoder, and ESYNC and TPOLL alone read the time. -/
theorem mstickCommutes : Obligations.MstickCommutes := by
  intro i s t hsync hpoll ht
  refine ⟨t.withClockAndEnc (s.time + 1) 0 id, ?_, rfl, ?_⟩
  · rw [eventMstick_eq_afterEvent, exec_afterEvent i s leavesPpr_id, ht]
    · rfl
    · rintro e' rfl; exact absurd rfl hsync
    · rintro rfl; exact absurd rfl hpoll
  · rw [eventMstick_eq_afterEvent, exec_time ht]
    rfl

/-- Edges of two encoders touch two entries of the list of encoders, and neither moves the time. -/
theorem edges_afterEvent_comm (s : State) {e e' : Nat} (tm : Word) (f f' : Enc → Enc) (h : e ≠ e') :
    (s.afterEvent tm e f).afterEvent tm e' f' = (s.afterEvent tm e' f').afterEvent tm e f := by
  simp only [State.afterEvent, State.withClockAndEnc, List.modify_modify_ne f f' s.encs h]

/-- Settles O58: an edge is an event that leaves the time, and ESYNC of its encoder alone reads what it changes. -/
theorem edgesCommute : Obligations.EdgesCommute := by
  refine ⟨?_, ?_⟩
  · intro i s t e sense hsync he ht
    have hlen : t.encs.length = s.encs.length := congrArg Params.nenc (exec_answered ht).sameSetup.params
    refine ⟨_, t.withClockAndEnc s.time e (Enc.edge · s.time sense), eventEdge_eq_afterEvent s e sense he,
      ?_, rfl, ?_⟩
    · rw [exec_afterEvent i s (leavesPpr_edge s.time sense) (fun e' h => ⟨hsync e' h, rfl⟩) (fun _ => rfl), ht]
      rfl
    · rw [eventEdge_eq_afterEvent t e sense (hlen ▸ he), exec_time ht]
      rfl
  · intro s e e' sense sense' hne he he'
    refine ⟨_, _, _, eventEdge_eq_afterEvent s e sense he, eventEdge_eq_afterEvent s e' sense' he',
      eventEdge_eq_afterEvent _ e' sense' (by simpa using he'), ?_⟩
    rw [eventEdge_eq_afterEvent _ e sense (by simpa using he)]
    exact congrArg _ (edges_afterEvent_comm s s.time _ _ hne).symm

end Sys2Proof.Machine

/-! The statements of 30_encoding.md. A header that spells a row is the header of that row's operation, with zero
in every must-be-zero field (`Op.exists_mkHeader_of_spells`), and a packet decodes to an operation exactly when it
spells its row with the number of words the row requires (`decode_eq_instr_iff`); the round trips and the word counts
are read off these. -/
namespace Sys2Proof

/-! ### The packet of an instruction (R81 to R86) -/

/-- The packet of every well-formed instruction spells its row, with the number of words the row requires. -/
theorem encode_spells_row (i : Instr) : Laws.EncodesItsRow.Statement i := by
  cases i with
  | cfgrd reg => exact Laws.EncodesItsRow.cfgrd reg
  | cfgwr reg value => exact Laws.EncodesItsRow.cfgwr reg value
  | fpush f b => exact Laws.EncodesItsRow.fpush f b
  | fpop f => exact Laws.EncodesItsRow.fpop f
  | fwrite f payload => exact Laws.EncodesItsRow.fwrite f payload
  | fread f maxLen => exact Laws.EncodesItsRow.fread f maxLen
  | favail f => exact Laws.EncodesItsRow.favail f
  | ffree f => exact Laws.EncodesItsRow.ffree f
  | esync e => exact Laws.EncodesItsRow.esync e
  | pupdate p target actual dt => exact Laws.EncodesItsRow.pupdate p target actual dt
  | cupdate vactual lactual ractual dt => exact Laws.EncodesItsRow.cupdate vactual lactual ractual dt
  | tpoll => exact Laws.EncodesItsRow.tpoll
  | tnext => exact Laws.EncodesItsRow.tnext
  | crx c b => exact Laws.EncodesItsRow.crx c b
  | csend c code value => exact Laws.EncodesItsRow.csend c code value
  | cui c ch => exact Laws.EncodesItsRow.cui c ch

/-- The operands read from a packet are the ones the encoder put there (R83). -/
theorem assemble_encode (i : Instr) : assemble i.op (encode i).header (encode i).operands = i := by
  cases i <;> simp [Instr.op, encode, assemble, instField_mkHeader, immField_mkHeader, byteField_mkHeader]

/-- The number of operand words of every packet (R86). -/
theorem encode_operands_length (i : Instr) : (encode i).operands.length = i.operandWords := by
  cases i <;> rfl

/-! ### The header of a row (R81, R84) -/

@[simp] theorem Op.row_op (op : Op) : op.row.op = op := by cases op <;> rfl

/-- Every row is the row of its operation. -/
theorem eq_row_of_mem_rows : ∀ r ∈ rows, r = r.op.row := by decide

/-- Every row fixes the whole opcode. -/
theorem Op.row_opcode (op : Op) : opField op.row.mask = BitVec.allOnes 8 ∧ opField op.row.pat = op.code := by
  cases op <;> decide

/-- Beside the opcode a row asks for nothing but zeros. -/
theorem Op.row_zeros (op : Op) : instField op.row.pat = 0 ∧ immField op.row.pat = 0 := by
  cases op <;> decide

/-- A header that spells a row has the row's opcode, and zero in the must-be-zero bits of the other two fields. -/
theorem Op.exists_mkHeader_of_spells {op : Op} {h : Word} (hs : op.row.spells h = true) :
    ∃ inst imm, h = mkHeader op inst imm ∧ inst &&& instField op.row.mask = 0 ∧
      imm &&& immField op.row.mask = 0 := by
  obtain ⟨hmask, hpat⟩ := op.row_opcode
  obtain ⟨hinst, himm⟩ := op.row_zeros
  rw [Row.spells, beq_iff_eq, header_eq op.row.mask, header_eq op.row.pat, header_eq h, and_append] at hs
  obtain ⟨hop, hi, hm⟩ := append_inj hs
  rw [hmask, hpat, BitVec.and_allOnes] at hop
  refine ⟨instField h, immField h, ?_, hi.trans hinst, hm.trans himm⟩
  rw [mkHeader, ← hop]
  exact header_eq h

theorem opField_of_spells {op : Op} {h : Word} (hs : op.row.spells h = true) : opField h = op.code := by
  obtain ⟨inst, imm, rfl, -, -⟩ := Op.exists_mkHeader_of_spells hs
  exact opField_mkHeader op inst imm

/-- A header is found at the one row it spells (R84). -/
theorem findRow_eq_some_iff {h : Word} {r : Row} :
    findRow h = some r ↔ ∃ op : Op, r = op.row ∧ op.row.spells h = true := by
  constructor
  · intro hr
    have hrow := eq_row_of_mem_rows r (List.mem_of_find?_eq_some hr)
    refine ⟨r.op, hrow, ?_⟩
    rw [← hrow]
    exact List.find?_some (p := fun r => Row.spells r h) hr
  · rintro ⟨op, rfl, hs⟩
    obtain ⟨inst, imm, rfl, -, -⟩ := Op.exists_mkHeader_of_spells hs
    exact findRow_mkHeader op inst imm hs

/-! ### The decoder (R84, R86, R87) -/

/-- A packet decodes exactly when it spells a row with the number of words the row requires. -/
theorem decode_eq_instr_iff {p : Packet} {i : Instr} :
    decode p = .instr i ↔ ∃ op : Op, op.row.spells p.header = true ∧
      p.operands.length = op.row.form.wordCount p.header ∧ assemble op p.header p.operands = i := by
  constructor
  · intro hd
    unfold decode at hd
    split at hd
    · cases hd
    · next r hr =>
      obtain ⟨op, rfl, hs⟩ := findRow_eq_some_iff.mp hr
      split at hd
      · next hlen =>
        rw [op.row_op] at hd
        exact ⟨op, hs, hlen, Decoded.instr.inj hd⟩
      · cases hd
  · rintro ⟨op, hs, hlen, rfl⟩
    simp only [decode, findRow_eq_some_iff.mpr ⟨op, rfl, hs⟩, if_pos hlen, op.row_op]

/-- A packet that spells a row with another number of words is rejected for that number (R86). -/
theorem decode_eq_wordCount {op : Op} {p : Packet} (hs : op.row.spells p.header = true)
    (hlen : p.operands.length ≠ op.row.form.wordCount p.header) : decode p = .reject .wordCount := by
  simp only [decode, findRow_eq_some_iff.mpr ⟨op, rfl, hs⟩, if_neg hlen]

/-- Settles O1: the packet spells its row, and its operands read back. -/
theorem decodeOfEncode : Obligations.DecodeOfEncode := by
  intro i hi
  obtain ⟨hs, hlen⟩ := encode_spells_row i hi
  exact decode_eq_instr_iff.mpr ⟨i.op, hs, hlen, assemble_encode i⟩

/-! ### A packet that decodes (R86, R87) -/

/-- A field whose bits are all must-be-zero is zero. -/
theorem eq_zero_of_masked {n : Nat} {b : BitVec n} (h : b &&& BitVec.allOnes n = 0) : b = 0 :=
  BitVec.and_allOnes.symm.trans h

/-- An immediate with zero in bits 15:8 is a byte operand (R83). -/
theorem exists_byteImm_of_masked {m : Half} (h : m &&& 0xFF00 = 0) : ∃ b, m = byteImm b := by
  have hmask : ∀ i : Fin 16, 8 ≤ i.val → (0xFF00 : Half).getLsbD i = true := by decide
  refine ⟨m.setWidth 8, BitVec.eq_of_getLsbD_eq fun i hi => ?_⟩
  rw [byteImm, BitVec.getLsbD_setWidth, BitVec.getLsbD_setWidth]
  by_cases hlow : i < 8
  · simp [hi, hlow]
  · have hbit := congrArg (·.getLsbD i) h
    rw [BitVec.getLsbD_and, hmask ⟨i, hi⟩ (not_lt.mp hlow), Bool.and_true] at hbit
    simp [hlow, hbit]

/-- The encoder puts back the operands that were read from a packet with its must-be-zero bits zero and its words
counted. -/
theorem encode_assemble (op : Op) (inst : Byte) (imm : Half) (ws : List Word)
    (hinst : inst &&& instField op.row.mask = 0) (himm : imm &&& immField op.row.mask = 0)
    (hlen : ws.length = op.row.form.wordCount (mkHeader op inst imm)) :
    encode (assemble op (mkHeader op inst imm) ws) = ⟨mkHeader op inst imm, ws⟩ := by
  cases op with
  | cfgrd =>
    obtain rfl := eq_zero_of_masked hinst
    obtain rfl := List.length_eq_zero_iff.mp hlen
    simp only [assemble, encode, immField_mkHeader]
  | cfgwr =>
    obtain rfl := eq_zero_of_masked hinst
    obtain ⟨value, rfl⟩ := List.length_eq_one_iff.mp hlen
    simp only [assemble, encode, immField_mkHeader]
    rfl
  | fwrite =>
    have hcount : ws.length = imm.toNat := by
      simpa only [Op.row, Form.wordCount, immField_mkHeader] using hlen
    simp only [assemble, encode, instField_mkHeader, hcount, BitVec.ofNat_toNat, BitVec.setWidth_eq]
  | fread =>
    obtain rfl := List.length_eq_zero_iff.mp hlen
    simp only [assemble, encode, instField_mkHeader, immField_mkHeader]
  | fpop | favail | ffree | esync =>
    obtain rfl := eq_zero_of_masked himm
    obtain rfl := List.length_eq_zero_iff.mp hlen
    simp only [assemble, encode, instField_mkHeader]
  | pupdate =>
    obtain rfl := eq_zero_of_masked himm
    obtain ⟨target, actual, dt, rfl⟩ := List.length_eq_three.mp hlen
    simp only [assemble, encode, instField_mkHeader]
    rfl
  | cupdate =>
    obtain rfl := eq_zero_of_masked hinst
    obtain rfl := eq_zero_of_masked himm
    obtain ⟨vactual, lactual, ractual, dt, rfl⟩ := List.length_eq_four.mp hlen
    rfl
  | tpoll | tnext =>
    obtain rfl := eq_zero_of_masked hinst
    obtain rfl := eq_zero_of_masked himm
    obtain rfl := List.length_eq_zero_iff.mp hlen
    rfl
  | csend =>
    obtain ⟨code, rfl⟩ := exists_byteImm_of_masked himm
    obtain ⟨value, rfl⟩ := List.length_eq_one_iff.mp hlen
    simp only [assemble, encode, instField_mkHeader, byteField_mkHeader]
    rfl
  | fpush | crx | cui =>
    obtain ⟨b, rfl⟩ := exists_byteImm_of_masked himm
    obtain rfl := List.length_eq_zero_iff.mp hlen
    simp only [assemble, encode, instField_mkHeader, byteField_mkHeader]

/-- What is read from a packet with the words its row requires is well formed: the 16-bit count of FWRITE bounds its
payload (R83). -/
theorem assemble_wf (op : Op) (h : Word) (ws : List Word) (hlen : ws.length = op.row.form.wordCount h) :
    (assemble op h ws).wf = true := by
  cases op with
  | fwrite => exact decide_eq_true (lt_of_eq_of_lt hlen (immField h).isLt)
  | _ => rfl

/-- Settles O2: the packet is the header and the words its instruction was read from. -/
theorem encodeOfDecode : Obligations.EncodeOfDecode := by
  rintro ⟨h, ws⟩ i hd
  obtain ⟨op, hs, hlen, rfl⟩ := decode_eq_instr_iff.mp hd
  refine ⟨assemble_wf op h ws hlen, ?_⟩
  obtain ⟨inst, imm, rfl, hinst, himm⟩ := Op.exists_mkHeader_of_spells hs
  exact encode_assemble op inst imm ws hinst himm hlen

/-! ### Another number of words (R86) -/

/-- Settles O4: the header spells its row, which requires the operation's number of words; the decoder rejects every
other number, and the response echoes the opcode of the header. -/
theorem wrongWordCountRaisesBadOperand : Obligations.WrongWordCountRaisesBadOperand := by
  intro s i ws hi
  obtain ⟨hs, hlen⟩ := encode_spells_row i hi
  refine ⟨encode_operands_length i, fun hne => ?_⟩
  have hcount : ws.length ≠ i.op.row.form.wordCount (encode i).header := by
    rwa [← hlen, encode_operands_length]
  rw [Machine.runCommand_reject s ⟨(encode i).header, ws⟩ .wordCount (decode_eq_wordCount hs hcount),
    opField_of_spells hs]
  rfl

/-! ### Words written out (R81, R84) -/

/-- A packet written out word for word decodes to the instruction whose packet it is. -/
theorem decode_of_encode_eq {p : Packet} {i : Instr} (hi : i.wf = true) (hp : encode i = p) : decode p = .instr i :=
  hp ▸ decodeOfEncode i hi

/-- Settles O5: the legal packets are their operations' own, and the others break one must-be-zero field, one opcode
or one word count each. -/
theorem sampleWordsDecode : Obligations.SampleWordsDecode := by
  refine ⟨?_, ?_, ?_, ?_, ?_, ?_, ?_, ?_, ?_, by decide, by decide, by decide, by decide⟩
  all_goals exact decode_of_encode_eq (by decide) (by decide)

end Sys2Proof

/-! CRXDRAIN (R91) on a frame. A drain feeds the parser the bytes of the receive FIFO in queue order
(`crxDrain_eq_feedAll`), and a frame makes the parser emit its command with the last byte and nothing before
(`Codec.feedAll_frame`). -/
namespace Sys2Proof.Machine

/-! ### A byte string fed to the parser (R141, R154) -/

/-- Feed a byte string to the parser, byte by byte; what each byte emitted, in order. -/
def Codec.feedAll (k : Codec) (ovf : ParseOvf) : List Byte → Option (Codec × List (Option (Byte × Word)))
  | [] => some (k, [])
  | b :: bs =>
    match k.feed ovf b with
    | none => none
    | some (k', o) => (k'.feedAll ovf bs).map fun r => (r.1, o :: r.2)

section
variable {k k1 k2 : Codec} {ovf : ParseOvf}

theorem Codec.feedAll_cons {b : Byte} {bs : List Byte} {o : Option (Byte × Word)}
    {os : List (Option (Byte × Word))} (h : k.feed ovf b = some (k1, o))
    (hs : k1.feedAll ovf bs = some (k2, os)) : k.feedAll ovf (b :: bs) = some (k2, o :: os) := by
  simp only [Codec.feedAll, h, hs, Option.map_some]

theorem Codec.feedAll_cons_inv {b : Byte} {bs : List Byte} {out : List (Option (Byte × Word))}
    (h : k.feedAll ovf (b :: bs) = some (k2, out)) :
    ∃ k1 o os, k.feed ovf b = some (k1, o) ∧ k1.feedAll ovf bs = some (k2, os) ∧ out = o :: os := by
  simp only [Codec.feedAll] at h
  split at h
  · cases h
  · next k1 o hf =>
    obtain ⟨⟨k3, os⟩, hs, heq⟩ := Option.map_eq_some_iff.mp h
    cases heq
    exact ⟨k1, o, os, hf, hs, rfl⟩

theorem Codec.feedAll_append {bs cs : List Byte} {os ps : List (Option (Byte × Word))}
    (h1 : k.feedAll ovf bs = some (k1, os)) (h2 : k1.feedAll ovf cs = some (k2, ps)) :
    k.feedAll ovf (bs ++ cs) = some (k2, os ++ ps) := by
  induction bs generalizing k os with
  | nil => cases h1; exact h2
  | cons b bs ih =>
    obtain ⟨k3, o, os', hf, hs, rfl⟩ := Codec.feedAll_cons_inv h1
    exact Codec.feedAll_cons hf (ih hs)

/-- Digits that a started token has room for extend it and emit nothing (R141, R144). -/
theorem Codec.feedAll_digits (ds : List Byte) (h : k.wf = true) (hd : ∀ d ∈ ds, isDigit d = true)
    (hstart : 1 ≤ k.len) (hroom : k.len + ds.length ≤ 11) :
    ∃ k', k.feedAll ovf ds = some (k', List.replicate ds.length none) ∧ k'.wf = true ∧
      k'.token = k.token ++ ds := by
  induction ds generalizing k with
  | nil => exact ⟨k, rfl, h, (List.append_nil _).symm⟩
  | cons d ds ih =>
    rw [List.forall_mem_cons] at hd
    rw [List.length_cons] at hroom
    obtain ⟨tok, hf, hw, htok, -⟩ := (Codec.feed_digit k ovf d h hd.1).1 ⟨hstart, by omega⟩
    obtain ⟨k', hf', hw', htok'⟩ := ih hw hd.2 (Nat.le_add_left 1 k.len) (by dsimp only; omega)
    refine ⟨k', Codec.feedAll_cons hf hf', hw', ?_⟩
    rw [htok', htok, List.append_assoc, List.singleton_append]

/-- A letter, at most ten digits and a comma emit one command, with the comma, from any parser state (R141, R143). -/
theorem Codec.feedAll_command {code : Byte} {ds : List Byte} (h : k.wf = true) (hc : isLetter code = true)
    (hd : ∀ d ∈ ds, isDigit d = true) (hlen : ds.length ≤ 10) :
    ∃ k', k.feedAll ovf (code :: (ds ++ [comma])) = some (k',
      List.replicate (ds.length + 1) none ++ [some (code, if ds = [] then 0 else parseUint ovf ds)]) := by
  obtain ⟨tok, hf, hw, htok, -⟩ := Codec.feed_letter k ovf code h hc
  obtain ⟨k1, hf1, hw1, htok1⟩ := Codec.feedAll_digits (ovf := ovf) ds hw hd le_rfl (by dsimp only; omega)
  rw [htok, List.singleton_append] at htok1
  have hf2 := Codec.feed_comma k1 ovf hw1
  rw [htok1] at hf2
  exact ⟨k1.idle, Codec.feedAll_cons hf (Codec.feedAll_append hf1 (Codec.feedAll_cons hf2 rfl))⟩

/-- A frame emits its own command, with its last byte, for both settings of `PARSE_OVF` (R149, R154). -/
theorem Codec.feedAll_frame {code : Byte} (value : Word) (h : k.wf = true) (hc : isLetter code = true) :
    ∃ k', k.feedAll ovf (frame code value) = some (k',
      List.replicate ((if value = 0 then [] else dec value).length + 1) none ++ [some (code, value)]) := by
  obtain ⟨-, hdigits, hpos, hlen⟩ := dec_spec value
  by_cases hv : value = 0
  · subst hv
    exact Codec.feedAll_command h hc (ds := []) (by simp) (by simp)
  · have hne : dec value ≠ [] := List.ne_nil_of_length_pos hpos
    obtain ⟨k', hf⟩ := Codec.feedAll_command (ovf := ovf) h hc hdigits hlen
    rw [if_neg hne, parseUint_dec] at hf
    rw [frame, if_neg hv]
    exact ⟨k', hf⟩

end

/-! ### The answers of FPOP and CRX (R82, R85) -/

theorem responseRes_respHeader (op : Op) (status : Byte) (res : Half) (ws : List Word) :
    responseRes ⟨respHeader op.code status res, ws⟩ = res := immField_mkHeader op status res

/-- An answer that carries a byte has bit 8 set. -/
theorem byteRes_flag (b : Byte) : (0x0100 ||| byteImm b : Half).getLsbD 8 = true := by
  rw [BitVec.getLsbD_or]
  rfl

/-- An answer that carries a byte has it in bits 7:0. -/
theorem byteField_respHeader_byteRes (op : Op) (status b : Byte) :
    byteField (respHeader op.code status (0x0100 ||| byteImm b)) = b := by
  have hlow : ∀ i : Fin 8, (0x0100 : Half).getLsbD i = false := by decide
  apply BitVec.eq_of_getLsbD_eq
  intro i hi
  have hi16 : i < 16 := by omega
  simp only [byteField, respHeader, byteImm, BitVec.getLsbD_extractLsb', BitVec.getLsbD_append, BitVec.getLsbD_or,
    BitVec.getLsbD_setWidth, Nat.zero_add, hi, hi16, hlow ⟨i, hi⟩, decide_true, Bool.true_and, Bool.false_or, if_true]

theorem emittedCommand_of_none (op : Op) : emittedCommand ⟨respHeader op.code 0 0, []⟩ = [] := by
  rw [emittedCommand, responseRes_respHeader]
  rfl

theorem emittedCommand_of_command (op : Op) (code : Byte) (value : Word) :
    emittedCommand ⟨respHeader op.code 0 (0x0100 ||| byteImm code), [value]⟩ = [(code, value)] := by
  rw [emittedCommand, responseRes_respHeader, if_pos (byteRes_flag code)]
  simp only [byteField_respHeader_byteRes]

section
variable {s : State} {c : Byte} {t : Transport}

/-- The receive FIFO of a transport is replaced, and nothing else of it. -/
theorem State.transport_setFifo_rx (ht : s.transport? c.toNat = some t) (q : Fifo) :
    (s.setFifo (2 * c.toNat) q).transport? c.toNat = some { t with rx := q } := by
  have hhalf : 2 * c.toNat / 2 = c.toNat := Nat.mul_div_cancel_left _ Nat.two_pos
  have heven : 2 * c.toNat % 2 = 0 := Nat.mul_mod_right 2 _
  rw [State.transport?] at ht ⊢
  simp only [State.setFifo_transports, List.getElem?_modify, hhalf, heven, if_true, ht]
  rfl

/-- CRX feeds the parser one byte and hands over what it emits (R141, R85). -/
theorem exec_crx_of_feed {b : Byte} {k : Codec} {o : Option (Byte × Word)} (ht : s.transport? c.toNat = some t)
    (hf : t.codec.feed s.settings.parseOvf b = some (k, o)) :
    ∃ u, exec (.crx c b) s = .next u ∧ u.transport? c.toNat = some { t with codec := k } ∧
      u.settings = s.settings ∧ u.response.toList.flatMap emittedCommand = o.toList := by
  have hset : (s.setTransport c.toNat { t with codec := k }).transport? c.toNat = some { t with codec := k } := by
    rw [State.transport_setTransport, if_pos rfl, ht]
    rfl
  cases o with
  | none =>
    refine ⟨(s.setTransport c.toNat { t with codec := k }).respond .crx 0 [], ?_, hset, rfl, ?_⟩
    · simp only [exec, execCrx, ht, hf]
    · exact (List.flatMap_singleton ..).trans (emittedCommand_of_none .crx)
  | some cv =>
    refine ⟨(s.setTransport c.toNat { t with codec := k }).respond .crx (0x0100 ||| byteImm cv.1) [cv.2], ?_, hset,
      rfl, ?_⟩
    · simp only [exec, execCrx, ht, hf]
    · exact (List.flatMap_singleton ..).trans (emittedCommand_of_command .crx cv.1 cv.2)

/-! ### CRXDRAIN (R91) -/

/-- The number of the receive FIFO `2c` fits its field (R25). -/
theorem toNat_two_mul (hc : c.toNat < 128) : (2 * c).toNat = 2 * c.toNat := by
  rw [BitVec.toNat_mul]
  exact Nat.mod_eq_of_lt (by show 2 * c.toNat < 256; omega)

/-- The drain ends at an FPOP that answers with no byte. -/
theorem crxDrain_of_no_byte {u : State} {r : Response} (k : Nat) (hc : c.toNat < 128)
    (hpop : exec (.fpop (2 * c)) s = .next u) (hr : u.response = some r) (hflag : (responseRes r).getLsbD 8 = false) :
    crxDrain c (k + 1) s = some ([], u) := by
  simp only [crxDrain, if_neg (not_le.mpr hc), hpop, hr, hflag, Bool.false_eq_true, if_false]

/-- The drain goes on from a CRX of the byte an FPOP answers with. -/
theorem crxDrain_of_byte {v w u : State} {r : Response} {k : Nat} {cmds : List (Byte × Word)} (hc : c.toNat < 128)
    (hpop : exec (.fpop (2 * c)) s = .next v) (hr : v.response = some r) (hflag : (responseRes r).getLsbD 8 = true)
    (hcrx : exec (.crx c (byteField r.header)) v = .next w) (hrest : crxDrain c k w = some (cmds, u)) :
    crxDrain c (k + 1) s = some (w.response.toList.flatMap emittedCommand ++ cmds, u) := by
  simp only [crxDrain, if_neg (not_le.mpr hc), hpop, hr, hflag, if_true, hcrx, hrest]

/-- Where the receive FIFO is empty, the drain pops nothing and ends. -/
theorem crxDrain_of_empty (k : Nat) (hc : c.toNat < 128) (ht : s.transport? c.toNat = some t)
    (hw : t.rx.wf = true) (hq : t.rx.queue = []) :
    ∃ u q, crxDrain c (k + 1) s = some ([], u) ∧ u.transport? c.toNat = some { t with rx := q } ∧
      q.queue = [] := by
  obtain ⟨hrx, -, -⟩ := State.transport_parts s c.toNat t ht
  obtain ⟨q, hpop, -, -, -, -, -, -, hq'⟩ := Fifo.pop_spec t.rx hw
  rw [hq] at hpop hq'
  have hfpop : exec (.fpop (2 * c)) s = .next ((s.setFifo (2 * c.toNat) q).respond .fpop 0 []) := by
    simp only [exec, execFpop, toNat_two_mul hc, hrx, hpop, List.head?_nil]
  exact ⟨_, q, crxDrain_of_no_byte k hc hfpop rfl rfl, State.transport_setFifo_rx ht q, hq'⟩

/-- Where a byte is first in the receive FIFO, the drain takes it, feeds it to the parser, and goes on from there. -/
theorem crxDrain_of_cons {b : Byte} {bs : List Byte} {k' : Codec} {o : Option (Byte × Word)} (hc : c.toNat < 128)
    (ht : s.transport? c.toNat = some t) (hw : t.rx.wf = true) (hq : t.rx.queue = b :: bs)
    (hf : t.codec.feed s.settings.parseOvf b = some (k', o)) :
    ∃ v q, v.transport? c.toNat = some { t with rx := q, codec := k' } ∧ q.wf = true ∧ q.queue = bs ∧
      v.settings = s.settings ∧
      ∀ k cmds u, crxDrain c k v = some (cmds, u) → crxDrain c (k + 1) s = some (o.toList ++ cmds, u) := by
  obtain ⟨hrx, -, -⟩ := State.transport_parts s c.toNat t ht
  obtain ⟨q, hpop, hqw, -, -, -, -, -, hq'⟩ := Fifo.pop_spec t.rx hw
  rw [hq] at hpop hq'
  have hfpop : exec (.fpop (2 * c)) s =
      .next ((s.setFifo (2 * c.toNat) q).respond .fpop (0x0100 ||| byteImm b) []) := by
    rw [← toNat_two_mul hc] at hrx ⊢
    exact exec_fpop_of_pop hrx hpop
  obtain ⟨v, hcrx, hv, hset, hemit⟩ := exec_crx_of_feed
    (s := (s.setFifo (2 * c.toNat) q).respond .fpop (0x0100 ||| byteImm b) [])
    (State.transport_setFifo_rx ht q) hf
  refine ⟨v, q, hv, hqw, hq', hset, fun k cmds u hk => ?_⟩
  rw [← hemit]
  refine crxDrain_of_byte hc hfpop rfl ?_ ?_ hk
  · rw [responseRes_respHeader]
    exact byteRes_flag b
  · rw [byteField_respHeader_byteRes]
    exact hcrx

/-- A drain that may take enough bytes feeds the parser the whole receive FIFO, collects what it emits, and leaves the
FIFO empty (R91, R119). -/
theorem crxDrain_eq_feedAll (bs : List Byte) {k : Nat} {k' : Codec} {os : List (Option (Byte × Word))}
    (hc : c.toNat < 128) (ht : s.transport? c.toNat = some t) (hw : t.rx.wf = true) (hq : t.rx.queue = bs)
    (hk : bs.length < k) (hf : t.codec.feedAll s.settings.parseOvf bs = some (k', os)) :
    ∃ u q, crxDrain c k s = some (os.reduceOption, u) ∧
      u.transport? c.toNat = some { t with rx := q, codec := k' } ∧ q.queue = [] := by
  induction bs generalizing s t k os with
  | nil =>
    obtain ⟨n, rfl⟩ := Nat.exists_eq_add_of_lt hk
    cases hf
    exact crxDrain_of_empty _ hc ht hw hq
  | cons b bs ih =>
    obtain ⟨n, rfl⟩ := Nat.exists_eq_add_of_lt hk
    obtain ⟨k1, o, os', hfeed, hrest, rfl⟩ := Codec.feedAll_cons_inv hf
    obtain ⟨v, q1, hv, hw1, hq1, hset, hdrain⟩ := crxDrain_of_cons hc ht hw hq hfeed
    obtain ⟨u, q, hu, hut, hqe⟩ := ih hv hw1 hq1 (k := (b :: bs).length + n)
      (Nat.lt_add_right n (Nat.lt_succ_self _)) (hset ▸ hrest)
    refine ⟨u, q, ?_, hut, hqe⟩
    rw [hdrain _ _ _ hu]
    cases o <;> rfl

end

/-- A legal machine has at most eight transports (R6). -/
theorem State.Inv.transports_le {s : State} (h : s.Inv) : s.transports.length ≤ 8 := by
  have hp := h.params
  simp only [Params.wf, State.params, Bool.and_eq_true, decide_eq_true_eq, List.length_map] at hp
  exact hp.1.1.1.2

/-- Settles O30: the drain feeds the parser the frame, and the frame emits its command alone. -/
theorem frameSurvivesTheReceiveFifo : Obligations.FrameSurvivesTheReceiveFifo := by
  intro s c code value q k hs hq hcode hqueue hk
  have hexists := (State.fifo_isSome s _).mp (Option.isSome_iff_exists.mpr ⟨q, hq⟩)
  have hcount := hs.transports_le
  rw [State.nfifo] at hexists
  have hc : c.toNat < s.transports.length := by omega
  have ht : s.transport? c.toNat = some s.transports[c.toNat] := List.getElem?_eq_getElem hc
  obtain ⟨hrx, -, -⟩ := State.transport_parts s c.toNat _ ht
  obtain rfl := Option.some.inj (hrx.symm.trans hq)
  obtain ⟨hrxw, -, hcodec⟩ := (Transport.wf_iff _).mp (State.transport_wf s hs.transports _ _ ht)
  obtain ⟨k', hfeed⟩ := Codec.feedAll_frame (ovf := s.settings.parseOvf) value hcodec hcode
  obtain ⟨u, q', hdrain, hu, hempty⟩ := crxDrain_eq_feedAll (frame code value) (by omega) ht hrxw hqueue
    (by rwa [← Fifo.queue_length, hqueue] at hk) hfeed
  refine ⟨u, ?_, ?_⟩
  · rw [hdrain, List.reduceOption_append, List.reduceOption_replicate_none]
    rfl
  · rw [(State.transport_parts u c.toNat _ hu).1, Option.map_some, hempty]

end Sys2Proof.Machine

/-! The statements of 40_fifo.md. What `exec` answers for a queue operation is said once for each state of the queue it
meets; the statements of the six operations are read off that and the laws of one FIFO. A burst is a run of single
operations: a put of one byte more is a push before the put of the rest (`Fifo.put_cons`), and a queue that is not empty
is its first byte before the queue a pop leaves (`Fifo.popped_spec`). -/
namespace Sys2Proof.Machine

/-! ### A byte in an immediate and in a word (R82, R83, R85) -/

theorem zero_append_byte (b : Byte) : (0 : Byte) ++ b = byteImm b := by
  rw [BitVec.append_def, byteImm]; simp

/-- The answer of an FPOP that took a byte: `0x100 | byte`. -/
theorem one_append_byte (b : Byte) : (1 : Byte) ++ b = 0x0100 ||| byteImm b := by
  rw [BitVec.append_def, BitVec.setWidth'_eq]; rfl

theorem zero_append_byte_word (b : Byte) : (0 : BitVec 24) ++ b = byteWord b := by
  rw [BitVec.append_def, byteWord]; simp

theorem payloadByte_eq (w : Word) : payloadByte w = w.extractLsb' 0 8 :=
  BitVec.setWidth_eq_extractLsb' (by decide)

/-- A payload word is legal exactly when its bits 31:8 are 0. -/
theorem legalPayload_iff (w : Word) : legalPayload w = true ↔ w.extractLsb' 8 24 = 0 := by
  have hlt := w.isLt
  rw [legalPayload, decide_eq_true_eq, ← BitVec.toNat_inj, BitVec.extractLsb'_toNat, Nat.shiftRight_eq_div_pow]
  show _ ↔ _ = 0
  omega

/-- A payload is checked as a whole. -/
theorem all_legalPayload_iff (payload : List Word) :
    payload.all legalPayload = true ↔ ∀ w ∈ payload, w.extractLsb' 8 24 = 0 := by
  simp only [List.all_eq_true, legalPayload_iff]

/-! ### The instance check common to the six operations (R110) -/

/-- The FIFO instance an operation names, if it is one of the six of 40_fifo.md. -/
def namedFifo : Instr → Option Byte
  | .fpush f _ | .fpop f | .fwrite f _ | .fread f _ | .favail f | .ffree f => some f
  | _ => none

/-- An operation that names an instance from `NFIFO` on raises BadInstance, whatever its other operands. -/
theorem exec_of_no_fifo {s : State} {i : Instr} {f : Byte} (hi : namedFifo i = some f) (hf : s.nfifo ≤ f.toNat) :
    exec i s = .next (s.raise i.op.code .badInstance) := by
  rw [← State.fifo_eq_none] at hf
  cases i with
  | fpush | fpop | fwrite | fread | favail | ffree =>
    cases hi
    simp only [exec, execFpush, execFpop, execFwrite, execFread, execFavail, execFfree, hf, Instr.op]
  | _ => cases hi

/-! ### What an operation answers for an instance that exists (R111 to R116) -/

section
variable {s : State} {f : Byte} {q q' : Fifo}

theorem exec_fpush_of_full (b : Byte) (hq : s.fifo? f.toNat = some q) (hf : q.full = true) :
    exec (.fpush f b) s = .next (s.respond .fpush 0 []) := by
  simp only [exec, execFpush, hq, Fifo.push, hf, if_true, State.setFifo_same _ _ _ hq, Bool.false_eq_true, if_false]

theorem exec_fpop_of_empty (hq : s.fifo? f.toNat = some q) (he : q.empty = true) :
    exec (.fpop f) s = .next (s.respond .fpop 0 []) := by
  simp only [exec, execFpop, hq, Fifo.pop, he, if_true, State.setFifo_same _ _ _ hq]

theorem exec_fwrite_of_put {payload : List Word} {n : Nat} (hq : s.fifo? f.toNat = some q)
    (hl : payload.all legalPayload = true) (hp : q.put (payload.map payloadByte) = some (q', n)) :
    exec (.fwrite f payload) s = .next ((s.setFifo f.toNat q').respond .fwrite (BitVec.ofNat 16 n) []) := by
  simp only [exec, execFwrite, hq, hl, hp, if_true]

theorem exec_fwrite_of_illegal {payload : List Word} (hq : s.fifo? f.toNat = some q)
    (hl : ¬ payload.all legalPayload = true) :
    exec (.fwrite f payload) s = .next (s.raise Op.fwrite.code .badOperand) := by
  simp only [exec, execFwrite, hq, if_neg hl]

theorem exec_fread_of_take {m : Half} {d : List Byte} (hq : s.fifo? f.toNat = some q)
    (ht : q.take m.toNat = some (q', d)) :
    exec (.fread f m) s =
      .next ((s.setFifo f.toNat q').respond .fread (BitVec.ofNat 16 d.length) (d.map byteWord)) := by
  simp only [exec, execFread, hq, ht]

theorem exec_favail_of_fifo (hq : s.fifo? f.toNat = some q) :
    exec (.favail f) s = .next (s.respond .favail (BitVec.ofNat 16 q.used) []) := by
  simp only [exec, execFavail, hq]

theorem exec_ffree_of_fifo (hq : s.fifo? f.toNat = some q) :
    exec (.ffree f) s = .next (s.respond .ffree (BitVec.ofNat 16 q.free) []) := by
  simp only [exec, execFfree, hq]

/-! ### The bytes of the arrays after one FIFO was replaced (R66, R110) -/

theorem State.setFifo_fifoByte_self {g : Nat} (hq : s.fifo? g = some q) (a : Nat) :
    (s.setFifo g q').fifoByte g a = Memory.read q'.buf a := by
  rw [State.setFifo_fifoByte s g q' q hq, if_pos rfl]

theorem State.setFifo_fifoByte_of_kept {g h a : Nat} (hq : s.fifo? g = some q)
    (hk : h = g → Memory.read q'.buf a = Memory.read q.buf a) :
    (s.setFifo g q').fifoByte h a = s.fifoByte h a := by
  rw [State.setFifo_fifoByte s g q' q hq]
  split
  · next he => rw [hk he, he, State.fifoByte_eq s g a q hq]
  · rfl

end

/-! ### One put, and one take (R111, R112) -/

/-- What a push leaves where there was room. -/
theorem Fifo.pushed_spec (q : Fifo) (b : Byte) (h : q.wf = true) (hf : q.full = false) :
    (q.pushed b).wf = true ∧ (q.pushed b).queue = q.queue ++ [b] ∧ (q.pushed b).used = q.used + 1 := by
  obtain ⟨-, -, hstop, -⟩ := (Fifo.wf_iff q).mp h
  obtain ⟨q', hp, hw, -, -, -, hroom⟩ := Fifo.push_spec q b h
  obtain ⟨-, hqueue, hused, -⟩ := hroom hf
  rw [q.push_of_not_full b hstop hf] at hp
  obtain ⟨rfl, -⟩ := Prod.mk.inj (Option.some.inj hp)
  exact ⟨hw, hqueue, hused⟩

/-- What a pop leaves where there was a byte. -/
theorem Fifo.popped_spec (q : Fifo) (h : q.wf = true) (he : q.empty = false) :
    q.popped.wf = true ∧ q.queue = Memory.read q.buf q.start :: q.popped.queue := by
  obtain ⟨-, hstart, -, -⟩ := (Fifo.wf_iff q).mp h
  have hpop := q.pop_of_not_empty hstart he
  obtain ⟨q', hp, hw, -, -, -, -, -, htail⟩ := Fifo.pop_spec q h
  rw [hpop] at hp
  obtain ⟨rfl, hhead⟩ := Prod.mk.inj (Option.some.inj hp)
  exact ⟨hw, by rw [htail, List.cons_head?_tail hhead.symm]⟩

/-- Settles O13: a full queue refuses; otherwise one slot, the one at `end`, is written. -/
theorem fpushPutsOneByte : Obligations.FpushPutsOneByte := by
  intro s f b hs
  refine ⟨decode_of_encode_eq (i := .fpush f b) rfl ?_, exec_of_no_fifo rfl, fun q hq hfull => ?_,
    fun q hq hroom => ?_⟩
  · rw [zero_append_byte]; rfl
  · exact exec_fpush_of_full b hq (beq_iff_eq.mpr hfull)
  · have hf : q.full = false := beq_eq_false_iff_ne.mpr hroom
    have hw := State.fifo_wf s hs.transports _ q hq
    obtain ⟨-, -, hstop, hbuf, -⟩ := (Fifo.wf_iff q).mp hw
    have hread (a : Nat) := Memory.read_write q.buf q.stop b a hbuf
    refine ⟨_, q.pushed b, exec_fpush_of_push hq (q.push_of_not_full b hstop hf), State.setFifo_fifo _ _ _ q hq, rfl,
      (q.pushed_spec b hw hf).2.1, rfl, State.setFifo_frame .., ?_, fun g a hne => ?_, State.setFifo_tokByte s _ _⟩
    · exact (State.setFifo_fifoByte_self hq q.stop).trans ((hread q.stop).trans (if_pos rfl))
    · exact State.setFifo_fifoByte_of_kept hq fun hg =>
        (hread a).trans (if_neg (hne.resolve_left (not_not_intro hg)))

/-- Settles O14: an empty queue has no byte to take; otherwise `start` alone moves. -/
theorem fpopTakesOneByte : Obligations.FpopTakesOneByte := by
  intro s f hs
  refine ⟨decode_of_encode_eq (i := .fpop f) rfl rfl, exec_of_no_fifo rfl, fun q hq hempty => ?_,
    fun q hq hne => ?_⟩
  · exact exec_fpop_of_empty hq (beq_iff_eq.mpr hempty)
  · have he : q.empty = false := beq_eq_false_iff_ne.mpr hne
    have hw := State.fifo_wf s hs.transports _ q hq
    obtain ⟨-, hstart, -, -⟩ := (Fifo.wf_iff q).mp hw
    rw [State.fifoByte_eq s _ _ q hq, one_append_byte]
    exact ⟨_, exec_fpop_of_pop hq (q.pop_of_not_empty hstart he), State.setFifo_fifo _ _ _ q hq,
      (q.popped_spec hw he).2, rfl, State.setFifo_frame .., State.setFifo_fifoByte_same hq rfl,
      State.setFifo_tokByte s _ _⟩

/-! ### Bursts (R113, R114) -/

/-- The packet of another number of words is rejected for that number, before anything else is looked at. -/
theorem runCommand_fwrite_wordCount (s : State) (f : Byte) (len : Half) (payload : List Word)
    (hlen : payload.length ≠ len.toNat) :
    runCommand ⟨mkHeader .fwrite f len, payload⟩ s = .next (s.raise Op.fwrite.code .badOperand) := by
  have hspells : Op.fwrite.row.spells (mkHeader .fwrite f len) = true :=
    Laws.EncodesItsRow.spells_of_fields .fwrite f len (Laws.EncodesItsRow.and_zero_byte _)
      (Laws.EncodesItsRow.and_zero_half _)
  have hcount : payload.length ≠ Op.fwrite.row.form.wordCount (mkHeader .fwrite f len) := by
    simpa only [Op.row, Form.wordCount, immField_mkHeader] using hlen
  rw [runCommand_reject s _ .wordCount (decode_eq_wordCount hspells hcount), opField_mkHeader]
  rfl

/-- The bytes of a payload, padded as its words are. -/
theorem getD_map_payloadByte (payload : List Word) (i : Nat) :
    (payload.map payloadByte).getD i 0 = (payload.getD i 0).extractLsb' 0 8 := by
  rw [← payloadByte_eq]
  exact List.getD_map payload (d := 0) payloadByte (n := i)

/-- Settles O15: the decoder checks the count, `exec` the instance and then the payload; what a put stores and leaves
is in `Fifo.put_spec`, `Fifo.put_reads` and `Fifo.put_frame`. -/
theorem fwritePutsWhatFits : Obligations.FwritePutsWhatFits := by
  intro s f len payload hs
  refine ⟨fun hlen => ?_, runCommand_fwrite_wordCount s f len payload, exec_of_no_fifo rfl, fun q hq hillegal => ?_,
    fun q n hq hlegal hn => ?_⟩
  · refine decode_of_encode_eq (decide_eq_true (hlen ▸ len.isLt)) ?_
    rw [encode, hlen, BitVec.ofNat_toNat, BitVec.setWidth_eq]
    rfl
  · refine exec_fwrite_of_illegal hq fun hall => ?_
    obtain ⟨w, hw, hne⟩ := hillegal
    exact hne ((all_legalPayload_iff payload).mp hall w hw)
  · have hw := State.fifo_wf s hs.transports _ q hq
    obtain ⟨buf, hput, -⟩ := Fifo.put_slots q (payload.map payloadByte) hw
    obtain ⟨q', hput', -, -, -, -, -, hqueue⟩ := Fifo.put_spec q (payload.map payloadByte) hw
    cases hput'.symm.trans hput
    rw [List.length_map, show min payload.length q.free = n from hn.symm] at hput hqueue
    refine ⟨_, _, exec_fwrite_of_put hq ((all_legalPayload_iff payload).mpr hlegal) hput,
      State.setFifo_fifo _ _ _ q hq, rfl, ?_, rfl, State.setFifo_frame .., fun i hi => ?_, fun g a hne => ?_,
      State.setFifo_tokByte s _ _⟩
    · rw [hqueue, ← List.map_take, funext payloadByte_eq]
    · exact (State.setFifo_fifoByte_self hq _).trans
        ((Fifo.put_reads q _ _ n hw hput i hi).trans (getD_map_payloadByte payload i))
    · exact State.setFifo_fifoByte_of_kept hq fun hg =>
        Fifo.put_frame q _ _ n hw hput a (hne.resolve_left (not_not_intro hg))

/-- The first bytes of a queue, by the slots they stand in. -/
theorem Fifo.queue_take (q : Fifo) (n : Nat) (hn : n ≤ q.used) :
    q.queue.take n = (List.range n).map fun i => Memory.read q.buf ((q.start + i) % q.size) := by
  rw [Fifo.queue, ← List.map_take, List.take_range, Nat.min_eq_left hn]

/-- Settles O16: the bytes taken are the first of the queue, and `start` alone moves. -/
theorem freadTakesUpToMaxLen : Obligations.FreadTakesUpToMaxLen := by
  intro s f maxLen hs
  refine ⟨decode_of_encode_eq (i := .fread f maxLen) rfl rfl, exec_of_no_fifo rfl, fun q n hq hn => ?_⟩
  have hw := State.fifo_wf s hs.transports _ q hq
  have hle : n ≤ q.used := hn ▸ Nat.min_le_right _ _
  have htake := Fifo.take_eq q maxLen.toNat hw
  rw [← hn] at htake
  have hbytes := Fifo.queue_take q n hle
  simp only [← State.fifoByte_eq s f.toNat _ q hq] at hbytes
  refine ⟨_, exec_fread_of_take hq htake, State.setFifo_fifo _ _ _ q hq, (Fifo.queue_after_take q n hw hle).2, ?_,
    hbytes, State.setFifo_frame .., State.setFifo_fifoByte_same hq rfl, State.setFifo_tokByte s _ _⟩
  rw [State.respond_response, hbytes, List.length_map, List.length_range, List.map_map]
  simp only [zero_append_byte_word]
  rfl

/-! ### The counts (R115 to R117) -/

/-- The used count is the difference of the cursors in the integers, reduced modulo the size. -/
theorem Fifo.used_cast (q : Fifo) (h : q.wf = true) : (q.used : Int) = ((q.stop : Int) - q.start) % q.size := by
  obtain ⟨-, hstart, -, -⟩ := (Fifo.wf_iff q).mp h
  rw [Fifo.used, Int.natCast_mod, Nat.cast_sub (by omega), Nat.cast_add, add_sub_right_comm, Int.add_emod_right]

theorem Fifo.free_cast (q : Fifo) (h : q.wf = true) :
    (q.free : Int) = q.size - 1 - ((q.stop : Int) - q.start) % q.size := by
  have hlt := Fifo.used_lt q h
  rw [← Fifo.used_cast q h, Fifo.free]
  omega

/-- Settles O17: the counts as integers. -/
theorem countsAreUsedAndFree : Obligations.CountsAreUsedAndFree := by
  intro s f hs
  refine ⟨decode_of_encode_eq (i := .favail f) rfl rfl, decode_of_encode_eq (i := .ffree f) rfl rfl,
    exec_of_no_fifo rfl, exec_of_no_fifo rfl, fun q hq => ?_, fun q hq => ?_⟩
  · rw [← Fifo.used_cast q (State.fifo_wf s hs.transports _ q hq), BitVec.ofInt_natCast]
    exact exec_favail_of_fifo hq
  · rw [← Fifo.free_cast q (State.fifo_wf s hs.transports _ q hq), BitVec.ofInt_natCast]
    exact exec_ffree_of_fifo hq

/-- Every reachable state is legal: the start is, and every step keeps it so. -/
theorem Reachable.inv {s : State} (h : Reachable s) : s.Inv := by
  induction h with
  | start p inputs hp hi => exact builtStateIsLegal p inputs hp hi
  | step s t _ hstep ih => exact stepKeepsTheInvariant s t ih hstep

/-- A count of at most 65535 is answered whole. -/
theorem responseRes_count (op : Op) (n : Nat) (ws : List Word) (hn : n < 65536) :
    (responseRes ⟨respHeader op.code 0 (BitVec.ofNat 16 n), ws⟩).toNat = n := by
  rw [responseRes_respHeader, BitVec.toNat_ofNat]
  exact Nat.mod_eq_of_lt hn

/-- Settles O18: both counts fit the field they are answered in, and they add up in every legal FIFO. -/
theorem accountingLaw : Obligations.AccountingLaw := by
  intro s f q hs hq
  have hw := State.fifo_wf s hs.inv.transports _ q hq
  obtain ⟨hsize, -⟩ := (Fifo.wf_iff q).mp hw
  have hsum := Fifo.used_add_free q hw
  refine ⟨_, _, _, _, exec_favail_of_fifo hq, rfl, exec_ffree_of_fifo (q := q) hq, rfl, ?_⟩
  rw [responseRes_count _ _ _ (by omega), responseRes_count _ _ _ (by omega), hsum]

/-! ### A run of FPUSH (R118, R120) -/

/-- A put that no byte fits, or that has none, changes nothing. -/
theorem Fifo.put_of_count_zero (q : Fifo) (d : List Byte) (h : q.wf = true) (hn : min d.length q.free = 0) :
    q.put d = some (q, 0) := by
  obtain ⟨-, -, hstop, -⟩ := (Fifo.wf_iff q).mp h
  simp [Fifo.put, hn, Memory.store, Memory.writeAll, Nat.le_of_lt hstop, Nat.mod_eq_of_lt hstop]

theorem Memory.store_nil (m : Memory) {size a : Nat} (ha : a ≤ size) : Memory.store m size a [] = some m :=
  if_pos ha

/-- To store a string is to write its first byte and to store the rest after it. -/
theorem Memory.store_cons (m : Memory) (size a : Nat) (b : Byte) (v : List Byte) :
    Memory.store m size a (b :: v) = Memory.store (Memory.write m a b) size (a + 1) v := by
  have hin : a + (b :: v).length ≤ size ↔ a + 1 + v.length ≤ size := by
    rw [List.length_cons]
    omega
  simp only [Memory.store, hin, Memory.writeAll]

/-- After a push there is room for one byte less. -/
theorem Fifo.pushed_free (q : Fifo) (b : Byte) (h : q.wf = true) (hf : q.full = false) :
    q.free = (q.pushed b).free + 1 := by
  obtain ⟨hw, -, hused⟩ := q.pushed_spec b h hf
  have hsum := Fifo.used_add_free q h
  have hsum' : (q.pushed b).used + (q.pushed b).free = q.size - 1 := Fifo.used_add_free (q.pushed b) hw
  omega

/-- A put into a queue with room is a push of the first byte and a put of the rest (R120): the second segment of the
put begins where the cursor of the pushes goes round the end of the array. -/
theorem Fifo.put_cons (q : Fifo) (b : Byte) (bs : List Byte) (h : q.wf = true) (hf : q.full = false) :
    q.put (b :: bs) = ((q.pushed b).put bs).map fun r => (r.1, r.2 + 1) := by
  obtain ⟨-, -, hstop, -⟩ := (Fifo.wf_iff q).mp h
  have hcount : min (b :: bs).length q.free = min bs.length (q.pushed b).free + 1 := by
    rw [q.pushed_free b h hf, List.length_cons, Nat.add_min_add_right]
  have hle : min bs.length (q.pushed b).free ≤ q.size - 1 := by
    have hfree : (q.pushed b).free ≤ q.size - 1 := Nat.sub_le _ _
    omega
  have hcursor (n : Nat) : ((q.pushed b).stop + n) % q.size = (q.stop + (n + 1)) % q.size := by
    rw [Fifo.pushed, Nat.mod_add_mod, Nat.add_assoc, Nat.add_comm 1 n]
  have hsize : (q.pushed b).size = q.size := rfl
  have hbuf : (q.pushed b).buf = Memory.write q.buf q.stop b := rfl
  simp only [Fifo.put, hcount, hsize, hbuf, hcursor]
  generalize min bs.length (q.pushed b).free = n at hle ⊢
  by_cases hwrap : q.stop + 1 = q.size
  · have hstart : (q.pushed b).stop = 0 := by rw [Fifo.pushed, hwrap, Nat.mod_self]
    have hseg : min (n + 1) (q.size - q.stop) = 1 := by omega
    have hseg' : min n (q.size - 0) = n := by omega
    simp only [hstart, hseg, hseg', List.take_succ_cons, List.take_zero, Memory.store_cons,
      Memory.store_nil _ hwrap.le, Nat.add_sub_cancel, Nat.sub_self, List.drop_succ_cons, List.drop_zero,
      Memory.store_nil _ (Nat.zero_le _)]
    cases Memory.store (Memory.write q.buf q.stop b) q.size 0 (bs.take n) <;> rfl
  · have hnext : (q.pushed b).stop = q.stop + 1 := Nat.mod_eq_of_lt (by omega)
    have hseg : min (n + 1) (q.size - q.stop) = min n (q.size - (q.stop + 1)) + 1 := by omega
    simp only [hnext, hseg, List.take_succ_cons, Memory.store_cons, Nat.add_sub_add_right, List.drop_succ_cons]
    generalize min n (q.size - (q.stop + 1)) = k
    cases Memory.store (Memory.write q.buf q.stop b) q.size (q.stop + 1) (bs.take k) with
    | none => rfl
    | some m =>
      dsimp only
      cases Memory.store m q.size 0 ((bs.drop k).take (n - k)) <;> rfl

/-- What `len` FPUSH in a row answer when `free` bytes fit: accepted as long as they do, then refused. -/
def pushAnswers (len free : Nat) : List Response :=
  List.replicate (min len free) ⟨respHeader Op.fpush.code 0 1, []⟩ ++
    List.replicate (len - free) ⟨respHeader Op.fpush.code 0 0, []⟩

theorem pushAnswers_full (len : Nat) :
    pushAnswers (len + 1) 0 = ⟨respHeader Op.fpush.code 0 0, []⟩ :: pushAnswers len 0 := by
  simp [pushAnswers, List.replicate_succ]

theorem pushAnswers_room (len free : Nat) :
    pushAnswers (len + 1) (free + 1) = ⟨respHeader Op.fpush.code 0 1, []⟩ :: pushAnswers len free := by
  simp [pushAnswers, Nat.add_min_add_right, List.replicate_succ]

theorem pushAnswers_res (len free : Nat) :
    (pushAnswers len free).map (fun r => (responseRes r).toNat) =
      List.replicate (min len free) 1 ++ List.replicate (len - free) 0 := by
  simp only [pushAnswers, List.map_append, List.map_replicate, responseRes_respHeader]
  rfl

theorem execTrace_cons {i : Instr} {is : List Instr} {s t u : State} {r : Response} {rs : List Response}
    (hi : exec i s = .next t) (hr : t.response = some r) (his : execTrace is t = some (rs, u)) :
    execTrace (i :: is) s = some (r :: rs, u) := by
  simp only [execTrace, hi, hr, his]
  rfl

/-- A run of FPUSH leaves in the queue what one put of the bytes leaves, and nothing else changes but the response. -/
theorem execTrace_fpush (bs : List Byte) {s : State} {f : Byte} {q : Fifo} (hq : s.fifo? f.toNat = some q)
    (hw : q.wf = true) :
    ∃ q' u, q.put bs = some (q', min bs.length q.free) ∧
      execTrace (bs.map fun b => .fpush f b) s = some (pushAnswers bs.length q.free, u) ∧
      u = { s.setFifo f.toNat q' with response := u.response } := by
  induction bs generalizing s q with
  | nil =>
    refine ⟨q, s, ?_, ?_, ?_⟩
    · simpa using q.put_of_count_zero [] hw (Nat.zero_min _)
    · simp [execTrace, pushAnswers]
    · rw [State.setFifo_same s _ q hq]
  | cons b bs ih =>
    by_cases hf : q.full = true
    · have hfree := (Fifo.full_iff q hw).mp hf
      obtain ⟨q', u, hput, htrace, hu⟩ := ih (s := s.respond .fpush 0 []) hq hw
      have hnone (d : List Byte) : q.put d = some (q, 0) := q.put_of_count_zero d hw (by rw [hfree, Nat.min_zero])
      obtain ⟨rfl, -⟩ := Prod.mk.inj (Option.some.inj ((hnone bs).symm.trans hput))
      refine ⟨q, u, ?_, ?_, hu⟩
      · rw [hnone, hfree, Nat.min_zero]
      · rw [hfree] at htrace ⊢
        rw [List.length_cons, pushAnswers_full]
        exact execTrace_cons (exec_fpush_of_full b hq hf) rfl htrace
    · have hf := Bool.eq_false_of_not_eq_true hf
      obtain ⟨-, -, hstop, -⟩ := (Fifo.wf_iff q).mp hw
      obtain ⟨hw', -⟩ := q.pushed_spec b hw hf
      have hfree := q.pushed_free b hw hf
      obtain ⟨q', u, hput, htrace, hu⟩ := ih (s := (s.setFifo f.toNat (q.pushed b)).respond .fpush 1 [])
        (State.setFifo_fifo s _ _ q hq) hw'
      refine ⟨q', u, ?_, ?_, ?_⟩
      · rw [q.put_cons b bs hw hf, hput, hfree, List.length_cons, Nat.add_min_add_right]
        rfl
      · rw [hfree, List.length_cons, pushAnswers_room]
        exact execTrace_cons (exec_fpush_of_push hq (q.push_of_not_full b hstop hf)) rfl htrace
      · rwa [State.setFifo_respond, State.setFifo_setFifo] at hu

/-- Settles O20: a run of FPUSH makes the same put. -/
theorem fwriteIsSuccessiveFpush : Obligations.FwriteIsSuccessiveFpush := by
  intro s f q payload hs hq hlegal
  have hall : payload.all legalPayload = true := by simpa [legalPayload] using hlegal
  obtain ⟨q', u, hput, htrace, hu⟩ :=
    execTrace_fpush (payload.map payloadByte) hq (State.fifo_wf s hs.transports _ q hq)
  rw [List.length_map] at hput htrace
  rw [List.map_map] at htrace
  refine ⟨_, u, _, exec_fwrite_of_put hq hall hput, htrace, ?_, rfl, pushAnswers_res _ _⟩
  rw [hu]
  rfl

/-- Settles O19: an empty queue has room for `N - 1` bytes. -/
theorem capacityLaw : Obligations.CapacityLaw := by
  intro s f q hs hq hempty
  have hw := State.fifo_wf s hs.transports _ q hq
  have hfree : q.free = q.size - 1 := by
    have hsum := Fifo.used_add_free q hw
    have hused := (Fifo.empty_iff q hw).mp (beq_iff_eq.mpr hempty)
    omega
  refine ⟨fun bs => ?_, fun payload hlegal hlen => ?_⟩
  · obtain ⟨-, u, -, htrace, -⟩ := execTrace_fpush bs hq hw
    exact ⟨_, u, htrace, hfree ▸ pushAnswers_res bs.length q.free⟩
  · obtain ⟨t, -, -, ht, -, -, hresp, -⟩ := fwriteIsSuccessiveFpush s f q payload hs hq hlegal
    rw [hfree, Nat.min_eq_right hlen] at hresp
    exact ⟨t, ht, hresp⟩

/-! ### A run of FPOP (R120) -/

/-- What an FPOP that took byte `b` answers. -/
def popAnswer (b : Byte) : Response := ⟨respHeader Op.fpop.code 0 (0x0100 ||| byteImm b), []⟩

/-- A run of as many FPOP as the queue has bytes for answers its first bytes and moves `start` past them, and nothing
else changes but the response. -/
theorem execTrace_fpop (n : Nat) {s : State} {f : Byte} {q : Fifo} (hq : s.fifo? f.toNat = some q)
    (hw : q.wf = true) (hn : n ≤ q.used) :
    ∃ u, execTrace (List.replicate n (.fpop f)) s = some ((q.queue.take n).map popAnswer, u) ∧
      u = { s.setFifo f.toNat { q with start := (q.start + n) % q.size } with response := u.response } := by
  obtain ⟨-, hstart, -, -⟩ := (Fifo.wf_iff q).mp hw
  induction n generalizing s q with
  | zero =>
    refine ⟨s, rfl, ?_⟩
    rw [Nat.add_zero, Nat.mod_eq_of_lt hstart, State.setFifo_same s _ q hq]
  | succ n ih =>
    have he : q.empty = false := Bool.eq_false_of_not_eq_true fun he => by
      rw [(Fifo.empty_iff q hw).mp he] at hn
      exact absurd hn (Nat.not_succ_le_zero n)
    obtain ⟨hw', hqueue⟩ := q.popped_spec hw he
    have hn' : n ≤ q.popped.used := by
      have hlen := congrArg List.length hqueue
      rw [List.length_cons, Fifo.queue_length, Fifo.queue_length] at hlen
      omega
    obtain ⟨u, htrace, hu⟩ := ih (q := q.popped)
      (s := (s.setFifo f.toNat q.popped).respond .fpop (0x0100 ||| byteImm (Memory.read q.buf q.start)) [])
      (State.setFifo_fifo s _ _ q hq) hw' hn' (Nat.mod_lt _ (Nat.zero_lt_of_lt hstart))
    refine ⟨u, ?_, ?_⟩
    · rw [hqueue]
      exact execTrace_cons (exec_fpop_of_pop hq (q.pop_of_not_empty hstart he)) rfl htrace
    · have hmod : (q.popped.start + n) % q.size = (q.start + (n + 1)) % q.size := by
        rw [Fifo.popped, Nat.mod_add_mod, Nat.add_right_comm, Nat.add_assoc]
      rw [State.setFifo_respond, State.setFifo_setFifo] at hu
      rw [← hmod]
      exact hu

/-- Settles O21: both take the same first bytes of the queue. -/
theorem freadIsSuccessiveFpop : Obligations.FreadIsSuccessiveFpop := by
  intro s f q m hs hq
  have hw := State.fifo_wf s hs.transports _ q hq
  have hle := Nat.min_le_right m.toNat q.used
  obtain ⟨u, htrace, hu⟩ := execTrace_fpop _ hq hw hle
  refine ⟨_, u, _, q.queue.take (min m.toNat q.used), exec_fread_of_take hq (Fifo.take_eq q m.toNat hw), htrace,
    ?_, ?_, ?_⟩
  · rw [hu]
    rfl
  · rw [State.respond_response, List.length_take, Fifo.queue_length, Nat.min_eq_left hle]
    rfl
  · simp only [one_append_byte]
    rfl

end Sys2Proof.Machine

/-! The statements of 41_codec.md. CRX steps the parser of its instance and answers what it emits (`exec_crx_of_step`).
A run of CRX then answers what the parser emits on the bytes (`execTrace_crx`), and a single CRX does what one byte of
each class does to the parser (`Codec.feed_cases`). CSEND and CUI share the transmit path: what it does to a legal
machine is `State.transmitted_emit`. -/
namespace Sys2Proof.Machine

/-! ### The instance check common to the three operations -/

/-- The CODEC instance an operation names, if it is one of the three of 41_codec.md. -/
def namedCodec : Instr → Option Byte
  | .crx c _ | .csend c _ _ | .cui c _ => some c
  | _ => none

/-- An operation that names an instance from `NT` on raises BadInstance, whatever its other operands. -/
theorem exec_of_no_transport {s : State} {i : Instr} {c : Byte} (hi : namedCodec i = some c)
    (hc : s.transports.length ≤ c.toNat) : exec i s = .next (s.raise i.op.code .badInstance) := by
  rw [← State.transport_eq_none] at hc
  cases i with
  | crx | csend | cui =>
    cases hi
    simp only [exec, execCrx, execCsend, execCui, hc, Instr.op]
  | _ => cases hi

/-- A transport of a legal machine has a legal parser. -/
theorem State.Inv.codec_wf {s : State} {n : Nat} {t : Transport} (hs : s.Inv) (ht : s.transport? n = some t) :
    t.codec.wf = true := by
  obtain ⟨-, -, hw⟩ := (Transport.wf_iff t).mp (State.transport_wf s hs.transports n t ht)
  exact hw

/-! ### One CRX in terms of the parser (R141) -/

/-- What a CRX answers when the parser emits `o`. -/
def crxAnswer : Option (Byte × Word) → Response
  | none => ⟨respHeader Op.crx.code 0 0, []⟩
  | some (code, value) => ⟨respHeader Op.crx.code 0 ((1 : Byte) ++ code), [value]⟩

/-- The state after a CRX on instance `n`, whose transport was `t`: the parser is now `k` and emitted `o`. -/
def State.afterCrx (s : State) (n : Nat) (t : Transport) (k : Codec) (o : Option (Byte × Word)) : State :=
  { s.setTransport n { t with codec := k } with response := some (crxAnswer o) }

section
variable {s : State} {n : Nat} {c : Byte} {t : Transport} {k k' : Codec} {o : Option (Byte × Word)}

theorem exec_crx_of_step {b : Byte} (ht : s.transport? c.toNat = some t)
    (hf : t.codec.feed s.settings.parseOvf b = some (k, o)) :
    exec (.crx c b) s = .next (s.afterCrx c.toNat t k o) := by
  cases o with
  | none =>
    simp only [exec, execCrx, ht, hf]
    rfl
  | some cv =>
    simp only [exec, execCrx, ht, hf, State.afterCrx, crxAnswer, one_append_byte]
    rfl

theorem State.afterCrx_transport (ht : s.transport? n = some t) :
    (s.afterCrx n t k o).transport? n = some { t with codec := k } := by
  show (s.setTransport n { t with codec := k }).transport? n = _
  rw [State.transport_setTransport, if_pos rfl, ht]
  rfl

theorem State.afterCrx_codec (ht : s.transport? n = some t) : (s.afterCrx n t k o).codec? n = some k := by
  rw [State.codec?, State.afterCrx_transport ht]
  rfl

/-- CRX leaves every FIFO and every other CODEC (R25). -/
theorem State.afterCrx_frame (ht : s.transport? n = some t) : s.QueueFrame (s.afterCrx n t k o) [] [n] := by
  obtain ⟨-, htx, -⟩ := State.transport_parts s n t ht
  obtain ⟨-, htx', -⟩ := State.transport_parts _ n _ (State.afterCrx_transport (k := k) (o := o) ht)
  obtain ⟨-, hfifos, hcodecs⟩ := State.setTransport_frame s n { t with codec := k } t .crx 0 [] ht rfl
  refine ⟨rfl, fun g _ => ?_, hcodecs⟩
  by_cases hg : g = 2 * n + 1
  · rw [hg, htx', htx]
  · exact hfifos g (by simpa using hg)

/-- The tokens after a CRX: those of the other instances are as they were. -/
theorem State.afterCrx_tokByte (ht : s.transport? n = some t) (d a : Nat) :
    (s.afterCrx n t k o).tokByte d a = if d = n then Memory.read k.tok a else s.tokByte d a := by
  split
  · next hd =>
    subst hd
    exact State.tokByte_eq _ d a k (State.afterCrx_codec ht)
  · next hd => exact State.tokByte_congr s _ d a ((State.afterCrx_frame ht).codecs d (by simpa using hd))

/-- A run of CRX answers what the parser emits on the bytes. -/
theorem execTrace_crx (bs : List Byte) {os : List (Option (Byte × Word))} (ht : s.transport? c.toNat = some t)
    (hf : t.codec.feedAll s.settings.parseOvf bs = some (k', os)) :
    ∃ u, execTrace (bs.map fun b => .crx c b) s = some (os.map crxAnswer, u) := by
  induction bs generalizing s t os with
  | nil =>
    cases hf
    exact ⟨s, rfl⟩
  | cons b bs ih =>
    obtain ⟨k1, o, os', hfeed, hrest, rfl⟩ := Codec.feedAll_cons_inv hf
    obtain ⟨u, htrace⟩ := ih (State.afterCrx_transport (k := k1) (o := o) ht) hrest
    exact ⟨u, execTrace_cons (exec_crx_of_step ht hfeed) rfl htrace⟩

end

/-! ### A frame, and a token that grows too long (R144, R154) -/

/-- Settles O28: the parser emits the command of the frame with its last byte, and nothing before. -/
theorem frameParsesBack : Obligations.FrameParsesBack := by
  intro s c code value hs hc hcode
  have ht : s.transport? c.toNat = some s.transports[c.toNat] := List.getElem?_eq_getElem hc
  obtain ⟨k', hfeed⟩ := Codec.feedAll_frame (ovf := s.settings.parseOvf) value (hs.codec_wf ht) hcode
  obtain ⟨u, htrace⟩ := execTrace_crx (frame code value) ht hfeed
  rw [List.map_append, List.map_replicate] at htrace
  exact ⟨u, htrace⟩

section
variable {k : Codec} {ovf : ParseOvf}

/-- Digits that a token has no room for drop it, and digits after that do not start another (R141, R144). -/
theorem Codec.feedAll_digits_overflow (ds : List Byte) (h : k.wf = true) (hd : ∀ d ∈ ds, isDigit d = true)
    (hover : k.len = 0 ∨ 11 < k.len + ds.length) :
    ∃ k', k.feedAll ovf ds = some (k', List.replicate ds.length none) ∧ k'.wf = true ∧ k'.token = [] := by
  induction ds generalizing k with
  | nil =>
    obtain ⟨hlen, -⟩ := (Codec.wf_iff k).mp h
    have hempty : k.len = 0 := hover.resolve_right (not_lt.mpr hlen)
    exact ⟨k, rfl, h, List.eq_nil_of_length_eq_zero (by rw [Codec.token_length, hempty])⟩
  | cons d ds ih =>
    rw [List.forall_mem_cons] at hd
    rw [List.length_cons] at hover
    obtain ⟨hextend, hdrop⟩ := Codec.feed_digit k ovf d h hd.1
    by_cases hroom : 1 ≤ k.len ∧ k.len ≤ 10
    · obtain ⟨tok, hf, hw, -, -⟩ := hextend hroom
      obtain ⟨k', hf', hw', htok⟩ := ih hw hd.2 (by dsimp only; omega)
      exact ⟨k', Codec.feedAll_cons hf hf', hw', htok⟩
    · obtain ⟨k', hf', hw', htok⟩ := ih (Codec.idle_wf k h) hd.2 (Or.inl rfl)
      exact ⟨k', Codec.feedAll_cons (hdrop hroom) hf', hw', htok⟩

/-- A letter, more than ten digits and a comma emit nothing, from any parser state (R144). -/
theorem Codec.feedAll_discarded {code : Byte} {ds : List Byte} (h : k.wf = true) (hc : isLetter code = true)
    (hd : ∀ d ∈ ds, isDigit d = true) (hlen : 11 ≤ ds.length) :
    ∃ k', k.feedAll ovf (code :: (ds ++ [comma])) = some (k', List.replicate (ds.length + 2) none) := by
  obtain ⟨tok, hf, hw, -, -⟩ := Codec.feed_letter k ovf code h hc
  obtain ⟨k1, hf1, hw1, htok⟩ := Codec.feedAll_digits_overflow (ovf := ovf) ds hw hd (Or.inr (by dsimp only; omega))
  have hf2 := Codec.feed_comma k1 ovf hw1
  rw [htok] at hf2
  refine ⟨k1.idle, ?_⟩
  rw [Codec.feedAll_cons hf (Codec.feedAll_append hf1 (Codec.feedAll_cons hf2 rfl)), List.replicate_succ,
    List.replicate_succ']

end

/-- Settles O29: the eleventh digit drops the token, so the comma finds none. -/
theorem eleventhDigitDiscards : Obligations.EleventhDigitDiscards := by
  intro s c code ds hs hc hcode hlen hd
  have ht : s.transport? c.toNat = some s.transports[c.toNat] := List.getElem?_eq_getElem hc
  obtain ⟨k', hfeed⟩ := Codec.feedAll_discarded (ovf := s.settings.parseOvf) (hs.codec_wf ht) hcode hd hlen
  obtain ⟨u, htrace⟩ := execTrace_crx (code :: (ds ++ [comma])) ht hfeed
  rw [List.map_replicate] at htrace
  exact ⟨u, htrace⟩

/-! ### One byte of each class (R141) -/

/-- The slot of the token a byte is stored to, if any, and the length it leaves (R141). -/
def Codec.slotAndLen (k : Codec) (b : Byte) : Option Nat × Nat :=
  if isLetter b then (some 0, 1)
  else if isDigit b ∧ 1 ≤ k.len ∧ k.len ≤ 10 then (some k.len, k.len + 1)
  else (none, 0)

/-- The command a byte makes the parser emit, if any (R141). -/
def Codec.emitted (k : Codec) (ovf : ParseOvf) (b : Byte) : Option (Byte × Word) :=
  if b = comma ∧ 1 ≤ k.len then
    some (Memory.read k.tok 0, if k.len = 1 then 0
      else parseUint ovf ((List.range (k.len - 1)).map fun i => Memory.read k.tok (i + 1)))
  else none

section
variable {k : Codec} {ovf : ParseOvf}

/-- A token that is not empty is a first byte and the bytes after it. -/
theorem Codec.token_cons (h : 1 ≤ k.len) :
    k.token = Memory.read k.tok 0 :: (List.range (k.len - 1)).map fun i => Memory.read k.tok (i + 1) := by
  obtain ⟨n, hn⟩ := Nat.exists_eq_add_of_le' h
  rw [Codec.token, hn, List.range_succ_eq_map, List.map_cons, List.map_map]
  rfl

theorem Codec.feed_comma_emitted (h : k.wf = true) : k.feed ovf comma = some (k.idle, k.emitted ovf comma) := by
  rw [Codec.feed_comma k ovf h, Codec.emitted]
  by_cases hlen : 1 ≤ k.len
  · have hnil : (List.range (k.len - 1)).map (fun i => Memory.read k.tok (i + 1)) = [] ↔ k.len = 1 := by
      rw [List.map_eq_nil_iff, List.range_eq_nil]
      omega
    rw [Codec.token_cons hlen, if_pos ⟨rfl, hlen⟩]
    simp only [hnil]
  · have hnil : k.token = [] := List.eq_nil_of_length_eq_zero (by rw [Codec.token_length]; omega)
    rw [hnil, if_neg fun hc => hlen hc.2]

/-- What a byte of each class does to the parser: at most one slot of the token is stored to. -/
theorem Codec.feed_cases (ovf : ParseOvf) (b : Byte) (h : k.wf = true) :
    ∃ tok, k.feed ovf b = some ({ k with tok := tok, len := (k.slotAndLen b).2 }, k.emitted ovf b) ∧
      ∀ a, Memory.read tok a = if (k.slotAndLen b).1 = some a then b else Memory.read k.tok a := by
  by_cases hcomma : b = comma
  · subst hcomma
    exact ⟨k.tok, Codec.feed_comma_emitted h, fun a => rfl⟩
  have hemit : k.emitted ovf b = none := if_neg fun hc => hcomma hc.1
  rw [hemit, Codec.slotAndLen]
  by_cases hletter : isLetter b = true
  · obtain ⟨tok, hf, -, -, hread⟩ := Codec.feed_letter k ovf b h hletter
    rw [if_pos hletter]
    exact ⟨tok, hf, fun a => by simpa [eq_comm] using hread a⟩
  rw [if_neg hletter]
  by_cases hdigit : isDigit b = true
  · obtain ⟨hextend, hdrop⟩ := Codec.feed_digit k ovf b h hdigit
    by_cases hroom : 1 ≤ k.len ∧ k.len ≤ 10
    · obtain ⟨tok, hf, -, -, hread⟩ := hextend hroom
      rw [if_pos ⟨hdigit, hroom⟩]
      exact ⟨tok, hf, fun a => by simpa [eq_comm] using hread a⟩
    · rw [if_neg fun hc => hroom hc.2]
      exact ⟨k.tok, hdrop hroom, fun a => rfl⟩
  · rw [if_neg fun hc => hdigit hc.1]
    exact ⟨k.tok, Codec.feed_other k ovf b (by simpa using hletter) (by simpa using hdigit) hcomma, fun a => rfl⟩

end

/-- Settles O24: the parser does what `Codec.feed_cases` says, and CRX replaces nothing else. -/
theorem crxFeedsTheParser : Obligations.CrxFeedsTheParser := by
  intro s c b hs
  refine ⟨decode_of_encode_eq (i := .crx c b) rfl ?_, exec_of_no_transport rfl, fun k slot len hk hslot => ?_⟩
  · rw [zero_append_byte]; rfl
  obtain ⟨t, ht, rfl⟩ := Option.map_eq_some_iff.mp hk
  obtain ⟨tok, hf, hread⟩ := Codec.feed_cases s.settings.parseOvf b (hs.codec_wf ht)
  rw [show t.codec.slotAndLen b = (slot, len) from hslot.symm] at hf hread
  have hbefore (a : Nat) := State.tokByte_eq s c.toNat a _ hk
  have hframe := State.afterCrx_frame (k := { t.codec with tok := tok, len := len })
    (o := t.codec.emitted s.settings.parseOvf b) ht
  refine ⟨_, _, exec_crx_of_step ht hf, State.afterCrx_codec ht, rfl, ?_, hframe, fun a ha => ?_,
    fun d a hne => ?_, fun f a => State.fifoByte_congr s _ f a (hframe.fifos f List.not_mem_nil)⟩
  · simp only [hbefore]
    by_cases hemit : b = comma ∧ 1 ≤ t.codec.len
    · rw [Codec.emitted, if_pos hemit]
      exact congrArg some (if_pos hemit).symm
    · rw [Codec.emitted, if_neg hemit]
      exact congrArg some (if_neg hemit).symm
  · rw [State.afterCrx_tokByte ht, if_pos rfl, hread, if_pos ha]
  · rw [State.afterCrx_tokByte ht]
    split
    · next hd => rw [hread, if_neg (hne.resolve_left (not_not_intro hd)), hd, hbefore]
    · rfl

/-! ### The decimal number (R143) -/

theorem parseUint_wrap (ds : List Byte) : (parseUint .wrap ds).toNat = decimalValue ds % 2 ^ 32 :=
  BitVec.toNat_ofNat ..

theorem parseUint_saturate (ds : List Byte) :
    (parseUint .saturate ds).toNat = min (decimalValue ds) (2 ^ 32 - 1) :=
  (BitVec.toNat_ofNat ..).trans (Nat.mod_eq_of_lt (by omega))

/-- Settles O25: the recurrence computes `decimalValue`, which the two settings narrow. -/
theorem parseUintIsDecimal : Obligations.ParseUintIsDecimal := by
  refine ⟨fun b => decide_eq_true_iff, fun b => decide_eq_true_iff, fun v h0 ds hv => ?_⟩
  rw [decimalValue_of_recurrence ds v h0 hv]
  exact ⟨parseUint_wrap ds, parseUint_saturate ds⟩

/-! ### The transmit path (R148 to R150) -/

section
variable {s : State} {c : Byte} {t t' : Transport}

/-- The parts of one transport are of one instance: `CODEC[n]` and its transmit FIFO. -/
theorem State.exists_transport_of_parts {k : Codec} {q : Fifo} {n : Nat} (hk : s.codec? n = some k)
    (hq : s.fifo? (2 * n + 1) = some q) : ∃ t, s.transport? n = some t ∧ t.codec = k ∧ t.tx = q := by
  obtain ⟨t, ht, rfl⟩ := Option.map_eq_some_iff.mp hk
  obtain ⟨-, htx, -⟩ := State.transport_parts s n t ht
  exact ⟨t, ht, rfl, Option.some.inj (htx.symm.trans hq)⟩

/-- What the transmit path does to a legal machine, the answer included: the terminator whole or not at all, then the
leading bytes that fit, and the flags. -/
theorem State.transmitted_emit {n : Nat} (hs : s.Inv) (ht : s.transport? n = some t) (op : Op) (ui : Bool)
    (text : List Byte) :
    ∃ t' e m, t.emit s.settings.eol ui text = some (t', e, m) ∧
      s.Transmitted ((s.setTransport n t').respond op (emitRes e m) []) n t.tx t.codec op ui text
        ((if e then s.settings.eol else []) ++ text.take m) e m := by
  obtain ⟨-, htx, -⟩ := (Transport.wf_iff t).mp (State.transport_wf s hs.transports n t ht)
  obtain ⟨t', hemit, -, hsize, hstart, hrx, hqueue, hflags⟩ := Transport.emit_spec t s.settings.eol ui text htx
  obtain ⟨hstop, hstored, hkept⟩ := Transport.emit_slots t t' _ ui text _ _ _ htx hemit rfl
  obtain ⟨-, hfifo, hcodec⟩ := State.transport_parts s n t ht
  obtain ⟨-, hfifo', hcodec'⟩ := State.setTransport_parts s n t' t ht
  have hframe := State.setTransport_frame s n t' t op
    (emitRes (t.eolFirst s.settings.eol ui) (min text.length (t.roomAfter s.settings.eol ui))) [] ht hrx
  refine ⟨t', _, _, hemit, ?_⟩
  exact {
    eolFirst := rfl
    count := by
      rw [Transport.roomAfter]
      split <;> rfl
    bytes := rfl
    queue := ⟨t'.tx, hfifo', hsize, hstart, hstop, by rw [hqueue, List.append_assoc]⟩
    flags := by
      rw [State.respond_codec, hcodec', hflags]
      cases t.eolFirst s.settings.eol ui <;> rfl
    answer := rfl
    frame := hframe
    stored := fun j hj => by
      rw [State.respond_fifoByte, State.fifoByte_eq _ _ _ _ hfifo']
      exact hstored j hj
    kept := fun g a hne => by
      by_cases hg : g = 2 * n + 1
      · rw [hg, State.respond_fifoByte, State.fifoByte_eq _ _ _ _ hfifo', State.fifoByte_eq _ _ _ _ hfifo]
        exact hkept a (hne.resolve_left (not_not_intro hg))
      · exact State.fifoByte_congr _ _ g a (hframe.fifos g (by simpa using hg))
    keptTok := fun d a => by
      by_cases hd : d = n
      · rw [hd, State.respond_tokByte, State.tokByte_eq _ _ _ _ hcodec', State.tokByte_eq _ _ _ _ hcodec, hflags]
      · exact State.tokByte_congr _ _ d a (hframe.codecs d (by simpa using hd)) }

/-! ### What CSEND and CUI answer for an instance that exists (R149, R152) -/

theorem exec_csend_of_emit {code : Byte} {value : Word} {e : Bool} {n : Nat} (ht : s.transport? c.toNat = some t)
    (hl : isLetter code = true) (he : t.emit s.settings.eol false (frame code value) = some (t', e, n)) :
    exec (.csend c code value) s = .next ((s.setTransport c.toNat t').respond .csend (emitRes e n) []) := by
  simp only [exec, execCsend, ht, hl, he, if_true]

theorem exec_csend_of_not_letter {code : Byte} (value : Word) (ht : s.transport? c.toNat = some t)
    (hl : isLetter code = false) :
    exec (.csend c code value) s = .next (s.raise Op.csend.code .badOperand) := by
  simp only [exec, execCsend, ht, hl, Bool.false_eq_true, if_false]

theorem exec_cui_of_emit {ch : Byte} {e : Bool} {n : Nat} (ht : s.transport? c.toNat = some t)
    (hp : isPrintable ch = true) (he : t.emit s.settings.eol true [ch] = some (t', e, n)) :
    exec (.cui c ch) s = .next ((s.setTransport c.toNat t').respond .cui (emitRes e n) []) := by
  simp only [exec, execCui, ht, hp, he, if_true]

theorem exec_cui_of_not_printable {ch : Byte} (ht : s.transport? c.toNat = some t)
    (hp : isPrintable ch = false) : exec (.cui c ch) s = .next (s.respond .cui 0 []) := by
  simp only [exec, execCui, ht, hp, Bool.false_eq_true, if_false]

end

/-- Settles O26: `dec_spec` and `dec_head` give the spelling, `State.transmitted_emit` the transmission. -/
theorem csendAppendsTheFrame : Obligations.CsendAppendsTheFrame := by
  intro s c code value hs
  refine ⟨fun hne => ?_, decode_of_encode_eq (i := .csend c code value) rfl ?_, exec_of_no_transport rfl,
    fun k q hk hq => ?_⟩
  · obtain ⟨hvalue, hdigits, hpos, hle⟩ := dec_spec value
    exact ⟨hpos, hle, fun d hd => of_decide_eq_true (hdigits d hd), dec_head value hne,
      fun v h0 hv => (decimalValue_of_recurrence _ v h0 hv).trans hvalue⟩
  · rw [zero_append_byte]; rfl
  · obtain ⟨t, ht, rfl, rfl⟩ := State.exists_transport_of_parts hk hq
    refine ⟨exec_csend_of_not_letter value ht, fun hl => ?_⟩
    obtain ⟨t', e, n, hemit, htrans⟩ := State.transmitted_emit hs ht .csend false (frame code value)
    exact ⟨_, _, e, n, exec_csend_of_emit ht hl hemit, htrans⟩

/-- Settles O27: a printable character is transmitted, and any other byte reaches no part of the instance. -/
theorem cuiAppendsPrintables : Obligations.CuiAppendsPrintables := by
  intro s c ch hs
  refine ⟨decode_of_encode_eq (i := .cui c ch) rfl ?_, exec_of_no_transport rfl, fun k q hk hq => ?_⟩
  · rw [zero_append_byte]; rfl
  · obtain ⟨t, ht, rfl, rfl⟩ := State.exists_transport_of_parts hk hq
    refine ⟨fun hout => ?_, fun hlo hhi => ?_⟩
    · exact exec_cui_of_not_printable ht (decide_eq_false (by omega))
    · obtain ⟨t', e, n, hemit, htrans⟩ := State.transmitted_emit hs ht .cui true [ch]
      exact ⟨_, _, e, n, exec_cui_of_emit ht (decide_eq_true ⟨hlo, hhi⟩) hemit, htrans⟩

end Sys2Proof.Machine

/-! The statements of 42_qenc.md. An edge of an encoder that exists records one sample, the same for both channels but
for the sense (`step_edge`). ESYNC of one answers by the speed policy alone: the policy gives a rate, and the encoder is
read and reset (`exec_esync_of_rate`), or it gives none, and EncDiv0 is raised (`exec_esync_of_no_rate`); which of the
two, and which rate, is said once for each branch of the policy. -/
namespace Sys2Proof.Machine

/-! ### Edges (R171, R172) -/

/-- The step of an edge event of an encoder that exists, of whichever channel `i` is, with the sense that channel
gives. -/
theorem step_edge {s : State} {e : Nat} {n : Enc} {i : Input} {rest : List Input} (sense : Sense)
    (hi : runInput i = eventEdge e sense) (hn : s.enc? e = some n) (hin : s.inputs = i :: rest) :
    step s = .next { s with
      inputs := rest
      response := none
      encs := s.encs.set e (n.edge s.time sense) } := by
  have hn' : ({ s with inputs := rest } : State).enc? e = some n := hn
  rw [step_cons s i rest hin, hi, eventEdge, hn']
  rfl

/-- Settles O31: both channels are `step_edge`, each with its own sense. -/
theorem edgesCountAndTimeStamp : Obligations.EdgesCountAndTimeStamp := by
  intro s e a b n rest hn
  exact ⟨step_edge (senseA a b) rfl hn, step_edge (senseB a b) rfl hn⟩

/-! ### The branches of the speed policy (R173, R174, R177) -/

section
variable {c li cpr el : Nat}

theorem syncRate_of_lt_two (sg : Int) (hc : c < 2) : syncRate c li sg el cpr = some (.zero, 0) :=
  if_pos hc

theorem syncRate_fast_eq_none (sg : Int) (hc : 2 ≤ c) (hli : li < c) (hd : cpr * el = 0) :
    syncRate c li sg el cpr = none := by
  rw [syncRate, if_neg (not_lt.mpr hc), if_pos hli, if_pos hd]

theorem syncRate_fast (sg : Int) (hc : 2 ≤ c) (hli : li < c) (hd : cpr * el ≠ 0) :
    syncRate c li sg el cpr = some (.fast, rdiv (sg * c * 1000 * 65536) (cpr * el)) := by
  have hnum : sg * (c * Config.timeHz * Config.qOne : Nat) = sg * c * 1000 * 65536 := by
    simp only [Nat.cast_mul, Config.timeHz, Config.qOne, Nat.cast_ofNat, mul_assoc]
  rw [syncRate, if_neg (not_lt.mpr hc), if_pos hli, if_neg hd, hnum]

theorem syncRate_slow_eq_none (sg : Int) (hc : 2 ≤ c) (hli : c ≤ li) (hd : cpr = 0) :
    syncRate c li sg el cpr = none := by
  rw [syncRate, if_neg (not_lt.mpr hc), if_neg (not_lt.mpr hli), if_pos hd]

theorem syncRate_slow (sg : Int) (hc : 2 ≤ c) (hli : c ≤ li) (hd : cpr ≠ 0) :
    syncRate c li sg el cpr = some (.slow, rdiv (sg * 1000 * 65536) (cpr * li)) := by
  have hnum : sg * (Config.timeHz * Config.qOne : Nat) = sg * 1000 * 65536 := by
    simp only [Nat.cast_mul, Config.timeHz, Config.qOne, Nat.cast_ofNat, mul_assoc]
  rw [syncRate, if_neg (not_lt.mpr hc), if_neg (not_lt.mpr hli), if_neg hd, hnum]

end

/-! ### What ESYNC answers (R173) -/

theorem bitWord_eq_shiftLeft (k : Nat) : bitWord k = (1 : Word) <<< k := by
  have hone : (1 : Word).toNat = 1 := rfl
  apply BitVec.eq_of_toNat_eq
  rw [bitWord, BitVec.toNat_ofNat, BitVec.toNat_shiftLeft, hone, Nat.one_shiftLeft]

section
variable {s : State} {e : Byte} {n : Enc}

/-- An encoder from `NENC` on does not exist. -/
theorem exec_esync_of_no_enc (he : s.encs.length ≤ e.toNat) :
    exec (.esync e) s = .next (s.raise Op.esync.code .badInstance) := by
  rw [← State.enc_eq_none] at he
  simp only [exec, execEsync, he]

/-- Where the policy gives no rate, EncDiv0 is raised and nothing is reset. -/
theorem exec_esync_of_no_rate (hn : s.enc? e.toNat = some n) (hr : n.rate s.time = none) :
    exec (.esync e) s = .next (s.raise Op.esync.code .encDiv0) := by
  simp only [exec, execEsync, hn, hr]

/-- Where the policy gives a rate, the encoder is read and reset, a clip of the rate is recorded, and the answer is
the branch and the clipped rate. -/
theorem exec_esync_of_rate {branch : SyncBranch} {q : Int} (hn : s.enc? e.toNat = some n)
    (hr : n.rate s.time = some (branch, q)) :
    exec (.esync e) s = .next { s with
      encs := s.encs.set e.toNat (n.synced s.time)
      statusReg := if satW q ≠ q then s.statusReg ||| ((1 : Word) <<< (8 + e.toNat)) else s.statusReg
      response := some ⟨respHeader Op.esync.code 0 (branchCode branch), [u32 (satW q)]⟩ } := by
  have hflag : setSticky s.statusReg (encsatBit e.toNat) (satW q != q)
      = if satW q ≠ q then s.statusReg ||| ((1 : Word) <<< (8 + e.toNat)) else s.statusReg := by
    simp only [setSticky, bitWord_eq_shiftLeft, encsatBit, bne_iff_ne]
  rw [← hflag]
  simp only [exec, execEsync, hn, hr]
  rfl

end

/-- Settles O33: the branch of the policy gives the rate or none, and ESYNC answers it. -/
theorem esyncAppliesTheSpeedPolicy : Obligations.EsyncAppliesTheSpeedPolicy := by
  intro s e
  refine ⟨decode_of_encode_eq (i := .esync e) rfl rfl, exec_esync_of_no_enc, ?_⟩
  intro n done c li cpr el sg hn hc hli hel hcpr hsg hdone
  have hrate : n.rate s.time = syncRate c li sg el cpr := by
    rw [hc, hli, hel, hcpr, hsg]
    rfl
  have answers {branch : SyncBranch} {q : Int} (h : syncRate c li sg el cpr = some (branch, q)) :
      exec (.esync e) s = .next (done (branchCode branch) q) := by
    rw [hdone]
    exact exec_esync_of_rate hn (hrate.trans h)
  have raises (h : syncRate c li sg el cpr = none) : exec (.esync e) s = .next (s.raise 0x20 .encDiv0) :=
    exec_esync_of_no_rate hn (hrate.trans h)
  exact ⟨fun h2 => answers (syncRate_of_lt_two sg h2),
    fun h2 hlt hd => raises (syncRate_fast_eq_none sg h2 hlt hd),
    fun h2 hlt hd => answers (syncRate_fast sg h2 hlt hd),
    fun h2 hle hd => raises (syncRate_slow_eq_none sg h2 hle hd),
    fun h2 hle hd => answers (syncRate_slow sg h2 hle hd)⟩

end Sys2Proof.Machine

/-! The statements of 43_pid.md. The exact quantities of the datapath of R200, the rate, the increment and the weighted
sum, have names here, and the fields of `pidCompute` are equations in them. PUPDATE is one pass of the datapath
(`exec_pupdate_of_axis`); CUPDATE is three passes with the slip clamp between (`exec_cupdate_of_dt`), which PUPDATE
performs one by one because no pass reads the answer of the one before (`State.pidUpdate_respond`). -/
namespace Sys2Proof.Machine

/-! ### The primitives (R8, R192) -/

theorem satW_mono {v w : Int} (h : v ≤ w) : satW v ≤ satW w := by
  unfold satW; omega

/-- Narrowing what is in range already changes nothing: a word is. -/
theorem satW_s32 (w : Word) : satW (s32 w) = s32 w :=
  satW_of_range _ (s32_range w).1 (s32_range w).2

/-- A factor common to both sides of the quotient cancels. -/
theorem rdiv_mul_mul_right (n : Int) (d k : Nat) (hk : 0 < k) : rdiv (n * k) (d * k) = rdiv n d := by
  have hsign : (n * (k : Int)).sign = n.sign := by
    rw [Int.sign_mul, Int.sign_eq_one_of_pos (a := (k : Int)) (by omega), mul_one]
  have hnum : 2 * (n * (k : Int)).natAbs + d * k = (2 * n.natAbs + d) * k := by
    rw [Int.natAbs_mul, Int.natAbs_natCast]; ring
  have hden : 2 * (d * k) = 2 * d * k := by ring
  rw [rdiv, rdiv, hsign, hnum, hden, Nat.mul_div_mul_right _ _ hk]

theorem rdiv_nonneg {n : Int} (h : 0 ≤ n) {d : Nat} (hd : 0 < d) : 0 ≤ rdiv n d := by
  obtain ⟨a, rfl⟩ := Int.eq_ofNat_of_zero_le h
  rw [rdiv_natCast a d hd]
  exact Int.natCast_nonneg _

/-! ### The datapath (R200) -/

/-- The rate of change of the error before it is narrowed, for the error `e` (R200). -/
def pidRate (st : PidState) (e : Int) (dt : Nat) : Int := rdiv ((e - s32 st.prevErr) * 1000) dt

/-- What the trapezoid adds to the integral, for the error `e` (R200). -/
def pidIncrement (st : PidState) (e : Int) (dt : Nat) : Int := rdiv ((e + s32 st.prevErr) * dt) 2000

/-- The weighted sum of the error, the integral and the rate, before it is scaled (R200). -/
def pidSum (g : Gains) (e integ rate : Int) : Int := s32 g.kp * e + s32 g.ki * integ + s32 g.kd * rate

section
variable {g : Gains} {st : PidState} {target actual : Int} {dt : Nat} {r : PidResult}

theorem pidCompute_err (hr : r = pidCompute g st target actual dt) : r.err = satW (target - actual) := by
  subst hr; rfl

theorem pidCompute_integ (hr : r = pidCompute g st target actual dt) :
    r.integ = satW (s32 st.integ + pidIncrement st r.err dt) := by
  subst hr; rfl

theorem pidCompute_out (hr : r = pidCompute g st target actual dt) :
    r.out = satW (rdiv (pidSum g r.err r.integ (satW (pidRate st r.err dt))) 65536) := by
  subst hr; rfl

theorem pidCompute_cmd (hr : r = pidCompute g st target actual dt) :
    r.cmd = sat16 (rdiv (pidSum g r.err r.integ (satW (pidRate st r.err dt))) 4294967296) := by
  subst hr; rfl

/-- PIDSAT stays as it is exactly when none of the five narrowings changed its argument (R205). -/
theorem pidCompute_not_clipped_iff (hr : r = pidCompute g st target actual dt) :
    r.clipped = false ↔
      r.err = target - actual ∧ satW (pidRate st r.err dt) = pidRate st r.err dt ∧
        r.integ = s32 st.integ + pidIncrement st r.err dt ∧
        r.out = rdiv (pidSum g r.err r.integ (satW (pidRate st r.err dt))) 65536 ∧
        r.cmd = rdiv (pidSum g r.err r.integ (satW (pidRate st r.err dt))) 4294967296 := by
  subst hr
  simp only [pidCompute, Bool.or_eq_false_iff, bne_eq_false_iff_eq, and_assoc]
  rfl

end

/-- Settles O36: with no clip each field is its exact quantity, and `rdiv_nearest` bounds each of the four
roundings. -/
theorem noClipMeansRoundingOnly : Obligations.NoClipMeansRoundingOnly := by
  intro g st target actual dt r hdt hr hclip
  obtain ⟨herr, hrate, hinteg, hout, hcmd⟩ := (pidCompute_not_clipped_iff hr).mp hclip
  rw [hrate] at hout hcmd
  refine ⟨herr, pidRate st r.err dt, pidIncrement st r.err dt, _, (rdiv_nearest _ dt hdt).1,
    (rdiv_nearest _ 2000 (by decide)).1, hinteg, rfl, ?_, ?_⟩
  · rw [hout]; exact (rdiv_nearest _ 65536 (by decide)).1
  · rw [hcmd]; exact (rdiv_nearest _ 4294967296 (by decide)).1

/-! ### Properties of the datapath (R206, R207) -/

/-- With `KP = 1.0` and the other gains 0 the weighted sum is the error, up to the scale of a gain. -/
theorem pidSum_unit_kp (e integ rate : Int) :
    pidSum { kp := 0x00010000, ki := 0, kd := 0 } e integ rate = e * (65536 : Nat) := by
  have hone : s32 0x00010000 = 65536 := rfl
  have hzero : s32 0 = 0 := rfl
  simp only [pidSum, hone, hzero]
  omega

/-- R207 (a): the scale of the gain cancels, and an error is in range already. -/
theorem pidCompute_unit_kp {st : PidState} {target actual : Int} {dt : Nat} {r : PidResult}
    (hr : r = pidCompute { kp := 0x00010000, ki := 0, kd := 0 } st target actual dt) :
    r.out = r.err ∧ r.cmd = sat16 (rdiv r.err 65536) := by
  have herr : satW r.err = r.err := by
    rw [pidCompute_err hr]; exact satW_of_range _ (satW_range _).1 (satW_range _).2
  constructor
  · rw [pidCompute_out hr, pidSum_unit_kp, rdiv_mul _ _ (by decide), herr]
  · rw [pidCompute_cmd hr, pidSum_unit_kp, ← rdiv_mul_mul_right r.err 65536 65536 (by decide)]

/-- R207 (b): error 0 after error 0 leaves no rate and no increment, so that the integral alone is weighted. -/
theorem pidCompute_error_stays_zero {g : Gains} {st : PidState} {v : Int} {dt : Nat} {r : PidResult}
    (hr : r = pidCompute g st v v dt) (hprev : st.prevErr = 0) :
    r.err = 0 ∧ r.integ = s32 st.integ ∧
      pidSum g r.err r.integ (satW (pidRate st r.err dt)) = s32 g.ki * s32 st.integ := by
  have hp : s32 st.prevErr = 0 := by rw [hprev]; rfl
  have herr : r.err = 0 := by rw [pidCompute_err hr, sub_self]; rfl
  have hrate : satW (pidRate st r.err dt) = 0 := by
    rw [pidRate, herr, hp, sub_zero, zero_mul, rdiv_zero]; rfl
  have hinteg : r.integ = s32 st.integ := by
    rw [pidCompute_integ hr, pidIncrement, herr, hp, add_zero, zero_mul, rdiv_zero, add_zero, satW_s32]
  refine ⟨herr, hinteg, ?_⟩
  rw [hrate, herr, hinteg, pidSum, mul_zero, mul_zero, zero_add, add_zero]

/-- Settles O37: the two properties of the document, each a lemma about the datapath. -/
theorem documentTestProperties : Obligations.DocumentTestProperties := by
  refine ⟨fun st target actual dt _ => pidCompute_unit_kp rfl, fun g st v dt _ hprev => ?_⟩
  intro r
  have hr : r = pidCompute g st v.toInt v.toInt dt := rfl
  obtain ⟨herr, hinteg, hsum⟩ := pidCompute_error_stays_zero hr hprev
  have hout := pidCompute_out hr
  have hcmd := pidCompute_cmd hr
  rw [hsum] at hout hcmd
  refine ⟨herr, hinteg, hout, fun hzero => ?_⟩
  have hi : s32 st.integ = 0 := by rw [hzero]; rfl
  rw [hi, mul_zero, rdiv_zero] at hout hcmd
  exact ⟨hout, hcmd⟩

/-- Settles O38: the integral is the narrowed sum of the rail and the increment, and the increment has the sign of
the sum of the two errors. -/
theorem integralStaysAtTheRail : Obligations.IntegralStaysAtTheRail := by
  intro g st target actual dt r inc _ hr hrail hinc
  have hr' : r.integ = satW (2147483647 + inc) := by
    rw [pidCompute_integ hr, hrail, hinc]; rfl
  refine ⟨fun h => ?_, fun h => ?_, fun h => ?_⟩
  · rw [hr', satW]; omega
  · rw [hr', satW]; omega
  · rw [hinc]; exact rdiv_nonneg (mul_nonneg h (Int.natCast_nonneg _)) (by decide)

/-! ### PUPDATE (R201) -/

theorem axisOf_number (x : Axis) : axisOf (BitVec.ofNat 8 x.number) = some x := by
  cases x <;> rfl

theorem axisOf_of_toNat {p : Byte} {x : Axis} (h : p.toNat = x.number) : axisOf p = some x := by
  rw [← axisOf_number x, ← h, BitVec.ofNat_toNat, BitVec.setWidth_eq]

theorem axisOf_of_three_le {p : Byte} (h : 3 ≤ p.toNat) : axisOf p = none := by
  have hne {k : Byte} (hk : k.toNat < 3) : p ≠ k := fun he => by rw [he] at h; omega
  rw [axisOf, if_neg (hne (by decide)), if_neg (hne (by decide)), if_neg (hne (by decide))]

/-- The numbers below 3 are those of the axes. -/
theorem exists_axis_of_lt_three {p : Byte} (h : p.toNat < 3) : ∃ x : Axis, p.toNat = x.number :=
  match p.toNat, h with
  | 0, _ => ⟨.vehicle, rfl⟩
  | 1, _ => ⟨.left, rfl⟩
  | 2, _ => ⟨.right, rfl⟩

/-- Every field of the state after an update (R200, R205, R215). -/
theorem State.pidUpdate_eq (s : State) (x : Axis) (target actual : Int) (dt : Nat) {r : PidResult}
    (hr : s.pidResult x target actual dt = r) :
    s.pidUpdate x target actual dt = { s with
      pid := s.pid.set x { prevErr := u32 r.err, integ := u32 r.integ }
      statusReg := setSticky s.statusReg x.number r.clipped
      actLeft := if x = .left then actValue (s.motorEn.getLsbD 0) s.settings.actMax r.cmd else s.actLeft
      actRight := if x = .right then actValue (s.motorEn.getLsbD 1) s.settings.actMax r.cmd else s.actRight } := by
  subst hr
  cases x <;> rfl

section
variable {s : State} {p : Byte} {target actual dt : Word} {x : Axis}

/-- From 3 on a number names no axis; it is checked before `dt`. -/
theorem exec_pupdate_of_no_axis (hp : 3 ≤ p.toNat) :
    exec (.pupdate p target actual dt) s = .next (s.raise Op.pupdate.code .badInstance) := by
  simp only [exec, execPupdate, axisOf_of_three_le hp]

theorem exec_pupdate_of_dt_zero (hp : p.toNat = x.number) (hdt : dt = 0) :
    exec (.pupdate p target actual dt) s = .next (s.raise Op.pupdate.code .pidDt0) := by
  simp only [exec, execPupdate, axisOf_of_toNat hp, if_pos hdt]

/-- PUPDATE of an axis is one pass of the datapath, answered by the command and the output. -/
theorem exec_pupdate_of_axis (hp : p.toNat = x.number) (hdt : dt ≠ 0) {r : PidResult}
    (hr : s.pidResult x (s32 target) (s32 actual) dt.toNat = r) :
    exec (.pupdate p target actual dt) s =
      .next ((s.pidUpdate x (s32 target) (s32 actual) dt.toNat).respond .pupdate
        (BitVec.ofInt 16 r.cmd) [u32 r.out]) := by
  simp only [exec, execPupdate, axisOf_of_toNat hp, if_neg hdt, hr]

end

/-- Settles O35: the quantities of the statement are the fields of the datapath's result, and `State.pidUpdate_eq`
says where they go. -/
theorem pupdateRunsTheDatapath : Obligations.PupdateRunsTheDatapath := by
  intro s p target actual dt
  refine ⟨decode_of_encode_eq (i := .pupdate p target actual dt) rfl rfl, exec_pupdate_of_no_axis,
    fun hp hdt => ?_, ?_⟩
  · obtain ⟨x, hx⟩ := exists_axis_of_lt_three hp
    exact exec_pupdate_of_dt_zero hx hdt
  · intro x x1 e d x2 rate inc x3 ig acc x4 out x5 cmd act hp hdt hx1 he hd hx2 hrate hinc hx3 hig hacc hx4 hout
      hx5 hcmd hact
    have hr : s.pidResult x (s32 target) (s32 actual) dt.toNat =
        ⟨e, ig, out, cmd, e != x1 || rate != x2 || ig != x3 || out != x4 || cmd != x5⟩ := by
      subst x1 e d x2 rate inc x3 ig acc x4 out x5 cmd
      rfl
    have hactValue : act = fun en => actValue en s.settings.actMax cmd := by
      funext en
      rw [hact en, actValue]
      cases s.settings.actMax <;> rfl
    have hflag : setSticky s.statusReg x.number
          (e != x1 || rate != x2 || ig != x3 || out != x4 || cmd != x5) =
        if e ≠ x1 ∨ rate ≠ x2 ∨ ig ≠ x3 ∨ out ≠ x4 ∨ cmd ≠ x5
          then s.statusReg ||| ((1 : Word) <<< p.toNat) else s.statusReg := by
      simp only [setSticky, bitWord_eq_shiftLeft, hp, Bool.or_eq_true, bne_iff_ne, or_assoc]
    rw [exec_pupdate_of_axis hp hdt hr, State.pidUpdate_eq _ _ _ _ _ hr, hactValue, ← hflag]
    rfl

/-! ### The slip clamp (R211, R212, R213) -/

/-- Either reading of the outer output is in the Q range. -/
theorem outerValue_range {outerRound : Bool} {g : Gains} {st : PidState} {target actual : Int} {dt : Nat} :
    -2147483648 ≤ outerValue outerRound (pidCompute g st target actual dt) ∧
      outerValue outerRound (pidCompute g st target actual dt) ≤ 2147483647 := by
  obtain ⟨_, _, hout, hcmd⟩ := pidCompute_ranges g st target actual dt
  cases outerRound with
  | false => exact hout
  | true => simp only [outerValue, if_true, Config.qOne]; omega

/-- The slip clamp sees what PUPDATE of the outer axis answers, `res` as a Q value or the result word (R213). -/
theorem outerValue_eq_answer (outerRound : Bool) {g : Gains} {st : PidState} {target actual : Int} {dt : Nat}
    {r : PidResult} (hr : r = pidCompute g st target actual dt) :
    outerValue outerRound r =
      if outerRound then (BitVec.ofInt 16 r.cmd).toInt * 65536 else (BitVec.ofInt 32 r.out).toInt := by
  obtain ⟨_, _, hout, hcmd⟩ := pidCompute_ranges g st target actual dt
  rw [← hr] at hout hcmd
  have hword : (BitVec.ofInt 32 r.out).toInt = r.out := s32_u32 _ hout.1 hout.2
  rw [toInt_ofInt16 _ hcmd.1 hcmd.2, hword]
  rfl

theorem slipClamp_fst (o va : Int) (sl : Nat) :
    (slipClamp o va sl).1 = if sl = 0 then o else min (max o (satW (va - sl))) (satW (va + sl)) := by
  rw [slipClamp]; split <;> rfl

theorem slipClamp_snd_iff (o va : Int) (sl : Nat) :
    (slipClamp o va sl).2 = true ↔ sl ≠ 0 ∧ (satW (va - sl) ≠ va - sl ∨ satW (va + sl) ≠ va + sl) := by
  rw [slipClamp]
  split
  · next h => simp [h]
  · next h => simp [h]

/-- The inner target is in the Q range where the outer value is. -/
theorem slipClamp_range {o : Int} (ho : -2147483648 ≤ o ∧ o ≤ 2147483647) (va : Int) (sl : Nat) :
    -2147483648 ≤ (slipClamp o va sl).1 ∧ (slipClamp o va sl).1 ≤ 2147483647 := by
  have hlo := satW_range (va - sl)
  have hhi := satW_range (va + sl)
  rw [slipClamp_fst]
  split
  · exact ho
  · omega

/-- With a tolerance the inner target is in the band, whose edges keep their order when they are narrowed (R212). -/
theorem slipClamp_mem_band (o va : Int) {sl : Nat} (hsl : sl ≠ 0) :
    satW (va - sl) ≤ (slipClamp o va sl).1 ∧ (slipClamp o va sl).1 ≤ satW (va + sl) := by
  have hedges : satW (va - sl) ≤ satW (va + sl) := satW_mono (by omega)
  rw [slipClamp_fst, if_neg hsl]
  omega

/-! ### CUPDATE (R211) -/

/-- What the outer update yields: axis 0 with VTARGET as its target (R211). -/
def State.outerResult (s : State) (va dt : Word) : PidResult :=
  s.pidResult .vehicle (s32 s.vtarget) (s32 va) dt.toNat

/-- The inner target of a cascade, and whether an edge of its band was clipped (R211). -/
def State.innerTarget (s : State) (va dt : Word) : Int × Bool :=
  slipClamp (outerValue s.settings.outerRound (s.outerResult va dt)) (s32 va) s.slip.toNat

/-- The state after the outer update and the slip clamp, in which the inner updates run (R211). -/
def State.outerLoop (s : State) (va dt : Word) : State :=
  (s.pidUpdate .vehicle (s32 s.vtarget) (s32 va) dt.toNat).flagStatus Axis.vehicle.number (s.innerTarget va dt).2

/-- The state after the whole cascade, before the answer (R211). -/
def State.cascade (s : State) (va la ra dt : Word) : State :=
  ((s.outerLoop va dt).pidUpdate .left (s.innerTarget va dt).1 (s32 la) dt.toNat).pidUpdate .right
    (s.innerTarget va dt).1 (s32 ra) dt.toNat

/-- The inner target is read back from the word that carries it. -/
theorem State.s32_u32_innerTarget (s : State) (va dt : Word) :
    s32 (u32 (s.innerTarget va dt).1) = (s.innerTarget va dt).1 := by
  have hrange : -2147483648 ≤ (s.innerTarget va dt).1 ∧ (s.innerTarget va dt).1 ≤ 2147483647 :=
    slipClamp_range outerValue_range _ _
  exact s32_u32 _ hrange.1 hrange.2

section
variable {s : State} {va la ra dt : Word}

theorem exec_cupdate_of_dt_zero (hdt : dt = 0) :
    exec (.cupdate va la ra dt) s = .next (s.raise Op.cupdate.code .pidDt0) := by
  simp only [exec, execCupdate, if_pos hdt]

theorem exec_cupdate_of_dt (hdt : dt ≠ 0) :
    exec (.cupdate va la ra dt) s = .next ((s.cascade va la ra dt).respond .cupdate 0
      [u32 (s.innerTarget va dt).1, sext32 (s.cascade va la ra dt).actLeft,
        sext32 (s.cascade va la ra dt).actRight]) := by
  simp only [exec, execCupdate, if_neg hdt]
  rfl

end

/-- Settles O40: the answer carries the inner target, which the slip clamp puts in the band. -/
theorem innerTargetStaysInTheBand : Obligations.InnerTargetStaysInTheBand := by
  intro s va la ra dt hdt hslip
  have hsl : s.slip.toNat ≠ 0 := fun h => hslip (BitVec.eq_of_toNat_eq h)
  have hread := s.s32_u32_innerTarget va dt
  rw [s32] at hread
  refine ⟨_, _, _, _, exec_cupdate_of_dt hdt, rfl, ?_⟩
  rw [hread]
  exact slipClamp_mem_band _ _ hsl

/-! ### The updates of CUPDATE are those of PUPDATE (R211) -/

/-- An update does not read the answer of the step before, and keeps it. -/
theorem State.pidUpdate_respond (s : State) (op : Op) (res : Half) (ws : List Word) (x : Axis)
    (target actual : Int) (dt : Nat) :
    (s.respond op res ws).pidUpdate x target actual dt = (s.pidUpdate x target actual dt).respond op res ws := by
  cases x <;> rfl

/-- PUPDATE after an answered step does what it does before that answer; `t` is the target its word carries. -/
theorem exec_pupdate_respond {p : Byte} {x : Axis} {target actual dt : Word} {t : Int} (hp : p.toNat = x.number)
    (hdt : dt ≠ 0) (ht : s32 target = t) (s : State) (op : Op) (res : Half) (ws : List Word) :
    ∃ res' ws', exec (.pupdate p target actual dt) (s.respond op res ws) =
      .next ((s.pidUpdate x t (s32 actual) dt.toNat).respond .pupdate res' ws') := by
  rw [exec_pupdate_of_axis hp hdt rfl, ht, State.pidUpdate_respond, State.respond_respond]
  exact ⟨_, _, rfl⟩

section
variable (s : State) (va dt : Word)

/-- The state after PUPDATE 0 with VTARGET, its answer in it (R201). -/
def State.outerAnswered : State :=
  (s.pidUpdate .vehicle (s32 s.vtarget) (s32 va) dt.toNat).respond .pupdate
    (BitVec.ofInt 16 (s.outerResult va dt).cmd) [u32 (s.outerResult va dt).out]

theorem State.innerTarget_fst :
    (s.innerTarget va dt).1 =
      if s.slip = 0 then outerValue s.settings.outerRound (s.outerResult va dt)
      else min (max (outerValue s.settings.outerRound (s.outerResult va dt)) (satW (s32 va - s.slip.toNat)))
        (satW (s32 va + s.slip.toNat)) := by
  have hslip : s.slip.toNat = 0 ↔ s.slip = 0 := BitVec.toNat_inj (y := 0)
  rw [State.innerTarget, slipClamp_fst]
  exact if_congr hslip rfl rfl

theorem State.innerTarget_snd_iff :
    (s.innerTarget va dt).2 = true ↔ s.slip ≠ 0 ∧
      (satW (s32 va - s.slip.toNat) ≠ s32 va - s.slip.toNat ∨
        satW (s32 va + s.slip.toNat) ≠ s32 va + s.slip.toNat) := by
  have hslip : s.slip.toNat ≠ 0 ↔ s.slip ≠ 0 := (BitVec.toNat_inj (y := 0)).not
  rw [State.innerTarget, slipClamp_snd_iff, hslip]

/-- The inner updates run in the state of the outer one, with the slip flag, which is bit 0 of STATUS. -/
theorem State.outerLoop_respond :
    (s.outerLoop va dt).respond .pupdate (BitVec.ofInt 16 (s.outerResult va dt).cmd)
        [u32 (s.outerResult va dt).out] =
      if (s.innerTarget va dt).2 then
        { s.outerAnswered va dt with statusReg := (s.outerAnswered va dt).statusReg ||| 1 }
      else s.outerAnswered va dt := by
  rw [State.outerLoop]
  cases (s.innerTarget va dt).2 <;> rfl

end

/-- Settles O39: the inner updates of the cascade are PUPDATE 1 and PUPDATE 2 with the inner target, the answers
apart, and CUPDATE puts its own answer in their place. -/
theorem cupdateIsThreeUpdates : Obligations.CupdateIsThreeUpdates := by
  intro s va la ra dt
  refine ⟨decode_of_encode_eq (i := .cupdate va la ra dt) rfl rfl, exec_cupdate_of_dt_zero, fun hdt => ?_⟩
  have hread := s.s32_u32_innerTarget va dt
  have hstart := (s.outerLoop_respond va dt).trans (if_congr (s.innerTarget_snd_iff va dt) rfl rfl)
  obtain ⟨res1, ws1, hleft⟩ := exec_pupdate_respond (p := 1) (x := .left) (actual := la) rfl hdt hread
    (s.outerLoop va dt) .pupdate (BitVec.ofInt 16 (s.outerResult va dt).cmd) [u32 (s.outerResult va dt).out]
  obtain ⟨_, _, hright⟩ := exec_pupdate_respond (p := 2) (x := .right) (actual := ra) rfl hdt hread
    ((s.outerLoop va dt).pidUpdate .left (s.innerTarget va dt).1 (s32 la) dt.toNat) .pupdate res1 ws1
  exact ⟨s.outerAnswered va dt, _, _, _, _, _, _, _, _, exec_pupdate_of_axis rfl hdt rfl, rfl,
    outerValue_eq_answer _ rfl, rfl, rfl, s.innerTarget_fst va dt, (congrArg _ hstart).symm.trans hleft, hright,
    exec_cupdate_of_dt hdt⟩

end Sys2Proof.Machine

/-! The statements of 44_sched.md. A tick is one equation in the decade counters (`Sched.tick_fst`) and reaches as far as
they roll over (`Sched.le_tick_reach_iff`); a TPOLL that finds a tick due dispatches that tick and answers `pollRes`
(`exec_tpoll_of_tick`). What the polls do to the phase and to the backlog is read off that; every other operation runs
alike whatever the phase is (`exec_withPhase`). -/
namespace Sys2Proof.Machine

/-! ### One tick (R232, R233) -/

/-- The counters after a tick: each advances where all faster ones roll over, and the phase stays. -/
theorem Sched.tick_fst (k : Sched) :
    k.tick.1 =
      { lastMs := k.lastMs + 1
        d10 := if k.d10 + 1 = 10 then 0 else k.d10 + 1
        d100 := if k.d10 + 1 ≠ 10 then k.d100 else if k.d100 + 1 = 10 then 0 else k.d100 + 1
        d1000 := if k.d10 + 1 ≠ 10 ∨ k.d100 + 1 ≠ 10 then k.d1000
          else if k.d1000 + 1 = 10 then 0 else k.d1000 + 1
        phase := k.phase } := by
  rcases k.tick_cases with ⟨h1, e⟩ | ⟨h1, h2, e⟩ | ⟨h1, h2, h3, e⟩ | ⟨h1, h2, h3, e⟩ <;> rw [e] <;> simp [*]

/-- There are three levels beyond the millisecond. -/
theorem Sched.tick_reach_le (k : Sched) : k.tick.2 ≤ 3 := by
  rcases k.tick_cases with ⟨-, e⟩ | ⟨-, -, e⟩ | ⟨-, -, -, e⟩ | ⟨-, -, -, e⟩ <;> simp [e]

/-- A tick reaches a level exactly when all faster counters roll over. -/
theorem Sched.le_tick_reach_iff (k : Sched) :
    (1 ≤ k.tick.2 ↔ k.d10 + 1 = 10) ∧ (2 ≤ k.tick.2 ↔ k.d10 + 1 = 10 ∧ k.d100 + 1 = 10) ∧
      (3 ≤ k.tick.2 ↔ k.d10 + 1 = 10 ∧ k.d100 + 1 = 10 ∧ k.d1000 + 1 = 10) := by
  rcases k.tick_cases with ⟨h1, e⟩ | ⟨h1, h2, e⟩ | ⟨h1, h2, h3, e⟩ | ⟨h1, h2, h3, e⟩ <;> rw [e] <;> simp [*]

/-- The mask of a tick has the bits up to the level it reaches. -/
theorem tickMask_getLsbD (reach : Nat) {i : Nat} (hi : i < 16) : (tickMask reach).getLsbD i = true ↔ i ≤ reach := by
  rw [tickMask, BitVec.getLsbD_ofNat, Nat.testBit_two_pow_sub_one, Bool.and_eq_true, decide_eq_true_eq,
    decide_eq_true_eq]
  omega

/-! ### The tick law (R241) -/

/-- The scheduler after `n` ticks from reset: the decades of `n`. -/
def Sched.afterTicks (n : Nat) : Sched :=
  { lastMs := BitVec.ofNat 32 n, d10 := n % 10, d100 := n / 10 % 10, d1000 := n / 100 % 10, phase := .idle }

/-- A tick counts on: the next higher decade advances where this one goes from 9 to 0. -/
theorem Sched.tick_afterTicks (n : Nat) : (Sched.afterTicks n).tick.1 = Sched.afterTicks (n + 1) := by
  have hms : BitVec.ofNat 32 n + 1 = BitVec.ofNat 32 (n + 1) := (BitVec.ofNat_add n 1).symm
  simp only [Sched.tick_fst, Sched.afterTicks, hms, Sched.mk.injEq, true_and, and_true]
  refine ⟨?_, ?_, ?_⟩
  all_goals split_ifs <;> omega

theorem Sched.iterate_tick_init (n : Nat) :
    (fun j : Sched => j.tick.1)^[n] Sched.init = Sched.afterTicks n := by
  induction n with
  | zero => rfl
  | succ n ih => rw [Function.iterate_succ_apply', ih, Sched.tick_afterTicks]

/-- Settles O46: after `n` ticks the counters are the decades of `n`, and the next tick reaches a level exactly when
the decades below it are all 9. -/
theorem tickLaw : Obligations.TickLaw := by
  rintro n k rfl
  rw [Sched.iterate_tick_init]
  obtain ⟨h10, h100, h1000⟩ := (Sched.afterTicks n).le_tick_reach_iff
  refine ⟨rfl, rfl, rfl, rfl, ?_, ?_, ?_⟩
  · rw [tickMask_getLsbD _ (by decide), h10]
    simp only [Sched.afterTicks]; omega
  · rw [tickMask_getLsbD _ (by decide), h100]
    simp only [Sched.afterTicks]; omega
  · rw [tickMask_getLsbD _ (by decide), h1000]
    simp only [Sched.afterTicks]; omega

/-! ### The strobe (R231) -/

/-- Settles O41: the step takes the strobe and runs it. -/
theorem mstickAddsOne : Obligations.MstickAddsOne :=
  fun s rest hin => step_cons s .mstick rest hin

/-! ### What TPOLL answers (R233) -/

/-- The answer of a TPOLL that dispatches a tick: the mask, and `CTRL` where it has the bit of `CTRL_LEVEL`. -/
def pollRes (reach : Nat) (level : TickLevel) : Half :=
  if (tickMask reach).getLsbD (levelBit level) then tickMask reach ||| 0x0010 else tickMask reach

/-- `CTRL` is above the bits of the levels. -/
theorem pollRes_level (reach : Nat) (level : TickLevel) {i : Nat} (hi : i < 4) :
    (pollRes reach level).getLsbD i = (tickMask reach).getLsbD i := by
  have hbit : ∀ j : Fin 4, (0x0010 : Half).getLsbD j = false := by decide
  unfold pollRes
  split
  · rw [BitVec.getLsbD_or, hbit ⟨i, hi⟩, Bool.or_false]
  · rfl

section
variable {reach : Nat} (h : reach ≤ 3) (level : TickLevel)
include h

/-- The answer has no bit beyond `CTRL`. -/
theorem pollRes_lt : (pollRes reach level).toNat < 32 := by
  have hall : ∀ r : Fin 4, (tickMask r ||| 0x0010).toNat < 32 ∧ (tickMask r).toNat < 32 := by decide
  obtain ⟨hctrl, hmask⟩ := hall ⟨reach, Nat.lt_succ_of_le h⟩
  unfold pollRes
  split
  · exact hctrl
  · exact hmask

/-- `CTRL` is above the mask, too: a tick reaches at most level 3. -/
theorem pollRes_control : (pollRes reach level).getLsbD 4 = (tickMask reach).getLsbD (levelBit level) := by
  have hmask : ¬ (tickMask reach).getLsbD 4 = true := by
    rw [tickMask_getLsbD _ (by decide)]; omega
  unfold pollRes
  split
  · next hc => rw [BitVec.getLsbD_or, hc]; exact Bool.or_true _
  · next hc => rw [Bool.eq_false_of_not_eq_true hmask, Bool.eq_false_of_not_eq_true hc]

end

theorem levelBit_lt (level : TickLevel) : levelBit level < 4 := by cases level <;> decide

section
variable {s t : State}

/-- What TPOLL does when a tick is due: it dispatches that tick, and the control sequence starts where the answer has
`CTRL`. -/
theorem exec_tpoll_of_tick (hidle : s.sched.phase = .idle) (hdue : s.time ≠ s.sched.lastMs) {m : Half}
    (hm : m = pollRes s.sched.tick.2 s.settings.ctrlLevel) :
    exec .tpoll s = .next ({ s with
      sched := { s.sched.tick.1 with phase := if m.getLsbD 4 then .sync else .idle } }.respond .tpoll m []) := by
  have hphase : s.sched.tick.1.phase = .idle := by rw [Sched.tick_fst]; exact hidle
  rw [hm, pollRes_control s.sched.tick_reach_le]
  refine (execTpoll_of_tick s hidle hdue).trans ?_
  unfold pollRes
  dsimp only
  split
  · rfl
  · rw [← hphase]

/-- Settles O42: the three answers of TPOLL, the third with `pollRes` for the mask. -/
theorem tpollDispatchesOneTick : Obligations.TpollDispatchesOneTick := by
  intro s
  refine ⟨decode_of_encode_eq (i := .tpoll) rfl rfl, execTpoll_of_busy s, execTpoll_of_noTick s,
    fun hidle hdue => ⟨pollRes s.sched.tick.2 s.settings.ctrlLevel, ?_, ?_⟩⟩
  · rw [exec_tpoll_of_tick hidle hdue rfl, Sched.tick_fst]
    rfl
  · have hle := s.sched.tick_reach_le
    obtain ⟨h10, h100, h1000⟩ := s.sched.le_tick_reach_iff
    have level {i : Nat} (hi : i < 4) :
        (pollRes s.sched.tick.2 s.settings.ctrlLevel).getLsbD i = true ↔ i ≤ s.sched.tick.2 := by
      rw [pollRes_level _ _ hi, tickMask_getLsbD _ (by omega)]
    refine ⟨pollRes_lt hle _, (level (by decide)).mpr (Nat.zero_le _), (level (by decide)).trans h10,
      (level (by decide)).trans h100, (level (by decide)).trans h1000, ?_⟩
    rw [pollRes_control hle, ← pollRes_level _ s.settings.ctrlLevel (levelBit_lt s.settings.ctrlLevel)]
    cases s.settings.ctrlLevel <;> rfl

/-! ### The backlog (R238) -/

/-- There is a backlog exactly when a tick is due. -/
theorem State.backlog_eq_zero_iff (s : State) : s.backlog = 0 ↔ s.time = s.sched.lastMs := by
  unfold State.backlog
  bv_omega

/-- Dispatching a tick that is due takes 1 from the backlog, also where the time counter wraps. -/
theorem State.backlog_of_tick (htime : t.time = s.time) (hms : t.sched.lastMs = s.sched.lastMs + 1)
    (hb : s.backlog ≠ 0) : t.backlog + 1 = s.backlog := by
  rw [State.backlog, htime, hms]
  unfold State.backlog at hb ⊢
  bv_omega

/-- A poll in IDLE with a backlog reports MS and takes 1 from the backlog. -/
theorem exec_tpoll_of_backlog (hidle : s.sched.phase = .idle) (hb : s.backlog ≠ 0) :
    ∃ t r, exec .tpoll s = .next t ∧ t.response = some r ∧ (responseRes r).getLsbD 0 = true ∧
      t.backlog + 1 = s.backlog := by
  refine ⟨_, _, exec_tpoll_of_tick hidle (mt s.backlog_eq_zero_iff.mpr hb) rfl, rfl, ?_, ?_⟩
  · rw [responseRes_respHeader, pollRes_level _ _ (by decide), tickMask_getLsbD _ (by decide)]
    exact Nat.zero_le _
  · exact State.backlog_of_tick rfl s.sched.tick_lastMs hb

/-- A poll outside IDLE answers BUSY; so one that does not was made in IDLE. -/
theorem phase_idle_of_not_busy {r : Response} (h : exec .tpoll s = .next t) (hr : t.response = some r)
    (hbusy : (responseRes r).getLsbD 15 = false) : s.sched.phase = .idle := by
  by_contra hne
  cases h.symm.trans (execTpoll_of_busy s hne)
  cases hr
  rw [responseRes_respHeader] at hbusy
  exact absurd hbusy (by decide)

/-- A run of one operation more is that operation and the run of the rest. -/
theorem execTrace_cons_inv {i : Instr} {is : List Instr} {rs : List Response} {u : State}
    (h : execTrace (i :: is) s = some (rs, u)) :
    ∃ t r rs', exec i s = .next t ∧ t.response = some r ∧ execTrace is t = some (rs', u) ∧ rs = r :: rs' := by
  rw [execTrace] at h
  split at h
  · next t ht =>
    split at h
    · next rs' u' hrest =>
      obtain ⟨r, hr⟩ := (exec_answered ht).response
      cases h
      exact ⟨t, r, rs', ht, hr, hrest, by rw [hr]; rfl⟩
    · cases h
  · cases h
  · cases h

/-- A run of polls within the backlog, none of them BUSY: each dispatches a tick. -/
theorem execTrace_tpoll {k : Nat} {rs : List Response} (hk : k ≤ s.backlog)
    (h : execTrace (List.replicate k .tpoll) s = some (rs, t))
    (hbusy : ∀ r ∈ rs, (responseRes r).getLsbD 15 = false) :
    rs.length = k ∧ (∀ r ∈ rs, (responseRes r).getLsbD 0 = true) ∧ t.backlog + k = s.backlog := by
  induction k generalizing s rs with
  | zero => cases h; exact ⟨rfl, fun _ hr => absurd hr List.not_mem_nil, rfl⟩
  | succ k ih =>
    obtain ⟨s1, r, rs', hs1, hr, hrest, rfl⟩ := execTrace_cons_inv h
    obtain ⟨hbusy1, hbusy'⟩ := List.forall_mem_cons.mp hbusy
    have hidle := phase_idle_of_not_busy hs1 hr hbusy1
    obtain ⟨_, _, hs1', hr', hms, hb⟩ := exec_tpoll_of_backlog hidle (by omega)
    cases hs1.symm.trans hs1'
    cases hr.symm.trans hr'
    obtain ⟨hlen, hmask, hsum⟩ := ih (by omega) hrest hbusy'
    exact ⟨congrArg (· + 1) hlen, List.forall_mem_cons.mpr ⟨hms, hmask⟩, by omega⟩

end

/-- Settles O47: one poll by `exec_tpoll_of_backlog`, a run of polls by induction on their number. -/
theorem pollsCatchUp : Obligations.PollsCatchUp := by
  refine ⟨fun s t hidle hb ht => ?_, fun s t k rs hk => execTrace_tpoll hk⟩
  obtain ⟨_, _, ht', -, -, hback⟩ := exec_tpoll_of_backlog hidle hb
  cases ht.symm.trans ht'
  exact hback

/-! ### The phase (R234, R236) -/

/-- Settles O43: in each phase the next one and its code are the table's. -/
theorem tnextEndsThePhase : Obligations.TnextEndsThePhase := by
  intro s
  refine ⟨decode_of_encode_eq (i := .tnext) rfl rfl, fun ph ph' res hmem hph => ?_⟩
  have htable : ph' = ph.next ∧ res = phaseCode ph.next := by
    simp only [List.mem_cons, List.not_mem_nil, or_false, Prod.mk.injEq] at hmem
    rcases hmem with ⟨rfl, rfl, rfl⟩ | ⟨rfl, rfl, rfl⟩ | ⟨rfl, rfl, rfl⟩ | ⟨rfl, rfl, rfl⟩ | ⟨rfl, rfl, rfl⟩ <;>
      exact ⟨rfl, rfl⟩
  obtain ⟨rfl, rfl⟩ := htable
  subst hph
  rfl

section
variable {s t : State}

theorem eq_tpoll_of_op {i : Instr} (h : i.op = .tpoll) : i = .tpoll := by
  cases i with
  | tpoll => rfl
  | _ => cases h

theorem eq_tnext_of_op {i : Instr} (h : i.op = .tnext) : i = .tnext := by
  cases i with
  | tnext => rfl
  | _ => cases h

/-- No operation but TPOLL and TNEXT writes the scheduler (R35). -/
theorem exec_sched {i : Instr} (hpoll : i ≠ .tpoll) (hnext : i ≠ .tnext) (h : exec i s = .next t) :
    t.sched = s.sched := by
  obtain ⟨-, hsched, -⟩ := stateIsOwned i s t h
  exact hsched (mt eq_tpoll_of_op hpoll) (mt eq_tnext_of_op hnext)

/-- TPOLL leaves the phase, or starts the control sequence out of IDLE. -/
theorem exec_tpoll_phase (h : exec .tpoll s = .next t) (hne : t.sched.phase ≠ s.sched.phase) :
    s.sched.phase = .idle ∧ t.sched.phase = .sync := by
  by_cases hidle : s.sched.phase = .idle
  · by_cases hdue : s.time = s.sched.lastMs
    · cases h.symm.trans (execTpoll_of_noTick s hidle hdue)
      exact absurd rfl hne
    · cases h.symm.trans (exec_tpoll_of_tick hidle hdue rfl)
      refine ⟨hidle, ?_⟩
      rw [hidle] at hne
      simpa using hne
  · cases h.symm.trans (execTpoll_of_busy s hidle)
    exact absurd rfl hne

/-- Where TNEXT moves on, it moves along the control sequence. -/
theorem Phase.next_mem {ph : Phase} (h : ph.next ≠ ph) : (ph, ph.next) ∈
    ([(.sync, .pid), (.pid, .rxdrain), (.rxdrain, .txdrain), (.txdrain, .idle)] : List (Phase × Phase)) := by
  cases ph with
  | idle => exact absurd rfl h
  | _ => decide

/-- An event other than RESET leaves the scheduler (R35). -/
theorem eventEdge_sched {e : Nat} {sense : Sense} (h : eventEdge e sense s = .next t) : t.sched = s.sched := by
  obtain ⟨n, -, rfl⟩ := eventEdge_eq_next h
  rfl

/-- An input that is not RESET writes the scheduler only if it is a packet that spells TPOLL or TNEXT. -/
theorem runInput_sched_cases {i : Input} (hi : i ≠ .reset) (h : runInput i s = .next t) :
    t.sched = s.sched ∨ ∃ p, i = .command p ∧
      (decode p = .instr .tpoll ∧ exec .tpoll s = .next t ∨ decode p = .instr .tnext ∧ exec .tnext s = .next t) := by
  cases i with
  | command p =>
    cases hd : decode p with
    | reject r =>
      cases (runCommand_reject s p r hd).symm.trans h
      exact .inl rfl
    | instr i =>
      have hexec : exec i s = .next t := (runCommand_instr s p i hd).symm.trans h
      by_cases hpoll : i = .tpoll
      · subst hpoll; exact .inr ⟨p, rfl, .inl ⟨hd, hexec⟩⟩
      by_cases hnext : i = .tnext
      · subst hnext; exact .inr ⟨p, rfl, .inr ⟨hd, hexec⟩⟩
      exact .inl (exec_sched hpoll hnext hexec)
  | edgeA e a b => exact .inl (eventEdge_sched h)
  | edgeB e a b => exact .inl (eventEdge_sched h)
  | mstick => cases h; exact .inl rfl
  | reset => exact absurd rfl hi

end

/-- Settles O44: the input of a step that changes the phase is a TPOLL or a TNEXT, which change it along the control
sequence. -/
theorem noOtherPhaseTransition : Obligations.NoOtherPhaseTransition := by
  rintro s t rest hhead rfl hstep hne
  cases hin : s.inputs with
  | nil =>
    cases (step_nil s hin).symm.trans hstep
    exact absurd rfl hne
  | cons i rest =>
    rw [step_cons s i rest hin] at hstep
    have hi : i ≠ .reset := by
      rintro rfl
      exact hhead (by rw [hin]; rfl)
    rcases runInput_sched_cases hi hstep with hsched | ⟨p, rfl, ⟨hd, hexec⟩ | ⟨hd, hexec⟩⟩
    · exact absurd (congrArg Sched.phase hsched) hne
    · obtain ⟨hidle, hsync⟩ := exec_tpoll_phase hexec hne
      exact .inl ⟨p, rfl, hd, hidle, hsync⟩
    · cases hexec
      exact .inr ⟨p, rfl, hd, Phase.next_mem hne⟩

/-! ### No other unit reads the phase (R237)

Every other operation runs alike in every phase. -/

section
variable (s : State) (ph : Phase)

@[simp] theorem State.withPhase_fifo (f : Nat) : (s.withPhase ph).fifo? f = s.fifo? f := rfl

@[simp] theorem State.withPhase_transport (c : Nat) : (s.withPhase ph).transport? c = s.transport? c := rfl

@[simp] theorem State.withPhase_enc (e : Nat) : (s.withPhase ph).enc? e = s.enc? e := rfl

@[simp] theorem State.withPhase_encs : (s.withPhase ph).encs = s.encs := rfl

@[simp] theorem State.withPhase_time : (s.withPhase ph).time = s.time := rfl

@[simp] theorem State.withPhase_settings : (s.withPhase ph).settings = s.settings := rfl

@[simp] theorem State.withPhase_vtarget : (s.withPhase ph).vtarget = s.vtarget := rfl

@[simp] theorem State.withPhase_slip : (s.withPhase ph).slip = s.slip := rfl

@[simp] theorem State.withPhase_pidResult (p : Axis) (target actual : Int) (dt : Nat) :
    (s.withPhase ph).pidResult p target actual dt = s.pidResult p target actual dt := rfl

theorem State.pidUpdate_withPhase (p : Axis) (target actual : Int) (dt : Nat) :
    (s.withPhase ph).pidUpdate p target actual dt = (s.pidUpdate p target actual dt).withPhase ph := by
  cases p <;> rfl

theorem State.flagStatus_withPhase (n : Nat) (c : Bool) :
    (s.withPhase ph).flagStatus n c = (s.flagStatus n c).withPhase ph := rfl

@[simp] theorem State.readReg_withPhase (r : Reg) : (s.withPhase ph).readReg r = s.readReg r := by
  cases r <;> rfl

theorem State.writeReg_withPhase (r : Reg) (v : Word) :
    (s.withPhase ph).writeReg r v = (s.writeReg r v).map (State.withPhase · ph) := by
  cases r with
  | slip => simp only [State.writeReg]; split <;> rfl
  | motorEn => simp only [State.writeReg]; split <;> rfl
  | ppr e =>
    simp only [State.writeReg, State.withPhase_enc]
    cases s.enc? e with
    | none => rfl
    | some n => dsimp only; split <;> rfl
  | _ => rfl

/-- The queue operations read and write one FIFO. -/
theorem exec_withPhase_of_fifo {i : Instr} {f : Byte} (hi : namedFifo i = some f) :
    exec i (s.withPhase ph) = mapNext (State.withPhase · ph) (exec i s) := by
  cases hq : s.fifo? f.toNat with
  | none =>
    have hf := (State.fifo_eq_none s f.toNat).mp hq
    rw [exec_of_no_fifo hi hf, exec_of_no_fifo (s := s.withPhase ph) hi hf]
    rfl
  | some q =>
    cases i with
    | fpush _ b => cases hi; simp only [exec, execFpush, State.withPhase_fifo, hq]; split <;> rfl
    | fpop _ => cases hi; simp only [exec, execFpop, State.withPhase_fifo, hq]; split <;> rfl
    | fwrite _ payload =>
      cases hi
      simp only [exec, execFwrite, State.withPhase_fifo, hq]
      split
      · split <;> rfl
      · rfl
    | fread _ maxLen => cases hi; simp only [exec, execFread, State.withPhase_fifo, hq]; split <;> rfl
    | favail _ => cases hi; simp only [exec, execFavail, State.withPhase_fifo, hq]; rfl
    | ffree _ => cases hi; simp only [exec, execFfree, State.withPhase_fifo, hq]; rfl
    | _ => cases hi

/-- The CODEC operations read the settings, and read and write one transport. -/
theorem exec_withPhase_of_codec {i : Instr} {c : Byte} (hi : namedCodec i = some c) :
    exec i (s.withPhase ph) = mapNext (State.withPhase · ph) (exec i s) := by
  cases ht : s.transport? c.toNat with
  | none =>
    have hc := (State.transport_eq_none s c.toNat).mp ht
    rw [exec_of_no_transport hi hc, exec_of_no_transport (s := s.withPhase ph) hi hc]
    rfl
  | some t =>
    cases i with
    | crx _ b =>
      cases hi
      simp only [exec, execCrx, State.withPhase_transport, State.withPhase_settings, ht]
      split <;> rfl
    | csend _ code value =>
      cases hi
      simp only [exec, execCsend, State.withPhase_transport, State.withPhase_settings, ht]
      split
      · split <;> rfl
      · rfl
    | cui _ ch =>
      cases hi
      simp only [exec, execCui, State.withPhase_transport, State.withPhase_settings, ht]
      split
      · split <;> rfl
      · rfl
    | _ => cases hi

theorem execCfgrd_withPhase (reg : Half) :
    execCfgrd reg (s.withPhase ph) = mapNext (State.withPhase · ph) (execCfgrd reg s) := by
  simp only [execCfgrd, State.withPhase_encs, State.readReg_withPhase]
  cases regOf s.encs.length reg with
  | none => rfl
  | some r => rfl

theorem execCfgwr_withPhase (reg : Half) (v : Word) :
    execCfgwr reg v (s.withPhase ph) = mapNext (State.withPhase · ph) (execCfgwr reg v s) := by
  simp only [execCfgwr, State.withPhase_encs, State.writeReg_withPhase]
  cases regOf s.encs.length reg with
  | none => rfl
  | some r =>
    dsimp only
    cases s.writeReg r v with
    | error c => rfl
    | ok u => rfl

theorem execEsync_withPhase (e : Byte) :
    execEsync e (s.withPhase ph) = mapNext (State.withPhase · ph) (execEsync e s) := by
  simp only [execEsync, State.withPhase_enc, State.withPhase_time]
  cases s.enc? e.toNat with
  | none => rfl
  | some n =>
    dsimp only
    cases n.rate s.time with
    | none => rfl
    | some r => rfl

theorem execPupdate_withPhase (p : Byte) (target actual dt : Word) :
    execPupdate p target actual dt (s.withPhase ph) =
      mapNext (State.withPhase · ph) (execPupdate p target actual dt s) := by
  simp only [execPupdate, State.withPhase_pidResult, State.pidUpdate_withPhase]
  cases axisOf p with
  | none => rfl
  | some x =>
    dsimp only
    split <;> rfl

/-- The cascade is three updates and a flag, none of which reads the phase. -/
theorem execCupdate_withPhase (vactual lactual ractual dt : Word) :
    execCupdate vactual lactual ractual dt (s.withPhase ph) =
      mapNext (State.withPhase · ph) (execCupdate vactual lactual ractual dt s) := by
  simp only [execCupdate, State.withPhase_vtarget, State.withPhase_slip, State.withPhase_settings,
    State.withPhase_pidResult, State.pidUpdate_withPhase, State.flagStatus_withPhase]
  split <;> rfl

end

/-- Every operation but TPOLL and TNEXT runs alike in every phase. -/
theorem exec_withPhase {i : Instr} (s : State) (ph : Phase) (hpoll : i ≠ .tpoll) (hnext : i ≠ .tnext) :
    exec i (s.withPhase ph) = mapNext (State.withPhase · ph) (exec i s) := by
  cases i with
  | cfgrd reg => exact execCfgrd_withPhase s ph reg
  | cfgwr reg value => exact execCfgwr_withPhase s ph reg value
  | fpush | fpop | fwrite | fread | favail | ffree => exact exec_withPhase_of_fifo s ph rfl
  | esync e => exact execEsync_withPhase s ph e
  | pupdate p target actual dt => exact execPupdate_withPhase s ph p target actual dt
  | cupdate vactual lactual ractual dt => exact execCupdate_withPhase s ph vactual lactual ractual dt
  | tpoll => exact absurd rfl hpoll
  | tnext => exact absurd rfl hnext
  | crx | csend | cui => exact exec_withPhase_of_codec s ph rfl

/-- Settles O45: the phase is carried through the operation. -/
theorem phaseGatesNothing : Obligations.PhaseGatesNothing := by
  intro i s t ph hpoll hnext ht
  rw [exec_withPhase s ph hpoll hnext, ht]
  rfl

end Sys2Proof.Machine

/-! The statements of 45_system.md. The number of a register names it (`regOf_of_number`), and a number that names a
register is in the map (`number_of_regOf`); CFGRD and CFGWR of a number are then read off `State.readReg` and
`State.writeReg` of the register it names. A word that a narrow register refuses is one with a bit from the register's
width on. -/
namespace Sys2Proof.Machine

/-! ### The numbers of the map (R45, R250) -/

/-- The number of a register (R45). -/
def Reg.number : Reg → Nat
  | .fault => 0x0001
  | .status => 0x0002
  | .vtarget => 0x0010
  | .slip => 0x0011
  | .motorEn => 0x0012
  | .ppr e => 0x0100 + 0x10 * e
  | .kp p => 0x0200 + 0x10 * p.number
  | .ki p => 0x0201 + 0x10 * p.number
  | .kd p => 0x0202 + 0x10 * p.number

/-- The register exists on a machine with `nenc` encoders. -/
def Reg.Present (nenc : Nat) : Reg → Prop
  | .ppr e => e < nenc
  | _ => True

theorem axisNumbered_number (p : Axis) : axisNumbered p.number = some p := by cases p <;> rfl

theorem number_of_axisNumbered {k : Nat} {p : Axis} (h : axisNumbered k = some p) : k = p.number := by
  unfold axisNumbered at h
  iterate 3
    split at h
    · next hk => cases h; exact hk
  cases h

theorem Axis.number_lt (p : Axis) : p.number < 3 := by cases p <;> decide

/-- The map lists the number of every register there is. -/
theorem Reg.number_mem_registerNumbers {nenc : Nat} {r : Reg} (hr : r.Present nenc) :
    r.number ∈ registerNumbers nenc := by
  have hfixed {n : Nat} (h : n ∈ [0x0001, 0x0002, 0x0010, 0x0011, 0x0012]) : n ∈ registerNumbers nenc :=
    List.mem_append_left _ (List.mem_append_left _ h)
  have hgain {n : Nat} (p : Axis)
      (h : n ∈ [0x0200 + 0x10 * p.number, 0x0201 + 0x10 * p.number, 0x0202 + 0x10 * p.number]) :
      n ∈ registerNumbers nenc :=
    List.mem_append_right _ (List.mem_flatMap.mpr ⟨p.number, List.mem_range.mpr p.number_lt, h⟩)
  cases r with
  | fault | status | vtarget | slip | motorEn => exact hfixed (by decide)
  | ppr e =>
    exact List.mem_append_left _ (List.mem_append_right _ (List.mem_map.mpr ⟨e, List.mem_range.mpr hr, rfl⟩))
  | kp p | ki p | kd p => exact hgain p (by simp [Reg.number])

/-- A number names no register but the one that has it. -/
theorem number_of_regOf {nenc : Nat} {reg : Half} {r : Reg} (h : regOf nenc reg = some r) :
    r.Present nenc ∧ reg.toNat = r.number := by
  simp only [regOf] at h
  iterate 5
    split at h
    · next hn => cases h; exact ⟨trivial, hn⟩
  split at h
  · next hlo =>
    split at h
    · next he => cases h; exact ⟨he.2, by simp only [Reg.number]; omega⟩
    · cases h
  split at h
  · next hlo =>
    split at h
    · cases h
    · next p hp =>
      have hk := number_of_axisNumbered hp
      iterate 3
        split at h
        · cases h; exact ⟨trivial, by simp only [Reg.number]; omega⟩
      cases h
  · cases h

/-- The number of a register names it: with at most 16 encoders the numbers of PPR stay below those of the gains. -/
theorem regOf_of_number {nenc : Nat} {reg : Half} {r : Reg} (hnenc : nenc ≤ 16) (hr : r.Present nenc)
    (h : reg.toNat = r.number) : regOf nenc reg = some r := by
  cases r with
  | fault | status | vtarget | slip | motorEn => simp [regOf, h, Reg.number]
  | ppr e =>
    have he : e < nenc := hr
    have hidx : (0x0100 + 0x10 * e - 0x0100) / 0x10 = e := by omega
    simp (disch := omega) only [regOf, h, Reg.number, if_neg, if_pos, hidx]
  | kp p =>
    have hidx : (0x0200 + 0x10 * p.number - 0x0200) / 0x10 = p.number := by omega
    simp (disch := omega) only [regOf, h, Reg.number, if_neg, if_pos, hidx, axisNumbered_number]
  | ki p =>
    have hidx : (0x0201 + 0x10 * p.number - 0x0200) / 0x10 = p.number := by omega
    simp (disch := omega) only [regOf, h, Reg.number, if_neg, if_pos, hidx, axisNumbered_number]
  | kd p =>
    have hidx : (0x0202 + 0x10 * p.number - 0x0200) / 0x10 = p.number := by omega
    simp (disch := omega) only [regOf, h, Reg.number, if_neg, if_pos, hidx, axisNumbered_number]

theorem regOf_eq_none_of_not_mem {nenc : Nat} {reg : Half} (h : reg.toNat ∉ registerNumbers nenc) :
    regOf nenc reg = none := by
  rw [Option.eq_none_iff_forall_ne_some]
  intro r hr
  obtain ⟨hpresent, hnum⟩ := number_of_regOf hr
  exact h (hnum ▸ Reg.number_mem_registerNumbers hpresent)

/-- An encoder's PPR register is there with the encoder. -/
theorem Reg.ppr_present {s : State} {e : Nat} {n : Enc} (he : s.enc? e = some n) :
    (Reg.ppr e).Present s.encs.length :=
  (List.getElem?_eq_some_iff.mp he).1

/-! ### CFGRD and CFGWR of a number (R251, R252) -/

section
variable {s : State} {reg : Half}

theorem exec_cfgrd_of_number (hs : s.encs.length ≤ 16) (r : Reg) (hr : r.Present s.encs.length)
    (h : reg.toNat = r.number) : exec (.cfgrd reg) s = .next (s.respond .cfgrd 0 [s.readReg r]) := by
  simp only [exec, execCfgrd, regOf_of_number hs hr h]

theorem exec_cfgrd_undefined (h : reg.toNat ∉ registerNumbers s.encs.length) :
    exec (.cfgrd reg) s = .next (s.raise 0x01 .badReg) := by
  simp only [exec, execCfgrd, regOf_eq_none_of_not_mem h]
  rfl

theorem exec_cfgwr_of_ok {v : Word} {u : State} (hs : s.encs.length ≤ 16) (r : Reg)
    (hr : r.Present s.encs.length) (h : reg.toNat = r.number) (hw : s.writeReg r v = .ok u) :
    exec (.cfgwr reg v) s = .next (u.respond .cfgwr 0 []) := by
  simp only [exec, execCfgwr, regOf_of_number hs hr h, hw]

theorem exec_cfgwr_of_error {v : Word} {c : FaultCode} (hs : s.encs.length ≤ 16) (r : Reg)
    (hr : r.Present s.encs.length) (h : reg.toNat = r.number) (hw : s.writeReg r v = .error c) :
    exec (.cfgwr reg v) s = .next (s.raise 0x02 c) := by
  simp only [exec, execCfgwr, regOf_of_number hs hr h, hw]
  rfl

theorem exec_cfgwr_undefined (v : Word) (h : reg.toNat ∉ registerNumbers s.encs.length) :
    exec (.cfgwr reg v) s = .next (s.raise 0x02 .badReg) := by
  simp only [exec, execCfgwr, regOf_eq_none_of_not_mem h]
  rfl

end

/-! ### Words that a narrow register refuses (R252) -/

/-- The bits of a word from `k` on are 0 exactly when it fits in `k` bits. -/
theorem word_high_eq_zero_iff (v : Word) {k : Nat} (hk : k ≤ 32) :
    v.extractLsb' k (32 - k) = 0 ↔ v.toNat < 2 ^ k := by
  have hlt : v.toNat / 2 ^ k < 2 ^ (32 - k) := by
    rw [Nat.div_lt_iff_lt_mul (Nat.two_pow_pos k), ← Nat.pow_add, Nat.sub_add_cancel hk]
    exact v.isLt
  rw [← BitVec.toNat_inj, BitVec.extractLsb'_toNat, Nat.shiftRight_eq_div_pow, Nat.mod_eq_of_lt hlt]
  exact Nat.div_eq_zero_iff_lt (Nat.two_pow_pos k)

/-- Bit 31 is the one bit that SLIP does not implement. -/
theorem word_bit31 (v : Word) : v.getLsbD 31 = decide (2 ^ 31 ≤ v.toNat) := BitVec.getLsbD_last v

theorem State.writeReg_slip (s : State) (v : Word) :
    s.writeReg .slip v = if v.getLsbD 31 = false then .ok { s with slip := v.extractLsb' 0 31 }
      else .error .badOperand := by
  simp only [State.writeReg, word_bit31, decide_eq_false_iff_not, not_le,
    BitVec.setWidth_eq_extractLsb' (by decide : 31 ≤ 32)]

theorem State.writeReg_motorEn (s : State) (v : Word) :
    s.writeReg .motorEn v = if v.extractLsb' 2 30 = 0 then .ok { s with motorEn := v.extractLsb' 0 2 }
      else .error .badOperand := by
  simp only [State.writeReg, word_high_eq_zero_iff v (by decide : 2 ≤ 32),
    BitVec.setWidth_eq_extractLsb' (by decide : 2 ≤ 32)]

theorem State.writeReg_ppr {s : State} {e : Nat} {n : Enc} (v : Word) (he : s.enc? e = some n) :
    s.writeReg (.ppr e) v =
      if v.extractLsb' 16 16 = 0 then
        .ok { s with encs := s.encs.set e { n with ppr := v.extractLsb' 0 16 } }
      else .error .badOperand := by
  simp only [State.writeReg, he, word_high_eq_zero_iff v (by decide : 16 ≤ 32),
    BitVec.setWidth_eq_extractLsb' (by decide : 16 ≤ 32)]
  rfl

theorem State.readReg_ppr {s : State} {e : Nat} {n : Enc} (he : s.enc? e = some n) :
    s.readReg (.ppr e) = n.ppr.setWidth 32 := by
  simp only [State.readReg, he]

/-! ### The two operations -/

/-- Settles O10: the answer is what the register with that number reads as. -/
theorem cfgrdReadsTheMap : Obligations.CfgrdReadsTheMap := by
  intro s reg hs
  have read {reg : Half} := exec_cfgrd_of_number (reg := reg) hs
  refine ⟨decodeOfEncode (.cfgrd reg) rfl, exec_cfgrd_undefined, read .fault trivial rfl,
    read .status trivial rfl, read .vtarget trivial rfl, read .slip trivial rfl, read .motorEn trivial rfl,
    fun e n he h => ?ppr, fun p => ⟨read (.kp p) trivial, read (.ki p) trivial, read (.kd p) trivial⟩⟩
  case ppr => rw [read (.ppr e) (Reg.ppr_present he) h, State.readReg_ppr he]

/-- Settles O11: the operation does what the write to the register with that number does. -/
theorem cfgwrWritesTheMap : Obligations.CfgwrWritesTheMap := by
  intro s reg v hs
  have write {reg : Half} {u : State} := exec_cfgwr_of_ok (reg := reg) (v := v) (u := u) hs
  have refuse {reg : Half} {c : FaultCode} := exec_cfgwr_of_error (reg := reg) (v := v) (c := c) hs
  refine ⟨decodeOfEncode (.cfgwr reg v) rfl, ?badReg, write .vtarget trivial rfl rfl, fun hv => ?slipRefused,
    fun hv => ?slip, fun hv => ?motorEnRefused, fun hv => ?motorEn,
    fun e n he h => ⟨fun hv => ?pprRefused, fun hv => ?ppr⟩,
    fun p => ⟨(write (.kp p) trivial · rfl), (write (.ki p) trivial · rfl), (write (.kd p) trivial · rfl)⟩⟩
  case badReg =>
    rintro (h | h | h)
    · exact exec_cfgwr_undefined v h
    · exact refuse .fault trivial h rfl
    · exact refuse .status trivial h rfl
  case slipRefused => exact refuse .slip trivial rfl ((s.writeReg_slip v).trans (if_neg (by simp [hv])))
  case slip => exact write .slip trivial rfl ((s.writeReg_slip v).trans (if_pos hv))
  case motorEnRefused => exact refuse .motorEn trivial rfl ((s.writeReg_motorEn v).trans (if_neg hv))
  case motorEn => exact write .motorEn trivial rfl ((s.writeReg_motorEn v).trans (if_pos hv))
  case pprRefused =>
    exact refuse (.ppr e) (Reg.ppr_present he) h ((State.writeReg_ppr v he).trans (if_neg hv))
  case ppr => exact write (.ppr e) (Reg.ppr_present he) h ((State.writeReg_ppr v he).trans (if_pos hv))

end Sys2Proof.Machine

/-! The statements of 60_exceptions.md. A header that matches no row is rejected as such
(`decode_eq_illegalOp`), and every row has an opcode of R84; raising a fault is one equation in the fault's code
(`State.raise_eq`); and no effect of an operation touches FAULT, so that of the two cases of `exec_answered` only the
raised one changes it. -/
namespace Sys2Proof

/-! ### A header that matches no row (R87, R262) -/

/-- A packet whose header matches no row is rejected as illegal, whatever words follow. -/
theorem decode_eq_illegalOp {p : Packet} (h : ∀ r ∈ rows, p.header &&& r.mask ≠ r.pat) :
    decode p = .reject .illegalOp := by
  have hnone : findRow p.header = none :=
    List.find?_eq_none.mpr fun r hr hs => h r hr (beq_iff_eq.mp hs)
  simp only [decode, hnone]

/-- The opcodes of the operations are those of the table (R84). -/
theorem Op.code_mem_table (op : Op) :
    op.code ∈ ([0x01, 0x02, 0x10, 0x11, 0x12, 0x13, 0x14, 0x15, 0x20, 0x30, 0x31,
      0x40, 0x41, 0x50, 0x51, 0x52] : List Byte) := by
  cases op <;> decide

/-- A header that matches a row has the opcode of the row's operation (R81, R84). -/
theorem opField_of_mem_rows {h : Word} {r : Row} (hr : r ∈ rows) (hm : h &&& r.mask = r.pat) :
    opField h = r.op.code := by
  rw [eq_row_of_mem_rows r hr] at hm
  exact opField_of_spells (beq_iff_eq.mpr hm)

/-- Settles O3: the decoder looks at the header first, and an opcode outside the table matches no row. -/
theorem illegalHeaderRaisesIllegalOp : Obligations.IllegalHeaderRaisesIllegalOp := by
  intro s p
  have raised (hrows : ∀ r ∈ rows, p.header &&& r.mask ≠ r.pat) :
      Machine.runCommand p s = .next (s.raise (opField p.header) .illegalOp) :=
    Machine.runCommand_reject s p .illegalOp (decode_eq_illegalOp hrows)
  refine ⟨raised, fun hop => raised fun r hr hm => hop ?_⟩
  have hcode : p.header.extractLsb' 24 8 = r.op.code := opField_of_mem_rows hr hm
  exact hcode ▸ r.op.code_mem_table

end Sys2Proof

namespace Sys2Proof.Machine

/-! ### Raising a fault (R261) -/

/-- What raising a fault does, by the fault's code `n`: bit `n` of FAULT, status `n`, and nothing else. -/
theorem State.raise_eq (s : State) (op : Byte) (c : FaultCode) :
    s.raise op c =
      { s with
        faultReg := s.faultReg ||| ((1 : Word) <<< c.code)
        response := some ⟨op ++ BitVec.ofNat 8 c.code ++ (0 : Half), []⟩ } := by
  rw [State.raise, setSticky, if_pos rfl, bitWord_eq_shiftLeft, respHeader]

/-- The codes of the six faults (R261). -/
theorem FaultCode.code_of_mem_table :
    ∀ f ∈ ([(.illegalOp, 1), (.badInstance, 2), (.badReg, 3), (.badOperand, 4), (.encDiv0, 5),
      (.pidDt0, 6)] : List (FaultCode × Nat)), f.1.code = f.2 := by
  decide

/-- Settles O7: `State.raise_eq` at the code the table gives the fault. -/
theorem raiseSetsItsBitAndAnswers : Obligations.RaiseSetsItsBitAndAnswers := by
  intro s op c n hc
  obtain rfl : c.code = n := FaultCode.code_of_mem_table (c, n) hc
  exact s.raise_eq op c

/-! ### Answers (R82, R268) -/

theorem opField_respHeader (op : Op) (status : Byte) (res : Half) :
    opField (respHeader op.code status res) = op.code :=
  opField_mkHeader op status res

theorem responseStatus_respHeader (op : Op) (status : Byte) (res : Half) (ws : List Word) :
    responseStatus ⟨respHeader op.code status res, ws⟩ = status :=
  instField_mkHeader op status res

/-- An operation that raises no fault leaves FAULT as it was (R46). -/
theorem State.Effect.faultReg {s u : State} {i : Instr} (h : s.Effect i u) : u.faultReg = s.faultReg := by
  cases h with
  | cfgwr _ hw => rw [State.writeReg_rest hw]
  | pupdate _ _ => exact State.pidUpdate_faultReg ..
  | cupdate _ _ => simp only [State.pidUpdate_faultReg, State.flagStatus_faultReg]
  | _ => rfl

/-- Settles O8: the two cases of `exec_answered`. -/
theorem answerIsDoneOrOneFault : Obligations.AnswerIsDoneOrOneFault := by
  intro i s t h
  cases exec_answered h with
  | raised c =>
    exact ⟨_, State.raise_response s i.op.code c, opField_respHeader .., .inr ⟨c, rfl⟩⟩
  | done he res results =>
    exact ⟨_, State.respond_response _ i.op res results, opField_respHeader ..,
      .inl ⟨responseStatus_respHeader .., he.faultReg⟩⟩

end Sys2Proof.Machine

/-! The statements of 70_reset_and_hazards.md, and the edge of an encoder that does not exist. RESET leads to the state a
machine with the same parameters is built in (`eventReset_eq_build`), so that what a state element holds after RESET is
said once, about the built state. An operation straight after reset then answers from an empty queue, an encoder without
a pulse, or gains of 0 and disabled motors. -/
namespace Sys2Proof.Machine

/-! ### The units of a machine right after reset (R54) -/

section
variable {p : Params}

theorem State.build_fifo {f : Nat} {q : Fifo} (h : (State.build p).fifo? f = some q) :
    ∃ size, q = Fifo.init size := by
  rw [State.fifo_eq] at h
  obtain ⟨t, ht, rfl⟩ := Option.map_eq_some_iff.mp h
  obtain ⟨n, -, rfl⟩ := List.mem_map.mp (List.mem_of_getElem? ht)
  split
  · exact ⟨n.1, rfl⟩
  · exact ⟨n.2, rfl⟩

theorem State.build_codec {c : Nat} {k : Codec} (h : (State.build p).codec? c = some k) : k = Codec.init := by
  obtain ⟨t, ht, rfl⟩ := Option.map_eq_some_iff.mp h
  obtain ⟨n, -, rfl⟩ := List.mem_map.mp (List.mem_of_getElem? ht)
  rfl

theorem State.build_enc_iff {e : Nat} {n : Enc} : (State.build p).enc? e = some n ↔ e < p.nenc ∧ n = Enc.init := by
  rw [State.enc?, State.build, List.getElem?_replicate, Option.ite_none_right_eq_some, Option.some_inj,
    eq_comm (a := Enc.init)]

end

theorem State.build_pid (p : Params) (x : Axis) : (State.build p).pid.get x = PidState.init := by cases x <;> rfl

theorem State.build_gains (p : Params) (x : Axis) : (State.build p).gains.get x = Gains.init := by cases x <;> rfl

/-- A queue after reset is empty (R24, R54). -/
theorem Fifo.used_init (size : Nat) : (Fifo.init size).used = 0 := by
  rw [Fifo.used, Fifo.init, Nat.zero_add, Nat.sub_zero, Nat.mod_self]

theorem Fifo.free_init (size : Nat) : (Fifo.init size).free = size - 1 := by
  rw [Fifo.free, Fifo.used_init, Nat.sub_zero]; rfl

/-! ### RESET (R290, R291) -/

/-- RESET clears every unit in place, which is what building a machine of the same sizes does. -/
theorem eventReset_eq_build (s : State) :
    eventReset s = { State.build s.params with inputs := s.inputs } := by
  simp only [State.build, State.params, List.map_map, ← List.map_const']
  rfl

/-- Settles O48: after `eventReset_eq_build` each field is that of a built machine. -/
theorem resetSetsEveryField : Obligations.ResetSetsEveryField := by
  intro s rest hin
  have hstep : step s = .next { State.build s.params with inputs := rest } := by
    rw [step_cons s .reset rest hin]
    exact congrArg Host.Outcome.next (eventReset_eq_build { s with inputs := rest })
  refine ⟨_, hstep, State.params_build s.params, rfl, rfl, fun f q hq => ?_, fun c k hk => ?_, rfl, fun e n hn => ?_,
    State.build_pid s.params, State.build_gains s.params, rfl, rfl, rfl, rfl, rfl, rfl, rfl, rfl, rfl⟩
  · obtain ⟨size, rfl⟩ := State.build_fifo (p := s.params) hq
    exact ⟨rfl, rfl⟩
  · rw [State.build_codec (p := s.params) hk]
    exact ⟨rfl, rfl, rfl⟩
  · exact (State.build_enc_iff.mp hn).2

/-! ### ESYNC of an encoder without a pulse (R173) -/

/-- Without a pulse the policy answers 0, whatever the time. -/
theorem Enc.rate_init (t : Word) : Enc.init.rate t = some (.zero, 0) :=
  syncRate_of_lt_two _ (by decide)

/-- The read-and-reset of an encoder that is at reset, at time 0, changes nothing. -/
theorem exec_esync_build {p : Params} {e : Byte} (he : e.toNat < p.nenc) :
    exec (.esync e) (State.build p) = .next ((State.build p).respond .esync 0 [0]) := by
  have hsame : (State.build p).encs.set e.toNat (Enc.init.synced (State.build p).time) = (State.build p).encs :=
    List.set_replicate_self
  rw [exec_esync_of_rate (State.build_enc_iff.mpr ⟨he, rfl⟩) (Enc.rate_init _), hsame]
  rfl

/-! ### Updates with gains of 0 and disabled motors (R200, R211, R215) -/

/-- With gains of 0 the weighted sum is 0, whatever the error and the integral. -/
theorem pidCompute_init (st : PidState) (target actual : Int) (dt : Nat) :
    (pidCompute Gains.init st target actual dt).out = 0 ∧ (pidCompute Gains.init st target actual dt).cmd = 0 := by
  have hsum (e integ rate : Int) : pidSum Gains.init e integ rate = 0 := by
    have hzero : s32 0 = 0 := rfl
    simp only [pidSum, Gains.init, hzero, zero_mul, add_zero]
  rw [pidCompute_out rfl, pidCompute_cmd rfl, hsum, rdiv_zero, rdiv_zero]
  exact ⟨rfl, rfl⟩

section
variable {s : State} {dt : Word}

theorem State.pidResult_of_gains_init {x : Axis} (hg : s.gains.get x = Gains.init) (target actual : Int) (dt : Nat) :
    (s.pidResult x target actual dt).out = 0 ∧ (s.pidResult x target actual dt).cmd = 0 := by
  rw [State.pidResult, hg]
  exact pidCompute_init _ _ _ _

theorem exec_pupdate_of_gains_init {a : Byte} {x : Axis} (ha : a.toNat = x.number) (hdt : dt ≠ 0)
    (hg : s.gains.get x = Gains.init) (target actual : Word) :
    ∃ t, exec (.pupdate a target actual dt) s = .next t ∧ t.response = some ⟨respHeader 0x30 0 0, [0]⟩ := by
  obtain ⟨hout, hcmd⟩ := State.pidResult_of_gains_init hg (s32 target) (s32 actual) dt.toNat
  refine ⟨_, exec_pupdate_of_axis ha hdt rfl, ?_⟩
  rw [State.respond_response, hout, hcmd]
  rfl

/-- Without a slip tolerance the inner target is the outer output (R213), which gains of 0 make 0. -/
theorem State.innerTarget_of_gains_init (hg : s.gains.get .vehicle = Gains.init) (hslip : s.slip = 0) (va dt : Word) :
    (s.innerTarget va dt).1 = 0 := by
  obtain ⟨hout, hcmd⟩ := State.pidResult_of_gains_init hg (s32 s.vtarget) (s32 va) dt.toNat
  rw [State.innerTarget_fst, if_pos hslip, outerValue, State.outerResult, hout, hcmd, zero_mul, ite_self]

/-- The inner updates leave the output of a disabled motor at 0 (R215). -/
theorem State.cascade_act_of_disabled (hm : s.motorEn = 0) (va la ra dt : Word) :
    (s.cascade va la ra dt).actLeft = 0 ∧ (s.cascade va la ra dt).actRight = 0 := by
  simp [State.cascade, State.outerLoop, actValue, hm]

end

/-- Settles O49: each operation on the units of a built machine. -/
theorem usableAfterReset : Obligations.UsableAfterReset := by
  rintro p _ - rfl
  refine ⟨fun f q hq => ?_, fun c k hk => ?_, execTpoll_of_noTick _ rfl rfl, fun e => exec_esync_build,
    fun a target actual dt ha hdt => ?_, fun va la ra dt hdt => ?_⟩
  · have hfavail := exec_favail_of_fifo hq
    have hffree := exec_ffree_of_fifo hq
    obtain ⟨size, rfl⟩ := State.build_fifo hq
    rw [Fifo.used_init] at hfavail
    rw [Fifo.free_init] at hffree
    exact ⟨hfavail, hffree⟩
  · rw [State.build_codec hk]
    exact ⟨rfl, rfl, rfl⟩
  · obtain ⟨x, hx⟩ := exists_axis_of_lt_three ha
    exact exec_pupdate_of_gains_init hx hdt (State.build_gains p x) target actual
  · obtain ⟨hleft, hright⟩ := State.cascade_act_of_disabled (s := State.build p) rfl va la ra dt
    refine ⟨_, exec_cupdate_of_dt hdt, ?_, hleft, hright⟩
    rw [State.respond_response, State.innerTarget_of_gains_init rfl rfl, hleft, hright]
    rfl

/-! ### An edge of an encoder that does not exist (42_qenc.md R170) -/

theorem eventEdge_of_no_enc {s : State} {e : Nat} (he : s.encs.length ≤ e) (sense : Sense) :
    eventEdge e sense s = .fault .noSuchEncoder := by
  rw [eventEdge, (State.enc_eq_none s e).mpr he]

/-- Settles O32: either channel comes to `eventEdge`. -/
theorem edgeOfAbsentEncoderStops : Obligations.EdgeOfAbsentEncoderStops := by
  intro s e a b rest he hin
  have stops (sense : Sense) : eventEdge e sense { s with inputs := rest } = .fault .noSuchEncoder :=
    eventEdge_of_no_enc (s := { s with inputs := rest }) he sense
  rcases hin with hin | hin
  · exact (step_cons s _ rest hin).trans (stops (senseA a b))
  · exact (step_cons s _ rest hin).trans (stops (senseB a b))

end Sys2Proof.Machine
